-- ==== Sys2Proof/Word.lean ====
section
/-! DEFINITION. The word types of the block (00_scope.md R8) and nothing else. -/

namespace Sys2Proof

/-- A byte: 8 bits (R8). -/
abbrev Byte := BitVec 8

/-- A half-word: 16 bits (R8); the CRC register and a command word's IMM field. -/
abbrev Half := BitVec 16

/-- A word: 32 bits (R8); a control register, a counter, a time sample, a command word. -/
abbrev Word := BitVec 32

end Sys2Proof
end

