-- ==== Sys2Proof/Config.lean ====
section
/-! DEFINITION. The implementation parameters of 00_scope.md R6: the fixed ones as constants, the OPEN ones as one
record that the model takes as an argument (it stands in State, so that every claim is about every choice of them). -/

namespace Sys2Proof

/-- SYNC_BUF_CAP: the synchronizer's buffer in bytes (R6). -/
def syncBufCap : Nat := 255

/-- MAX_FRAME: the largest frame in bytes (R6). -/
def maxFrame : Nat := 255

/-- FLT_CAP_RESET: the filter's capacity after reset (R6). -/
def fltCapReset : Nat := 32

/-- PAYLOAD_MAX: the longest command payload (R6). -/
def payloadMax : Nat := 255

/-- The OPEN parameters of R6. The four queue capacities may differ (R7). -/
structure Params where
  /-- RB_CAP[0], the capacity of RX0. -/
  rbCapRx0 : Nat
  /-- RB_CAP[1], the capacity of TX0. -/
  rbCapTx0 : Nat
  /-- RB_CAP[2], the capacity of RX1. -/
  rbCapRx1 : Nat
  /-- RB_CAP[3], the capacity of TX1. -/
  rbCapTx1 : Nat
  /-- SYNC_TIMEOUT, the inactivity bound in ms. -/
  syncTimeout : Nat
  /-- FLT_MAX_CAP, the filter slots built. -/
  fltMaxCap : Nat
  /-- FLT_WINDOW_RESET, the debounce window after reset in ms. -/
  fltWindowReset : Word
  /-- EPC_MAX, the longest EPC the filter stores, in bytes. -/
  epcMax : Nat
  deriving DecidableEq, Repr

/-- The ranges R6 gives the OPEN parameters. -/
def Params.Valid (p : Params) : Prop :=
  (1 ≤ p.rbCapRx0 ∧ p.rbCapRx0 ≤ 65535) ∧ (1 ≤ p.rbCapTx0 ∧ p.rbCapTx0 ≤ 65535) ∧
  (1 ≤ p.rbCapRx1 ∧ p.rbCapRx1 ≤ 65535) ∧ (1 ≤ p.rbCapTx1 ∧ p.rbCapTx1 ≤ 65535) ∧
  (1 ≤ p.syncTimeout ∧ p.syncTimeout ≤ 2 ^ 31 - 1) ∧
  (32 ≤ p.fltMaxCap ∧ p.fltMaxCap ≤ 255) ∧
  (1 ≤ p.epcMax ∧ p.epcMax ≤ 255)

/-- The values 95_test_vectors.md takes where a vector names none. DESIGN CHOICE (log 1): State.reset uses them. -/
def Params.vectors : Params :=
  { rbCapRx0 := 256, rbCapTx0 := 256, rbCapRx1 := 256, rbCapTx1 := 256, syncTimeout := 50, fltMaxCap := 32,
    fltWindowReset := 1000#32, epcMax := 62 }

end Sys2Proof
end

