-- ==== Sys2Proof/Syntax.lean ====
section
/-! DEFINITION. The commands of the block: one constructor of Instr per row of spec/opcode_table.json (30_encoding.md
R125), with the operands of R126. -/

namespace Sys2Proof

/-- A UART channel: 0 is reader-facing, 1 is console-facing (R6, D2). -/
inductive Chan where
  | ch0
  | ch1
  deriving DecidableEq, Repr

/-- A queue by its number: q0 = RX0, q1 = TX0, q2 = RX1, q3 = TX1 (R6, R46). -/
inductive QueueSel where
  | rx0
  | tx0
  | rx1
  | tx1
  deriving DecidableEq, Repr

/-- A host command (R125). A payload-carrying command holds its payload, whose length is PLEN (R122). -/
inductive Instr where
  /-- NOP (R260). -/
  | nop
  /-- CRC.INIT (R163). -/
  | crcInit
  /-- CRC.BYTE b (R164). -/
  | crcByte (b : Byte)
  /-- CRC.UPDATE [p] (R165). -/
  | crcUpdate (p : List Byte)
  /-- CRC.COMPUTE [p] (R166). -/
  | crcCompute (p : List Byte)
  /-- CRC.VERIFY [p] (R167). -/
  | crcVerify (p : List Byte)
  /-- CRC.SEAL [p] (R168). -/
  | crcSeal (p : List Byte)
  /-- FIFO.PUT ch, [p] (R229). -/
  | fifoPut (ch : Chan) (p : List Byte)
  /-- FIFO.GET ch, n (R230). -/
  | fifoGet (ch : Chan) (n : Half)
  /-- FIFO.FLUSH q (R231). -/
  | fifoFlush (q : QueueSel)
  /-- SYNC.FEED [p] (R195). -/
  | syncFeed (p : List Byte)
  /-- SYNC.RESET (R196). -/
  | syncReset
  /-- FLT.CHECK [E] (R292). -/
  | fltCheck (p : List Byte)
  /-- FLT.CLEAR (R293). -/
  | fltClear
  /-- MODE.SET m (R262); m = 3 is a reserved operand value of a legal word (R128). -/
  | modeSet (m : BitVec 2)
  /-- PROCESS (R264). -/
  | process
  /-- REG.READ r (R268); a reserved index is a legal word (R128). -/
  | regRead (r : Byte)
  /-- REG.WRITE r, v (R269); v is the little-endian payload (R83). -/
  | regWrite (r : Byte) (v : Word)
  deriving DecidableEq, Repr

/-- The payload of a command, as Instr holds it; none for a command whose PLEN is 0 and for REG.WRITE, whose four
payload bytes are its operand v (R122). -/
def Instr.payload : Instr → List Byte
  | .nop => []
  | .crcInit => []
  | .crcByte _ => []
  | .crcUpdate p => p
  | .crcCompute p => p
  | .crcVerify p => p
  | .crcSeal p => p
  | .fifoPut _ p => p
  | .fifoGet _ _ => []
  | .fifoFlush _ => []
  | .syncFeed p => p
  | .syncReset => []
  | .fltCheck p => p
  | .fltClear => []
  | .modeSet _ => []
  | .process => []
  | .regRead _ => []
  | .regWrite _ _ => []

end Sys2Proof
end

