-- ==== Sys2Proof/WellFormed.lean ====
section
/-! DEFINITION. Which terms of Instr are commands of the block: the payload fits PLEN = IMM[7:0] (30_encoding.md R122).
Every other operand has its field's width by its type. -/

namespace Sys2Proof

/-- A payload of at most PAYLOAD_MAX bytes (R6, R122). -/
abbrev payloadFits (p : List Byte) : Prop := p.length ≤ payloadMax

/-- The commands that a command word and a payload can say. -/
abbrev WellFormed (i : Instr) : Prop := payloadFits i.payload

end Sys2Proof
end

