-- ==== Sys2Proof/Decode.lean ====
section
/-! DEFINITION. The command word and its serial form (30_encoding.md R119-R128): the opcode map as one function, the
decoder, total on any bytes, and the encoder written from the same map. -/

namespace Sys2Proof

/-! ## Byte order (R83, R123) -/

/-- Byte k of a word, byte 0 the least significant. -/
def wordByte (v : Word) (k : Nat) : Byte := v.extractLsb' (8 * k) 8

/-- The four bytes of a word, low byte first (R83, R123). -/
def wordBytes (v : Word) : List Byte := [wordByte v 0, wordByte v 1, wordByte v 2, wordByte v 3]

/-- The word whose bytes are b0 (low) to b3 (high): R83's `p[0] | p[1] << 8 | p[2] << 16 | p[3] << 24`. -/
def wordOfBytes (b0 b1 b2 b3 : Byte) : Word := b3 ++ b2 ++ b1 ++ b0

/-! ## Command word fields (R121) -/

/-- OPC, bits [31:24]. -/
def opcField (w : Word) : Byte := w.extractLsb' 24 8

/-- SEL, bits [23:16]. -/
def selField (w : Word) : Byte := w.extractLsb' 16 8

/-- IMM, bits [15:0]. -/
def immField (w : Word) : Half := w.extractLsb' 0 16

/-- A command word from its three fields. -/
def mkWord (opc sel : Byte) (imm : Half) : Word := opc ++ sel ++ imm

/-! ## Opcode map (R125) -/

/-- The operations R125 names. -/
inductive Op where
  | nop
  | crcInit
  | crcByte
  | crcUpdate
  | crcCompute
  | crcVerify
  | crcSeal
  | fifoPut
  | fifoGet
  | fifoFlush
  | syncFeed
  | syncReset
  | fltCheck
  | fltClear
  | modeSet
  | process
  | regRead
  | regWrite
  deriving DecidableEq, Repr

/-- What a command's payload is (R122): none, IMM[7:0] bytes ("P"), or the four bytes of REG.WRITE. -/
inductive PayloadKind where
  | none
  | counted
  | four
  deriving DecidableEq, Repr

/-- One row of R125: the code, the SEL bits and the IMM bits that are operands (a bit outside them is fixed), the
value of the fixed IMM bits, and the payload. A "P" row's IMM[7:0] is an operand. -/
structure OpRow where
  code : Byte
  selFree : Byte
  immFree : Half
  immFixed : Half
  payload : PayloadKind
  deriving DecidableEq, Repr

/-- The opcode map of R125, row by row. -/
def Op.row : Op → OpRow
  | .nop       => ⟨0x00#8, 0x00#8, 0x0000#16, 0x0000#16, .none⟩
  | .crcInit   => ⟨0x10#8, 0x00#8, 0x0000#16, 0x0000#16, .none⟩
  | .crcByte   => ⟨0x11#8, 0x00#8, 0x00FF#16, 0x0000#16, .none⟩
  | .crcUpdate => ⟨0x12#8, 0x00#8, 0x00FF#16, 0x0000#16, .counted⟩
  | .crcCompute => ⟨0x13#8, 0x00#8, 0x00FF#16, 0x0000#16, .counted⟩
  | .crcVerify => ⟨0x14#8, 0x00#8, 0x00FF#16, 0x0000#16, .counted⟩
  | .crcSeal   => ⟨0x15#8, 0x00#8, 0x00FF#16, 0x0000#16, .counted⟩
  | .fifoPut   => ⟨0x20#8, 0x01#8, 0x00FF#16, 0x0000#16, .counted⟩
  | .fifoGet   => ⟨0x21#8, 0x01#8, 0xFFFF#16, 0x0000#16, .none⟩
  | .fifoFlush => ⟨0x22#8, 0x03#8, 0x0000#16, 0x0000#16, .none⟩
  | .syncFeed  => ⟨0x30#8, 0x00#8, 0x00FF#16, 0x0000#16, .counted⟩
  | .syncReset => ⟨0x31#8, 0x00#8, 0x0000#16, 0x0000#16, .none⟩
  | .fltCheck  => ⟨0x40#8, 0x00#8, 0x00FF#16, 0x0000#16, .counted⟩
  | .fltClear  => ⟨0x41#8, 0x00#8, 0x0000#16, 0x0000#16, .none⟩
  | .modeSet   => ⟨0x50#8, 0x00#8, 0x0003#16, 0x0000#16, .none⟩
  | .process   => ⟨0x51#8, 0x00#8, 0x0000#16, 0x0000#16, .none⟩
  | .regRead   => ⟨0x60#8, 0xFF#8, 0x0000#16, 0x0000#16, .none⟩
  | .regWrite  => ⟨0x61#8, 0xFF#8, 0x0000#16, 0x0004#16, .four⟩

/-- Every operation, in R125's order. -/
def Op.all : List Op :=
  [.nop, .crcInit, .crcByte, .crcUpdate, .crcCompute, .crcVerify, .crcSeal, .fifoPut, .fifoGet, .fifoFlush,
   .syncFeed, .syncReset, .fltCheck, .fltClear, .modeSet, .process, .regRead, .regWrite]

/-- The operation whose code is OPC, or none for an undefined OPC (R127, R128). -/
def Op.ofCode (opc : Byte) : Option Op := Op.all.find? fun o => o.row.code == opc

/-- SEL has no bit set outside the row's operand bits (R127). -/
def OpRow.selLegal (r : OpRow) (sel : Byte) : Bool := sel &&& ~~~r.selFree == 0#8

/-- IMM's bits outside the row's operand bits have their fixed value (R127). -/
def OpRow.immLegal (r : OpRow) (imm : Half) : Bool := imm &&& ~~~r.immFree == r.immFixed

/-- PLEN(w): the payload length, known from the word alone (R122); 0 for an undefined OPC (R127). -/
def plen (w : Word) : Nat :=
  match Op.ofCode (opcField w) with
  | some o =>
    match o.row.payload with
    | .none => 0
    | .counted => ((immField w).extractLsb' 0 8).toNat
    | .four => 4
  | none => 0

/-! ## Operands (R126) -/

/-- ch = SEL[0]. -/
def chanOfSel (sel : Byte) : Chan := if sel.getLsbD 0 then .ch1 else .ch0

/-- The SEL field that says channel ch. -/
def selOfChan : Chan → Byte
  | .ch0 => 0#8
  | .ch1 => 1#8

/-- q = SEL[1:0], with ch(q) = q[1] and q[0] = 0 for RX, 1 for TX. -/
def queueOfSel (sel : Byte) : QueueSel :=
  if sel.getLsbD 1 then (if sel.getLsbD 0 then .tx1 else .rx1) else (if sel.getLsbD 0 then .tx0 else .rx0)

/-- The SEL field that says queue q. -/
def selOfQueue : QueueSel → Byte
  | .rx0 => 0#8
  | .tx0 => 1#8
  | .rx1 => 2#8
  | .tx1 => 3#8

/-- b = IMM[7:0]. -/
def byteOfImm (imm : Half) : Byte := imm.extractLsb' 0 8

/-- m = IMM[1:0]. -/
def modeOfImm (imm : Half) : BitVec 2 := imm.extractLsb' 0 2

/-- The 4-byte little-endian value of REG.WRITE's payload (R83). The decoder has checked the length. -/
def valueOfPayload : List Byte → Word
  | [b0, b1, b2, b3] => wordOfBytes b0 b1 b2 b3
  | _ => 0#32

/-- The command an operation is, with its operands taken from SEL, IMM and the payload (R126). -/
def Op.instr (sel : Byte) (imm : Half) (p : List Byte) : Op → Instr
  | .nop => .nop
  | .crcInit => .crcInit
  | .crcByte => .crcByte (byteOfImm imm)
  | .crcUpdate => .crcUpdate p
  | .crcCompute => .crcCompute p
  | .crcVerify => .crcVerify p
  | .crcSeal => .crcSeal p
  | .fifoPut => .fifoPut (chanOfSel sel) p
  | .fifoGet => .fifoGet (chanOfSel sel) imm
  | .fifoFlush => .fifoFlush (queueOfSel sel)
  | .syncFeed => .syncFeed p
  | .syncReset => .syncReset
  | .fltCheck => .fltCheck p
  | .fltClear => .fltClear
  | .modeSet => .modeSet (modeOfImm imm)
  | .process => .process
  | .regRead => .regRead sel
  | .regWrite => .regWrite sel (valueOfPayload p)

/-! ## The decoder -/

/-- Why a word is illegal (R127). -/
inductive Illegal where
  | unknownOpcode
  | selector
  | immediate
  deriving DecidableEq, Repr

/-- Why bytes are no command at all (R119, U12). -/
inductive NotCommand where
  | shortWord
  | payloadLength
  deriving DecidableEq, Repr

/-- What the decoder reads. An illegal word is still a command, which the block answers with IllegalCommand (R127);
bytes that are no command never reach the block (R119). -/
inductive Decoded where
  | instr (i : Instr)
  | illegal (why : Illegal)
  | notCommand (why : NotCommand)
  deriving DecidableEq, Repr

/-- Decode a word whose payload p has its PLEN(w) bytes. -/
def decodeWord (w : Word) (p : List Byte) : Decoded :=
  match Op.ofCode (opcField w) with
  | none => .illegal .unknownOpcode
  | some o =>
    if !o.row.selLegal (selField w) then .illegal .selector
    else if !o.row.immLegal (immField w) then .illegal .immediate
    else .instr (o.instr (selField w) (immField w) p)

/-- Decode a command `(w, p)`: no command unless the payload has PLEN(w) bytes (R119). -/
def decodeCommand (w : Word) (p : List Byte) : Decoded :=
  if p.length ≠ plen w then .notCommand .payloadLength else decodeWord w p

/-- Decode a command from its serial form: the word low byte first, then the payload (R123). -/
def decode : List Byte → Decoded
  | b0 :: b1 :: b2 :: b3 :: p => decodeCommand (wordOfBytes b0 b1 b2 b3) p
  | _ => .notCommand .shortWord

/-! ## The encoder -/

/-- A payload's length as the IMM field says it. -/
def countImm (p : List Byte) : Half := BitVec.ofNat 16 p.length

/-- The operation of a command. -/
def Instr.op : Instr → Op
  | .nop => .nop
  | .crcInit => .crcInit
  | .crcByte _ => .crcByte
  | .crcUpdate _ => .crcUpdate
  | .crcCompute _ => .crcCompute
  | .crcVerify _ => .crcVerify
  | .crcSeal _ => .crcSeal
  | .fifoPut _ _ => .fifoPut
  | .fifoGet _ _ => .fifoGet
  | .fifoFlush _ => .fifoFlush
  | .syncFeed _ => .syncFeed
  | .syncReset => .syncReset
  | .fltCheck _ => .fltCheck
  | .fltClear => .fltClear
  | .modeSet _ => .modeSet
  | .process => .process
  | .regRead _ => .regRead
  | .regWrite _ _ => .regWrite

/-- The SEL field of a command (R125). -/
def Instr.sel : Instr → Byte
  | .nop => 0#8
  | .crcInit => 0#8
  | .crcByte _ => 0#8
  | .crcUpdate _ => 0#8
  | .crcCompute _ => 0#8
  | .crcVerify _ => 0#8
  | .crcSeal _ => 0#8
  | .fifoPut ch _ => selOfChan ch
  | .fifoGet ch _ => selOfChan ch
  | .fifoFlush q => selOfQueue q
  | .syncFeed _ => 0#8
  | .syncReset => 0#8
  | .fltCheck _ => 0#8
  | .fltClear => 0#8
  | .modeSet _ => 0#8
  | .process => 0#8
  | .regRead r => r
  | .regWrite r _ => r

/-- The IMM field of a command (R125). -/
def Instr.imm : Instr → Half
  | .nop => 0#16
  | .crcInit => 0#16
  | .crcByte b => b.setWidth 16
  | .crcUpdate p => countImm p
  | .crcCompute p => countImm p
  | .crcVerify p => countImm p
  | .crcSeal p => countImm p
  | .fifoPut _ p => countImm p
  | .fifoGet _ n => n
  | .fifoFlush _ => 0#16
  | .syncFeed p => countImm p
  | .syncReset => 0#16
  | .fltCheck p => countImm p
  | .fltClear => 0#16
  | .modeSet m => m.setWidth 16
  | .process => 0#16
  | .regRead _ => 0#16
  | .regWrite _ _ => 0x0004#16

/-- The bytes that follow the word: the payload, or REG.WRITE's value (R122, R83). -/
def Instr.payloadBytes : Instr → List Byte
  | .regWrite _ v => wordBytes v
  | i => i.payload

/-- The command word of a command (R121, R125). -/
def encodeWord (i : Instr) : Word := mkWord i.op.row.code i.sel i.imm

/-- A command and its payload in serial form (R123). -/
def serial (w : Word) (p : List Byte) : List Byte := wordBytes w ++ p

/-- The bytes of a command on the port (R123). -/
def encode (i : Instr) : List Byte := serial (encodeWord i) i.payloadBytes

/-! ## Words given as numbers -/

/-- The bytes of a command given as a number, bit 0 the least significant bit of the word's low byte: the low nbits
bits of w, every bit above them 0, over the 4 bytes of the word and its PLEN payload bytes. -/
def tableBytes (nbits w : Nat) : List Byte :=
  let x := w % 2 ^ nbits
  (List.range (4 + plen (BitVec.ofNat 32 x))).map fun k => BitVec.ofNat 8 (x >>> (8 * k))

/-- The instruction the decoder reads from a table word (none where it refuses). -/
def decodeTableWord (nbits w : Nat) : Option Instr :=
  match decode (tableBytes nbits w) with
  | .instr i => some i
  | .illegal _ => none
  | .notCommand _ => none

end Sys2Proof
end

