-- ==== Sys2Proof/Machine/State.lean ====
section
/-! DEFINITION. The state of the block as plain data (10_state.md), the reasons a step can stop, and the state after
reset (R57). Grouped by unit: each statistics counter stands with the unit whose rule writes it (R43). -/

namespace Sys2Proof.Machine

/-! ## Control (R32-R35, R43) -/

/-- RouterMode (R33): the register's value 3 is reserved and never held. -/
inductive Mode where
  | idle
  | bypass
  | inventory
  deriving DecidableEq, Repr

/-! ## Ring buffers (R46-R48) -/

/-- An entry of an RX queue: 9 bits, the byte and the GAP tag (R46). -/
structure RxEntry where
  byte : Byte
  gap : Bool
  deriving DecidableEq, Repr, Inhabited

/-- A ring buffer's storage and indices (R46): head is the write index, tail the read index. -/
structure RingBuffer (α : Type) where
  mem : List α
  head : Nat
  tail : Nat
  count : Nat
  deriving DecidableEq, Repr

/-- An RX queue: its ring and gap_pending (R47). -/
structure RxQueue where
  ring : RingBuffer RxEntry
  gapPending : Bool
  deriving DecidableEq, Repr

/-- A TX queue: its ring and claim_len (R48). -/
structure TxQueue where
  ring : RingBuffer Byte
  claimLen : Nat
  deriving DecidableEq, Repr

/-- One UART channel n: its two enables of IRQEN (R34), its queues RX(n) and TX(n), the bytes sent on wire_n (42_fifo.md
R227), and its counters FWDn, OVRn and TXERRn (R43). -/
structure Channel where
  rxie : Bool
  txie : Bool
  rx : RxQueue
  tx : TxQueue
  wire : List Byte
  fwd : Word
  ovr : Word
  txerr : Word
  deriving DecidableEq, Repr

/-! ## Synchronizer (R50) -/

/-- The synchronizer's two states (R50). -/
inductive SyncState where
  | waitLength
  | waitBody
  deriving DecidableEq, Repr

/-- The SYNC unit (R50) with its counters FRAMES and CRCERR (R43). -/
structure Sync where
  state : SyncState
  buf : List Byte
  expected : Byte
  received : Byte
  last : Word
  frames : Word
  crcerr : Word
  deriving DecidableEq, Repr

/-! ## Filter (R52) -/

/-- A filter slot (R52). -/
structure Slot where
  valid : Bool
  len : Byte
  epc : List Byte
  ts : Word
  deriving DecidableEq, Repr

/-- The FILTER unit (R52) with its counters TAGACC and TAGSUP (R43). -/
structure TagFilter where
  entry : List Slot
  next : Nat
  count : Nat
  cap : Nat
  win : Word
  tagacc : Word
  tagsup : Word
  deriving DecidableEq, Repr

/-! ## Results (30_encoding.md R124, 60_exceptions.md R320) -/

/-- A result code (R320). The reserved codes 0x05 to 0xFE are not in the type (U10). -/
inductive Code where
  | ok
  | invalidParam
  | bufferOverflow
  | wrongMode
  | illegalCommand
  | hazardFault
  deriving DecidableEq, Repr

/-- A command's result record (R124). -/
structure Reply where
  code : Code
  value : Word
  data : List Byte
  tags : List Bool
  frames : List (List Byte)
  deriving DecidableEq, Repr

/-! ## Fault condition (R54) -/

/-- The reason of the FAULTED condition (R54, 60_exceptions.md R324). -/
inductive FaultReason where
  /-- HazardFlushLive, the only reason R54 names. -/
  | hazardFlushLive
  /-- The model's name for the fault of 93_implementation_defined.md U3, a commit beyond the claim (42_fifo.md R224,
  log 28). -/
  | commitBeyondClaim
  deriving DecidableEq, Repr

/-! ## What the environment offers (60_exceptions.md R326, R329) -/

/-- One offer of the environment: a host command in serial form with its time sample (30_encoding.md R119, R120,
R123), a byte arriving on a channel's wire (42_fifo.md R226), a transmit-ready event (R227), or RESET (R350). -/
inductive Input where
  | command (bytes : List Byte) (now : Word)
  | urx (ch : Chan) (b : Byte)
  | utx (ch : Chan) (k j : Nat)
  | reset
  deriving DecidableEq, Repr

/-! ## The state -/

/-- Everything the block holds (R57), the parameters it was built with (R6), and the model's own three fields: `now`,
`reply` and `inputs`. -/
structure State where
  /-- The OPEN parameters; no step changes them. -/
  params : Params
  /-- MODE. -/
  mode : Mode
  /-- Channel 0, reader-facing. -/
  ch0 : Channel
  /-- Channel 1, console-facing. -/
  ch1 : Channel
  /-- CRC. -/
  crc : Half
  sync : Sync
  flt : TagFilter
  /-- `faulted` and `fault_reason` (R54): absent while `faulted` = 0. -/
  fault : Option FaultReason
  /-- The command index (R31). -/
  cmdIndex : Nat
  /-- Model's own: the time sample of the command being executed (R120). -/
  now : Word
  /-- Model's own: the result of the latest command on the host port (R124). -/
  reply : Option Reply
  /-- Model's own: what the environment offers next, oldest first (R89). -/
  inputs : List Input
  deriving DecidableEq, Repr

/-- Why the model stops. -/
inductive Fault where
  /-- Raised by every command's meaning in the FAULTED condition: no command has a step (R324, U2). Safe. `step` never
  raises it: it leaves such a command untaken by the block. -/
  | faulted
  deriving DecidableEq, Repr

/-- Why the model has no answer. -/
inductive Refusal where
  /-- Raised by exec for an instruction without a meaning. Safe. -/
  | notModelled (mnemonic : String)
  /-- Raised by step when the bytes offered are no command: the payload has not PLEN(w) bytes (R119, U12). Safe. -/
  | notACommand
  /-- Raised by step when a UTXn event reports room for no byte: R227 has k ≥ 1 (log 29). Safe. -/
  | notAnEvent
  deriving DecidableEq, Repr

/-! ## Reset (R57) -/

/-- An empty ring of capacity cap whose storage, unspecified at reset, holds e (log 11). -/
def RingBuffer.fresh {α : Type} (e : α) (cap : Nat) : RingBuffer α := { mem := List.replicate cap e, head := 0, tail := 0, count := 0 }

/-- A channel after reset, its queues of capacities capRx and capTx. -/
def Channel.fresh (capRx capTx : Nat) : Channel :=
  { rxie := false, txie := false
    rx := { ring := RingBuffer.fresh ⟨0#8, false⟩ capRx, gapPending := false }
    tx := { ring := RingBuffer.fresh 0#8 capTx, claimLen := 0 }
    wire := [], fwd := 0#32, ovr := 0#32, txerr := 0#32 }

/-- The synchronizer after reset; buf is unspecified (log 12). -/
def Sync.fresh : Sync :=
  { state := .waitLength, buf := List.replicate syncBufCap 0#8, expected := 0#8, received := 0#8, last := 0#32
    frames := 0#32, crcerr := 0#32 }

/-- The filter after reset; the slots' contents but for valid are unspecified (log 13). -/
def TagFilter.fresh (p : Params) : TagFilter :=
  { entry := List.replicate p.fltMaxCap { valid := false, len := 0#8, epc := List.replicate p.epcMax 0#8, ts := 0#32 }
    next := 0, count := 0, cap := fltCapReset, win := p.fltWindowReset, tagacc := 0#32, tagsup := 0#32 }

/-- The state right after reset of a block built with parameters p (R57). -/
def State.resetWith (p : Params) : State :=
  { params := p
    mode := .idle
    ch0 := Channel.fresh p.rbCapRx0 p.rbCapTx0
    ch1 := Channel.fresh p.rbCapRx1 p.rbCapTx1
    crc := 0xFFFF#16
    sync := Sync.fresh
    flt := TagFilter.fresh p
    fault := none
    cmdIndex := 0
    now := 0#32
    reply := none
    inputs := [] }

/-- The state right after reset, with the parameters of 95_test_vectors.md (log 1). -/
def State.reset : State := State.resetWith Params.vectors

end Sys2Proof.Machine
end

