-- ==== Sys2Proof/Machine/Ops.lean ====
section
/-! DEFINITION. The primitives of 00_scope.md R12, each once: the CRC step, the ring buffer, the synchronizer, the
filter, the channel accessors, the result, the fault and RESET. The instructions are written over them. -/

namespace Sys2Proof.Machine

/-! ## CRC (40_crc.md R160-R162, R168) -/

/-- One of crc_step's eight shifts (R160). -/
def crcShift (c : Half) : Half :=
  if c.getLsbD 0 then (c >>> 1) ^^^ 0x8408#16 else c >>> 1

/-- crcShift repeated n times. -/
def crcShifts : Nat → Half → Half
  | 0, c => c
  | n + 1, c => crcShifts n (crcShift c)

/-- crc_step(c, b) (R160). -/
def crcStep (c : Half) (b : Byte) : Half := crcShifts 8 (c ^^^ b.setWidth 16)

/-- crc_step folded over s from c, first byte first. -/
def crcFold (c : Half) (s : List Byte) : Half := s.foldl crcStep c

/-- CRC(s) (R161). -/
def crcOf (s : List Byte) : Half := crcFold 0xFFFF#16 s

/-- The two CRC bytes as the wire has them, low byte first (20_memory.md R82, R113). -/
def crcBytes (c : Half) : List Byte := [c.extractLsb' 0 8, c.extractLsb' 8 8]

/-- The value of two bytes, lo first: `zext_16(lo) | zext_16(hi) << 8` (R162). -/
def leHalf (lo hi : Byte) : Half := lo.setWidth 16 ||| (hi.setWidth 16 <<< 8)

/-- crc_verify(f) (R162). -/
def crcVerify (f : List Byte) : Bool :=
  if f.length < 2 then false
  else crcOf (f.take (f.length - 2)) == leHalf (f.getD (f.length - 2) 0#8) (f.getD (f.length - 1) 0#8)

/-- The frame CRC.SEAL builds around the m bytes p: Len = m + 2, p, and the CRC (R168). -/
def sealFrame (p : List Byte) : List Byte :=
  let f := BitVec.ofNat 8 (p.length + 2) :: p
  f ++ crcBytes (crcOf f)

/-! ## Ring buffers (42_fifo.md R220-R225); cap is RB_CAP[q] -/

/-- push(q, e) (R220). -/
def RingBuffer.push {α : Type} (cap : Nat) (e : α) (r : RingBuffer α) : RingBuffer α :=
  { r with mem := r.mem.set r.head e, head := (r.head + 1) % cap, count := r.count + 1 }

/-- pop(q) (R221): the oldest entry and the queue without it. -/
def RingBuffer.pop {α : Type} [Inhabited α] (cap : Nat) (r : RingBuffer α) : α × RingBuffer α :=
  (r.mem.getD r.tail default, { r with tail := (r.tail + 1) % cap, count := r.count - 1 })

/-- n entries popped, oldest first. -/
def RingBuffer.popMany {α : Type} [Inhabited α] (cap : Nat) : Nat → RingBuffer α → List α × RingBuffer α
  | 0, r => ([], r)
  | n + 1, r =>
    let e := r.pop cap
    let rest := RingBuffer.popMany cap n e.2
    (e.1 :: rest.1, rest.2)

/-- The entries es pushed in order. -/
def RingBuffer.pushMany {α : Type} (cap : Nat) : List α → RingBuffer α → RingBuffer α
  | [], r => r
  | e :: es, r => RingBuffer.pushMany cap es (r.push cap e)

/-- The first n entries of Q(q), left in place (R223's peek). -/
def RingBuffer.peek {α : Type} [Inhabited α] (cap n : Nat) (r : RingBuffer α) : List α :=
  (List.range n).map fun i => r.mem.getD ((r.tail + i) % cap) default

/-- Q(q), the abstract content of a queue, oldest first (10_state.md R49). -/
def RingBuffer.contents {α : Type} [Inhabited α] (cap : Nat) (r : RingBuffer α) : List α := r.peek cap r.count

/-- flush's part on head, tail and count (R222). -/
def RingBuffer.flush {α : Type} (r : RingBuffer α) : RingBuffer α := { r with head := 0, tail := 0, count := 0 }

/-- free(q) (R225). -/
def RingBuffer.free {α : Type} (cap : Nat) (r : RingBuffer α) : Nat := cap - r.count

/-- flush of an RX queue (R222). -/
def RxQueue.flush (q : RxQueue) : RxQueue := { ring := q.ring.flush, gapPending := false }

/-- flush of a TX queue (R222). -/
def TxQueue.flush (q : TxQueue) : TxQueue := { ring := q.ring.flush, claimLen := 0 }

/-- claim(q, k) (R223): the first min(k, count) entries, left in place, and claim_len recorded. -/
def TxQueue.claim (cap k : Nat) (q : TxQueue) : List Byte × TxQueue :=
  let c := min k q.ring.count
  (q.ring.peek cap c, { q with claimLen := c })

/-- commit(q, j) (R224); none where j exceeds claim_len. -/
def TxQueue.commit (cap j : Nat) (q : TxQueue) : Option TxQueue :=
  if q.claimLen < j then none
  else some { ring := { q.ring with tail := (q.ring.tail + j) % cap, count := q.ring.count - j }, claimLen := 0 }

/-! ## Channels -/

/-- RB_CAP[RX(n)] (R7). -/
def rxCap (p : Params) : Chan → Nat
  | .ch0 => p.rbCapRx0
  | .ch1 => p.rbCapRx1

/-- RB_CAP[TX(n)] (R7). -/
def txCap (p : Params) : Chan → Nat
  | .ch0 => p.rbCapTx0
  | .ch1 => p.rbCapTx1

/-- Channel n of the state. -/
def State.chan (s : State) : Chan → Channel
  | .ch0 => s.ch0
  | .ch1 => s.ch1

/-- The state with channel n replaced. -/
def State.setChan (s : State) : Chan → Channel → State
  | .ch0, c => { s with ch0 := c }
  | .ch1, c => { s with ch1 := c }

/-- Q(RX(n)) (R49). -/
def State.rxContents (s : State) (n : Chan) : List RxEntry := (s.chan n).rx.ring.contents (rxCap s.params n)

/-- Q(TX(n)) (R49). -/
def State.txContents (s : State) (n : Chan) : List Byte := (s.chan n).tx.ring.contents (txCap s.params n)

/-- MODE.SET's pause of one channel: RXIEn and TXIEn cleared (43_control.md R262). -/
def Channel.pause (c : Channel) : Channel := { c with rxie := false, txie := false }

/-- MODE.SET's reset of one channel's two queues (R262). -/
def Channel.flushBoth (c : Channel) : Channel := { c with rx := c.rx.flush, tx := c.tx.flush }

/-- MODE.SET's resume of one channel: receive only (R262). -/
def Channel.resume (c : Channel) : Channel := { c with rxie := true }

/-! ## Synchronizer (41_sync.md R190-R194) -/

/-- sync_reset() (R190). -/
def Sync.reset (y : Sync) : Sync := { y with state := .waitLength, expected := 0#8, received := 0#8 }

/-- sync_byte's timeout check against the previous byte (R191, R193). -/
def Sync.expire (timeout : Nat) (t : Word) (y : Sync) : Sync :=
  if y.state = .waitBody ∧ timeout < (t - y.last).toNat then y.reset else y

/-- A byte a WaitLength synchronizer takes as Len: 1 to 254 (R194). -/
def lenAccepted (b : Byte) : Bool := !(b == 0#8) && decide (b.toNat + 1 ≤ syncBufCap)

/-- sync_byte's state step (R191): a byte taken, and the frame it completes, if any. -/
def Sync.accept (b : Byte) (y : Sync) : Sync × Option (List Byte) :=
  match y.state with
  | .waitLength =>
    if lenAccepted b then
      ({ y with buf := y.buf.set 0 b, expected := b, received := 0#8, state := .waitBody }, none)
    else (y, none)
  | .waitBody =>
    let z := { y with buf := y.buf.set (1 + y.received.toNat) b, received := y.received + 1#8 }
    if z.received = z.expected then (z.reset, some (z.buf.take (1 + z.expected.toNat))) else (z, none)

/-- sync_byte(b, t) (R191): timeout check, time stamp, state step. -/
def Sync.byte (timeout : Nat) (b : Byte) (t : Word) (y : Sync) : Sync × Option (List Byte) :=
  Sync.accept b { y.expire timeout t with last := t }

/-- dispatch(f) (R192): the frames it adds to the command's list, and its counter. -/
def Sync.dispatch (f : List Byte) (y : Sync) : Sync × List (List Byte) :=
  if crcVerify f then ({ y with frames := y.frames + 1#32 }, [f]) else ({ y with crcerr := y.crcerr + 1#32 }, [])

/-- One byte presented, and dispatched where it completes a frame (R195, 43_control.md R267). -/
def Sync.present (timeout : Nat) (b : Byte) (t : Word) (y : Sync) : Sync × List (List Byte) :=
  let r := y.byte timeout b t
  match r.2 with
  | none => (r.1, [])
  | some f => Sync.dispatch f r.1

/-- RX entries presented in order, the synchronizer reset before each GAP-tagged one (43_control.md R267). -/
def Sync.drain (timeout : Nat) (t : Word) : List RxEntry → Sync → Sync × List (List Byte)
  | [], y => (y, [])
  | e :: es, y =>
    let r := Sync.present timeout e.byte t (if e.gap then y.reset else y)
    let rest := Sync.drain timeout t es r.1
    (rest.1, r.2 ++ rest.2)

/-- A byte that no drop went before. -/
def RxEntry.plain (b : Byte) : RxEntry := { byte := b, gap := false }

/-- Payload bytes presented in order (R195). -/
def Sync.feed (timeout : Nat) (t : Word) (p : List Byte) (y : Sync) : Sync × List (List Byte) :=
  Sync.drain timeout t (p.map RxEntry.plain) y

/-! ## Filter (44_filter.md R290-R292) -/

/-- match(i, E) (R290) for a slot. -/
def Slot.holds (E : List Byte) (x : Slot) : Bool :=
  x.valid && x.len.toNat == E.length && x.epc.take E.length == E

/-- filter_clear() (R291). -/
def TagFilter.clear (f : TagFilter) : TagFilter :=
  { f with entry := f.entry.map fun x => { x with valid := false }, next := 0, count := 0 }

/-- The lowest index below cap whose slot holds E (R292). -/
def TagFilter.lookup (E : List Byte) (f : TagFilter) : Option Nat := (f.entry.take f.cap).findIdx? (Slot.holds E)

/-- A slot refilled with E at time t; the bytes of epc above E stay and are never read (R52, log 13). -/
def Slot.fill (E : List Byte) (t : Word) (x : Slot) : Slot :=
  { valid := true, len := BitVec.ofNat 8 E.length, epc := E ++ x.epc.drop E.length, ts := t }

/-- FLT.CHECK's insertion at the next circular slot (R292). -/
def TagFilter.insert (E : List Byte) (t : Word) (f : TagFilter) : TagFilter :=
  { f with
    entry := f.entry.modify f.next (Slot.fill E t)
    next := (f.next + 1) % f.cap
    count := min (f.count + 1) f.cap
    tagacc := f.tagacc + 1#32 }

/-- FLT.CHECK's refresh of slot i's time stamp (R292). -/
def TagFilter.refresh (i : Nat) (t : Word) (f : TagFilter) : TagFilter :=
  { f with entry := f.entry.modify i (fun x => { x with ts := t }), tagacc := f.tagacc + 1#32 }

/-- lastSeen of slot i. -/
def TagFilter.tsAt (i : Nat) (f : TagFilter) : Word := ((f.entry[i]?).map Slot.ts).getD 0#32

/-- FLT.CHECK's verdict on E at time t, and the filter after it (R292, R294). -/
def TagFilter.check (E : List Byte) (t : Word) (f : TagFilter) : TagFilter × Bool :=
  match f.lookup E with
  | some i =>
    if (t - f.tsAt i).toNat < f.win.toNat then ({ f with tagsup := f.tagsup + 1#32 }, false)
    else (f.refresh i t, true)
  | none => (f.insert E t, true)

/-! ## Results (30_encoding.md R124, 60_exceptions.md R320) -/

/-- result(OK, value): data, tags and frames empty. -/
def Reply.ok (value : Word) : Reply := { code := .ok, value := value, data := [], tags := [], frames := [] }

/-- result(code): every other field 0 or empty. -/
def Reply.error (code : Code) : Reply := { code := code, value := 0#32, data := [], tags := [], frames := [] }

/-- A length as a result's value. -/
def natValue (n : Nat) : Word := BitVec.ofNat 32 n

/-- The command returns its result, and the command index advances by one (10_state.md R31). -/
def State.returns (s : State) (r : Reply) : State := { s with reply := some r, cmdIndex := s.cmdIndex + 1 }

/-- A command's atomic step (R119, R325): none while FAULTED, else its effect and its result. -/
def asCommand (s : State) (effect : State × Reply) : Host.Outcome State Fault Refusal :=
  if s.fault.isSome then .fault .faulted else .next (effect.1.returns effect.2)

/-! ## The fault, and RESET (60_exceptions.md R324, 70_reset_and_hazards.md R350) -/

/-- raise Fault(reason) (R324): the FAULTED condition is entered and nothing else changes. -/
def State.enterFaulted (reason : FaultReason) (s : State) : State := { s with fault := some reason }

/-- raise Fault(reason) by a command, whose result is HazardFault (R324). -/
def raiseFault (reason : FaultReason) (s : State) : State × Reply := (s.enterFaulted reason, Reply.error .hazardFault)

/-- RESET of one channel (R350): its enables and counters 0, its queues flushed; the bytes already sent stay. -/
def Channel.reset (c : Channel) : Channel :=
  { c.pause.flushBoth with fwd := 0#32, ovr := 0#32, txerr := 0#32 }

/-- RESET (R350), the one way out of FAULTED. The unspecified storage, the bytes already sent and the result already
returned stay as they are. -/
def resetBlock (s : State) : State :=
  { s with
    mode := .idle
    ch0 := s.ch0.reset
    ch1 := s.ch1.reset
    crc := 0xFFFF#16
    sync := { s.sync.reset with last := 0#32, frames := 0#32, crcerr := 0#32 }
    flt := { s.flt.clear with cap := fltCapReset, win := s.params.fltWindowReset, tagacc := 0#32, tagsup := 0#32 }
    fault := none
    cmdIndex := 0 }

end Sys2Proof.Machine
end

