-- ==== Sys2Proof/Machine/Flags.lean ====
section
/-! DEFINITION. The status a program can observe (10_state.md R45): the block has no flags or condition codes. The
words of the status registers, built from the fields their rules name, and the result codes as numbers (R320). -/

namespace Sys2Proof.Machine

/-- A Boolean as a one-bit field at bit k of a register. -/
def bitAt (k : Nat) (b : Bool) : Word := if b then 1#32 <<< k else 0#32

/-- RouterMode's value in MODE (R33). -/
def modeBits : Mode → BitVec 2
  | .idle => 0#2
  | .bypass => 1#2
  | .inventory => 2#2

/-- MODE, bits [1:0] (R33). -/
def modeWord (m : Mode) : Word := (modeBits m).setWidth 32

/-- RouterMode of MODE.SET's operand; the value 3 is reserved (R33, R128). -/
def modeOfBits (m : BitVec 2) : Option Mode :=
  if m = 0#2 then some .idle else if m = 1#2 then some .bypass else if m = 2#2 then some .inventory else none

/-- IRQEN: bit 0 RXIE0, bit 1 TXIE0, bit 2 RXIE1, bit 3 TXIE1 (R34). -/
def irqenWord (s : State) : Word :=
  bitAt 0 s.ch0.rxie ||| bitAt 1 s.ch0.txie ||| bitAt 2 s.ch1.rxie ||| bitAt 3 s.ch1.txie

/-- SYNCST: bit 0 state, bits [15:8] expected, bits [23:16] received (R36). -/
def syncstWord (y : Sync) : Word :=
  bitAt 0 (y.state == .waitBody) ||| (y.expected.setWidth 32 <<< 8) ||| (y.received.setWidth 32 <<< 16)

/-- QSTATq: bits [15:0] count, bit 16 gap_pending, which is 0 for a TX queue (R41). -/
def qstatWord (count : Nat) (gap : Bool) : Word := (BitVec.ofNat 16 count).setWidth 32 ||| bitAt 16 gap

/-- QCAPq: bits [15:0] RB_CAP[q] (R42). -/
def qcapWord (cap : Nat) : Word := (BitVec.ofNat 16 cap).setWidth 32

/-- FLTCAP and FLTCNT: bits [7:0] (R39, R40). -/
def sizeWord (n : Nat) : Word := (BitVec.ofNat 8 n).setWidth 32

/-- A result code's number (R320). -/
def codeByte : Code → Byte
  | .ok => 0x00#8
  | .invalidParam => 0x01#8
  | .bufferOverflow => 0x02#8
  | .wrongMode => 0x03#8
  | .illegalCommand => 0x04#8
  | .hazardFault => 0xFF#8

end Sys2Proof.Machine
end

