-- ==== Sys2Proof/Machine/Operands.lean ====
section
/-! DEFINITION. What the operands of a command name (30_encoding.md R126): a queue's channel and side, the control
register of an index (10_state.md R32), and the control register file's one read and one write. -/

namespace Sys2Proof.Machine

/-! ## Queues -/

/-- ch(q) = q[1]: the channel of a queue (R126). -/
def queueChan : QueueSel → Chan
  | .rx0 => .ch0
  | .tx0 => .ch0
  | .rx1 => .ch1
  | .tx1 => .ch1

/-- q[0] = 0: the queue is an RX queue (R126). -/
def queueIsRx : QueueSel → Bool
  | .rx0 => true
  | .tx0 => false
  | .rx1 => true
  | .tx1 => false

/-- The interrupt-side agent of a queue is enabled: RXIEn for RX(n), TXIEn for TX(n) (42_fifo.md R231). -/
def queueLive (s : State) (q : QueueSel) : Bool :=
  if queueIsRx q then (s.chan (queueChan q)).rxie else (s.chan (queueChan q)).txie

/-- flush(q) (R222). -/
def flushQueue (s : State) (q : QueueSel) : State :=
  let c := s.chan (queueChan q)
  if queueIsRx q then s.setChan (queueChan q) { c with rx := c.rx.flush }
  else s.setChan (queueChan q) { c with tx := c.tx.flush }

/-! ## Control registers (R32) -/

/-- The control registers by name (R32). -/
inductive Reg where
  | mode
  | irqen
  | crc
  | syncst
  | synclast
  | fltwin
  | fltcap
  | fltcnt
  | qstat (q : QueueSel)
  | qcap (q : QueueSel)
  | fwd (n : Chan)
  | frames
  | crcerr
  | ovr (n : Chan)
  | txerr (n : Chan)
  | tagacc
  | tagsup
  deriving DecidableEq, Repr

/-- The register map, in index order from 0x00 to 0x19 (R32). -/
def regMap : List Reg :=
  [.mode, .irqen, .crc, .syncst, .synclast, .fltwin, .fltcap, .fltcnt,
   .qstat .rx0, .qstat .tx0, .qstat .rx1, .qstat .tx1, .qcap .rx0, .qcap .tx0, .qcap .rx1, .qcap .tx1,
   .fwd .ch0, .fwd .ch1, .frames, .crcerr, .ovr .ch0, .ovr .ch1, .txerr .ch0, .txerr .ch1, .tagacc, .tagsup]

/-- The register of an index; none for the reserved 0x1A to 0xFF (R44). -/
def regOfIndex (r : Byte) : Option Reg := regMap[r.toNat]?

/-- QSTATq of a queue of the state (R41). -/
def readQstat (s : State) (q : QueueSel) : Word :=
  let c := s.chan (queueChan q)
  if queueIsRx q then qstatWord c.rx.ring.count c.rx.gapPending else qstatWord c.tx.ring.count false

/-- RB_CAP[q] (R7). -/
def queueCap (p : Params) (q : QueueSel) : Nat :=
  if queueIsRx q then rxCap p (queueChan q) else txCap p (queueChan q)

/-- reg[r] (R32-R43). -/
def readReg (s : State) : Reg → Word
  | .mode => modeWord s.mode
  | .irqen => irqenWord s
  | .crc => s.crc.setWidth 32
  | .syncst => syncstWord s.sync
  | .synclast => s.sync.last
  | .fltwin => s.flt.win
  | .fltcap => sizeWord s.flt.cap
  | .fltcnt => sizeWord s.flt.count
  | .qstat q => readQstat s q
  | .qcap q => qcapWord (queueCap s.params q)
  | .fwd n => (s.chan n).fwd
  | .frames => s.sync.frames
  | .crcerr => s.sync.crcerr
  | .ovr n => (s.chan n).ovr
  | .txerr n => (s.chan n).txerr
  | .tagacc => s.flt.tagacc
  | .tagsup => s.flt.tagsup

/-- IRQEN written with v, whose bits [31:4] are 0 (43_control.md R269). -/
def writeIrqen (s : State) (v : Word) : State :=
  { s with
    ch0 := { s.ch0 with rxie := v.getLsbD 0, txie := v.getLsbD 1 }
    ch1 := { s.ch1 with rxie := v.getLsbD 2, txie := v.getLsbD 3 } }

/-- reg[r] <- v where R269 allows the write, none where it answers InvalidParam: a read-only register, a reserved bit
set, or an illegal capacity (R32, R39, R269). -/
def writeReg (s : State) (v : Word) : Reg → Option State
  | .irqen => if v >>> 4 = 0#32 then some (writeIrqen s v) else none
  | .fltwin => some { s with flt := { s.flt with win := v } }
  | .fltcap =>
    if v.toNat < 1 ∨ s.params.fltMaxCap < v.toNat ∨ v >>> 8 ≠ 0#32 then none
    else some { s with flt := TagFilter.clear { s.flt with cap := v.toNat } }
  | .mode => none
  | .crc => none
  | .syncst => none
  | .synclast => none
  | .fltcnt => none
  | .qstat _ => none
  | .qcap _ => none
  | .fwd _ => none
  | .frames => none
  | .crcerr => none
  | .ovr _ => none
  | .txerr _ => none
  | .tagacc => none
  | .tagsup => none

/-! ## Channels a mode drives (43_control.md R261) -/

/-- n ∈ chans(m). -/
def drives : Mode → Chan → Bool
  | .idle, _ => false
  | .bypass, _ => true
  | .inventory, .ch0 => true
  | .inventory, .ch1 => false

/-- n is in MODE.SET's affected set chans(old) ∪ chans(new) (R262). -/
def affected (old new : Mode) (n : Chan) : Bool := drives old n || drives new n

/-- f done on every affected channel (R262's `for n in A`). -/
def onAffected (old new : Mode) (f : Channel → Channel) (s : State) : State :=
  { s with
    ch0 := if affected old new .ch0 then f s.ch0 else s.ch0
    ch1 := if affected old new .ch1 then f s.ch1 else s.ch1 }

end Sys2Proof.Machine
end

