-- ==== Sys2Proof/Machine/Agents.lean ====
section
/-! DEFINITION. The steps of the agents that are not the host: URXn (42_fifo.md R226), UTXn (R227, R228) and RESET
(70_reset_and_hazards.md R350). An agent whose step is not enabled has none: the byte or the event stays outside the
block and nothing changes (R324, R361, U19; log 5). -/

namespace Sys2Proof.Machine

/-- URXn(b)'s effect on channel n, cap being RB_CAP[RX(n)] (R226): stored with the GAP tag due, or dropped and counted. -/
def Channel.receive (cap : Nat) (b : Byte) (c : Channel) : Channel :=
  if c.rx.ring.count = cap then { c with ovr := c.ovr + 1#32, rx := { c.rx with gapPending := true } }
  else { c with rx := { ring := c.rx.ring.push cap { byte := b, gap := c.rx.gapPending }, gapPending := false } }

/-- URXn(b), enabled while RXIEn = 1 and `faulted` = 0 (R226). -/
def urxStep (n : Chan) (b : Byte) (s : State) : Host.Outcome State Fault Refusal :=
  if s.fault.isSome || !(s.chan n).rxie then .next s
  else .next (s.setChan n ((s.chan n).receive (rxCap s.params n) b))

/-- UTXn(k, j)'s effect on channel n, cap being RB_CAP[TX(n)] (R227, R228); none for a commit past the claim (R224). -/
def Channel.transmit (cap k j : Nat) (c : Channel) : Option Channel :=
  let claimed := c.tx.claim cap k
  (claimed.2.commit cap j).map fun q =>
    { c with tx := q, wire := c.wire ++ claimed.1.take j, txie := c.txie && !(q.ring.count == 0) }

/-- UTXn(k, j), enabled while TXIEn = 1 and `faulted` = 0, for k ≥ 1 (R227). A commit past the claim enters the FAULTED
condition and changes nothing else (R224, U3, R324; log 8). -/
def utxStep (n : Chan) (k j : Nat) (s : State) : Host.Outcome State Fault Refusal :=
  if s.fault.isSome || !(s.chan n).txie then .next s
  else if k = 0 then .refused .notAnEvent
  else match (s.chan n).transmit (txCap s.params n) k j with
    | none => .next (s.enterFaulted .commitBeyondClaim)
    | some c => .next (s.setChan n c)

/-- RESET, always enabled (R350). -/
def resetStep (s : State) : Host.Outcome State Fault Refusal := .next (resetBlock s)

end Sys2Proof.Machine
end

