-- ==== Sys2Proof/Machine/Sync.lean ====
section
/-! DEFINITION. The frame synchronizer's commands (41_sync.md R195, R196). -/

namespace Sys2Proof.Machine

/-- The synchronizer after a feed or a drain, and the frames it dispatched as the command's result (R195, R267). -/
def returnFrames (s : State) (r : Sync × List (List Byte)) : State × Reply :=
  ({ s with sync := r.1 }, { Reply.ok (natValue r.2.length) with frames := r.2 })

/-- SYNC.FEED [p] (R195): every byte carries the command's one time sample; WrongMode in Inventory. -/
def execSyncFeed (p : List Byte) (s : State) : Host.Outcome State Fault Refusal :=
  asCommand s
    (if s.mode = .inventory then (s, Reply.error .wrongMode)
     else returnFrames s (s.sync.feed s.params.syncTimeout s.now p))

/-- SYNC.RESET (R196). -/
def execSyncReset (s : State) : Host.Outcome State Fault Refusal :=
  asCommand s ({ s with sync := s.sync.reset }, Reply.ok 0#32)

end Sys2Proof.Machine
end

