-- ==== Sys2Proof/Machine/Control.lean ====
section
/-! DEFINITION. The control unit's commands (43_control.md R260-R269). -/

namespace Sys2Proof.Machine

/-- NOP (R260). -/
def execNop (s : State) : Host.Outcome State Fault Refusal := asCommand s (s, Reply.ok 0#32)

/-- MODE.SET's bracket from the mode held to m: pause, reset, resume receive (R262). -/
def setMode (m : Mode) (s : State) : State :=
  let old := s.mode
  let paused := onAffected old m Channel.pause s
  let flushed := onAffected old m Channel.flushBoth paused
  let synced :=
    if old = .inventory ∨ m = .inventory then { flushed with sync := flushed.sync.reset } else flushed
  let cleared := if m = .inventory then { synced with flt := synced.flt.clear } else synced
  onAffected old m Channel.resume { cleared with mode := m }

/-- MODE.SET m (R262): the value is the old mode; InvalidParam for m = 3. -/
def execModeSet (m : BitVec 2) (s : State) : Host.Outcome State Fault Refusal :=
  asCommand s
    (match modeOfBits m with
     | none => (s, Reply.error .invalidParam)
     | some new => (setMode new s, Reply.ok (modeWord s.mode)))

/-- One direction of PROCESS in Bypass (R266): min(count(RX(src)), free(TX(dst))) bytes moved, GAP tags dropped. -/
def forward (src dst : Chan) (s : State) : State × Nat :=
  let c := s.chan src
  let k := min c.rx.ring.count ((s.chan dst).tx.ring.free (txCap s.params dst))
  let r := c.rx.ring.popMany (rxCap s.params src) k
  let s1 := s.setChan src { c with rx := { c.rx with ring := r.2 }, fwd := c.fwd + natValue k }
  let d := s1.chan dst
  (s1.setChan dst
    { d with
      tx := { d.tx with ring := d.tx.ring.pushMany (txCap s.params dst) (r.1.map RxEntry.byte) }
      txie := d.txie || decide (0 < k) },
   k)

/-- PROCESS in Bypass (R266): channel 0 to 1, then 1 to 0; the value is the number of bytes moved. -/
def processBypass (s : State) : State × Reply :=
  let a := forward .ch0 .ch1 s
  let b := forward .ch1 .ch0 a.1
  (b.1, Reply.ok (natValue (a.2 + b.2)))

/-- PROCESS in Inventory (R267): every entry of RX0 drained through the synchronizer. -/
def processInventory (s : State) : State × Reply :=
  let r := s.ch0.rx.ring.popMany (rxCap s.params .ch0) s.ch0.rx.ring.count
  returnFrames { s with ch0 := { s.ch0 with rx := { s.ch0.rx with ring := r.2 } } }
    (s.sync.drain s.params.syncTimeout s.now r.1)

/-- PROCESS (R264): by mode; in Idle it changes nothing (R265). -/
def execProcess (s : State) : Host.Outcome State Fault Refusal :=
  asCommand s
    (match s.mode with
     | .idle => (s, Reply.ok 0#32)
     | .bypass => processBypass s
     | .inventory => processInventory s)

/-- REG.READ r (R268): InvalidParam with value 0 for a reserved index. -/
def execRegRead (r : Byte) (s : State) : Host.Outcome State Fault Refusal :=
  asCommand s
    (s, match regOfIndex r with
        | none => Reply.error .invalidParam
        | some g => Reply.ok (readReg s g))

/-- REG.WRITE r, v (R269): InvalidParam, and nothing written, for a read-only or reserved index or an illegal value. -/
def execRegWrite (r : Byte) (v : Word) (s : State) : Host.Outcome State Fault Refusal :=
  asCommand s
    (match (regOfIndex r).bind (writeReg s v) with
     | none => (s, Reply.error .invalidParam)
     | some t => (t, Reply.ok 0#32))

end Sys2Proof.Machine
end

