-- ==== Sys2Proof/Machine/Crc.lean ====
section
/-! DEFINITION. The CRC unit's commands (40_crc.md R163-R168). -/

namespace Sys2Proof.Machine

/-- The CRC register takes c, and the result's value shows it (R163-R165). -/
def writeCrc (s : State) (c : Half) : State × Reply := ({ s with crc := c }, Reply.ok (c.setWidth 32))

/-- CRC.INIT (R163). -/
def execCrcInit (s : State) : Host.Outcome State Fault Refusal := asCommand s (writeCrc s 0xFFFF#16)

/-- CRC.BYTE b (R164). -/
def execCrcByte (b : Byte) (s : State) : Host.Outcome State Fault Refusal := asCommand s (writeCrc s (crcStep s.crc b))

/-- CRC.UPDATE [p] (R165). -/
def execCrcUpdate (p : List Byte) (s : State) : Host.Outcome State Fault Refusal :=
  asCommand s (writeCrc s (crcFold s.crc p))

/-- CRC.COMPUTE [p] (R166): pure. -/
def execCrcCompute (p : List Byte) (s : State) : Host.Outcome State Fault Refusal :=
  asCommand s (s, Reply.ok ((crcOf p).setWidth 32))

/-- CRC.VERIFY [p] (R167): pure; a failing check is value 0 with code OK. -/
def execCrcVerify (p : List Byte) (s : State) : Host.Outcome State Fault Refusal :=
  asCommand s (s, Reply.ok (if crcVerify p then 1#32 else 0#32))

/-- CRC.SEAL [p] (R168): the sealed frame in data, or InvalidParam where p has not 2 to 252 bytes. -/
def execCrcSeal (p : List Byte) (s : State) : Host.Outcome State Fault Refusal :=
  asCommand s
    (s, if p.length < 2 ∨ maxFrame < p.length + 3 then Reply.error .invalidParam
        else { Reply.ok (natValue (p.length + 3)) with data := sealFrame p })

end Sys2Proof.Machine
end

