-- ==== Sys2Proof/Machine/Fifo.lean ====
section
/-! DEFINITION. The FIFO unit's commands (42_fifo.md R229-R231). -/

namespace Sys2Proof.Machine

/-- FIFO.PUT's store of the n bytes p, which fit, into TX(ch): TXIEch is set where n > 0 (R229, R228). -/
def putBytes (ch : Chan) (p : List Byte) (s : State) : State :=
  let c := s.chan ch
  s.setChan ch
    { c with
      tx := { c.tx with ring := c.tx.ring.pushMany (txCap s.params ch) p }
      txie := c.txie || decide (0 < p.length) }

/-- FIFO.PUT ch, [p] (R229): WrongMode in Bypass; all of p or, counted in TXERRch, none of it. -/
def execFifoPut (ch : Chan) (p : List Byte) (s : State) : Host.Outcome State Fault Refusal :=
  let c := s.chan ch
  let room := c.tx.ring.free (txCap s.params ch)
  asCommand s
    (if s.mode = .bypass then (s, Reply.error .wrongMode)
     else if room < p.length then
       (s.setChan ch { c with txerr := c.txerr + 1#32 }, { Reply.error .bufferOverflow with value := natValue room })
     else (putBytes ch p s, Reply.ok (natValue p.length)))

/-- RX(ch) belongs to PROCESS: both channels in Bypass, channel 0 in Inventory (R230, R232). -/
def rxOwnedByProcess (m : Mode) (ch : Chan) : Bool := m == .bypass || (m == .inventory && ch == .ch0)

/-- FIFO.GET's k entries out of RX(ch), with their GAP tags (R230). -/
def getEntries (ch : Chan) (k : Nat) (s : State) : State × Reply :=
  let c := s.chan ch
  let r := c.rx.ring.popMany (rxCap s.params ch) k
  (s.setChan ch { c with rx := { c.rx with ring := r.2 } },
   { Reply.ok (natValue k) with data := r.1.map RxEntry.byte, tags := r.1.map RxEntry.gap })

/-- FIFO.GET ch, n (R230): the oldest min(n, count) entries; WrongMode where PROCESS owns RX(ch). -/
def execFifoGet (ch : Chan) (n : Half) (s : State) : Host.Outcome State Fault Refusal :=
  asCommand s
    (if rxOwnedByProcess s.mode ch then (s, Reply.error .wrongMode)
     else getEntries ch (min n.toNat (s.chan ch).rx.ring.count) s)

/-- FIFO.FLUSH q (R231): the queue emptied, or the fault where its interrupt-side agent is live. -/
def execFifoFlush (q : QueueSel) (s : State) : Host.Outcome State Fault Refusal :=
  asCommand s (if queueLive s q then raiseFault .hazardFlushLive s else (flushQueue s q, Reply.ok 0#32))

end Sys2Proof.Machine
end

