-- ==== Sys2Proof/Machine/Filter.lean ====
section
/-! DEFINITION. The EPC duplicate filter's commands (44_filter.md R292, R293). -/

namespace Sys2Proof.Machine

/-- FLT.CHECK [E] (R292): value 1 accepts, value 0 rejects; InvalidParam for an EPC of no byte or over EPC_MAX. -/
def execFltCheck (p : List Byte) (s : State) : Host.Outcome State Fault Refusal :=
  let r := s.flt.check p s.now
  asCommand s
    (if p.length = 0 ∨ s.params.epcMax < p.length then (s, Reply.error .invalidParam)
     else ({ s with flt := r.1 }, Reply.ok (if r.2 then 1#32 else 0#32)))

/-- FLT.CLEAR (R293). -/
def execFltClear (s : State) : Host.Outcome State Fault Refusal :=
  asCommand s ({ s with flt := s.flt.clear }, Reply.ok 0#32)

end Sys2Proof.Machine
end

