-- ==== Sys2Proof/Machine/Dispatch.lean ====
section
/-! DEFINITION. The meaning of every command: one arm per constructor of Instr, in the order of
spec/opcode_table.json. -/

namespace Sys2Proof.Machine

def exec (i : Instr) (s : State) : Host.Outcome State Fault Refusal :=
  match i with
  | .nop => Sys2Proof.Machine.execNop s
  | .crcInit => Sys2Proof.Machine.execCrcInit s
  | .crcByte b => Sys2Proof.Machine.execCrcByte b s
  | .crcUpdate p => Sys2Proof.Machine.execCrcUpdate p s
  | .crcCompute p => Sys2Proof.Machine.execCrcCompute p s
  | .crcVerify p => Sys2Proof.Machine.execCrcVerify p s
  | .crcSeal p => Sys2Proof.Machine.execCrcSeal p s
  | .fifoPut ch p => Sys2Proof.Machine.execFifoPut ch p s
  | .fifoGet ch n => Sys2Proof.Machine.execFifoGet ch n s
  | .fifoFlush q => Sys2Proof.Machine.execFifoFlush q s
  | .syncFeed p => Sys2Proof.Machine.execSyncFeed p s
  | .syncReset => Sys2Proof.Machine.execSyncReset s
  | .fltCheck p => Sys2Proof.Machine.execFltCheck p s
  | .fltClear => Sys2Proof.Machine.execFltClear s
  | .modeSet m => Sys2Proof.Machine.execModeSet m s
  | .process => Sys2Proof.Machine.execProcess s
  | .regRead r => Sys2Proof.Machine.execRegRead r s
  | .regWrite r v => Sys2Proof.Machine.execRegWrite r v s

end Sys2Proof.Machine
end

