-- ==== Sys2Proof/Machine/Port.lean ====
section
/-! DEFINITION. The host command port (30_encoding.md R119-R127) and how one offer of the environment becomes one step
of the block (60_exceptions.md R326, R329). -/

namespace Sys2Proof.Machine

/-- The answer to an illegal word: IllegalCommand, and no state changes (R127). -/
def illegalStep (s : State) : Host.Outcome State Fault Refusal := asCommand s (s, Reply.error .illegalCommand)

/-- A host command offered at time t (R119, R120). In the FAULTED condition the block does not take it (R324, log 5). -/
def hostStep (bytes : List Byte) (t : Word) (s : State) : Host.Outcome State Fault Refusal :=
  if s.fault.isSome then .next s
  else match decode bytes with
    | .instr i => exec i { s with now := t }
    | .illegal _ => illegalStep { s with now := t }
    | .notCommand _ => .refused .notACommand

/-- The step an offer of the environment asks for (R329). -/
def offered (o : Input) (s : State) : Host.Outcome State Fault Refusal :=
  match o with
  | .command bytes t => hostStep bytes t s
  | .urx n b => urxStep n b s
  | .utx n k j => utxStep n k j s
  | .reset => resetStep s

/-- The next offer taken; with none the block waits, unchanged (R335, log 6). -/
def takeOffer (s : State) : Host.Outcome State Fault Refusal :=
  match s.inputs with
  | [] => .next s
  | o :: rest => offered o { s with inputs := rest }

/-- The command of a table word put first among the offers, with the time sample the state holds (log 17). -/
def offerTableWord (s : State) (nbits w : Nat) : State :=
  { s with inputs := .command (tableBytes nbits w) s.now :: s.inputs }

end Sys2Proof.Machine
end

