-- ==== Sys2Proof/Machine/Step.lean ====
section
/-! DEFINITION. One step of the block: the environment's next offer taken (20_memory.md R89). -/

namespace Sys2Proof.Machine

/-- One atomic transition (R85, R89). -/
def step (s : State) : Host.Outcome State Fault Refusal := takeOffer s

/-- The state in which the very next step runs the command of a table word (log 17). -/
def State.withFetchWord (s : State) (nbits w : Nat) : State := offerTableWord s nbits w

end Sys2Proof.Machine
end

