-- ==== Sys2Proof/Machine/Assembly.lean ====
section
/-! DEFINITION. The assembler syntax of 30_encoding.md R129, written out from a command. It names commands for a reader;
no step depends on it. -/

namespace Sys2Proof.Machine

/-- A hexadecimal digit. -/
def hexDigit (n : Nat) : Char := (['0', '1', '2', '3', '4', '5', '6', '7', '8', '9', 'A', 'B', 'C', 'D', 'E', 'F'][n]?).getD '0'

/-- A byte as a hexadecimal pair (R8). -/
def hexPair (b : Byte) : String := String.ofList [hexDigit (b.toNat / 16), hexDigit (b.toNat % 16)]

/-- Hexadecimal pairs separated by spaces. -/
def hexPairs : List Byte → String
  | [] => ""
  | [b] => hexPair b
  | b :: bs => hexPair b ++ " " ++ hexPairs bs

/-- A payload in brackets (R129). -/
def showBytes (p : List Byte) : String := "[" ++ hexPairs p ++ "]"

/-- A word as 0x and eight digits. -/
def showWord (v : Word) : String :=
  "0x" ++ hexPair (v.extractLsb' 24 8) ++ hexPair (v.extractLsb' 16 8) ++ hexPair (v.extractLsb' 8 8) ++
    hexPair (v.extractLsb' 0 8)

/-- A channel's number. -/
def showChan : Chan → String
  | .ch0 => "0"
  | .ch1 => "1"

/-- A queue's name (R129). -/
def showQueue : QueueSel → String
  | .rx0 => "RX0"
  | .tx0 => "TX0"
  | .rx1 => "RX1"
  | .tx1 => "TX1"

/-- A queue's number (R46). -/
def showQueueNumber : QueueSel → String
  | .rx0 => "0"
  | .tx0 => "1"
  | .rx1 => "2"
  | .tx1 => "3"

/-- A register's name (10_state.md R32). -/
def showReg : Reg → String
  | .mode => "MODE"
  | .irqen => "IRQEN"
  | .crc => "CRC"
  | .syncst => "SYNCST"
  | .synclast => "SYNCLAST"
  | .fltwin => "FLTWIN"
  | .fltcap => "FLTCAP"
  | .fltcnt => "FLTCNT"
  | .qstat q => "QSTAT" ++ showQueueNumber q
  | .qcap q => "QCAP" ++ showQueueNumber q
  | .fwd n => "FWD" ++ showChan n
  | .frames => "FRAMES"
  | .crcerr => "CRCERR"
  | .ovr n => "OVR" ++ showChan n
  | .txerr n => "TXERR" ++ showChan n
  | .tagacc => "TAGACC"
  | .tagsup => "TAGSUP"

/-- A register index as an operand: its name, or the index where it is reserved (R129). -/
def showIndex (r : Byte) : String :=
  match regOfIndex r with
  | some g => showReg g
  | none => "0x" ++ hexPair r

/-- A mode's name (R129). -/
def showMode : Mode → String
  | .idle => "IDLE"
  | .bypass => "BYPASS"
  | .inventory => "INVENTORY"

/-- A command in assembler syntax (R129); none for MODE.SET with m = 3, for which R129 has no spelling. -/
def assembly : Instr → Option String
  | .nop => some "NOP"
  | .crcInit => some "CRC.INIT"
  | .crcByte b => some ("CRC.BYTE 0x" ++ hexPair b)
  | .crcUpdate p => some ("CRC.UPDATE " ++ showBytes p)
  | .crcCompute p => some ("CRC.COMPUTE " ++ showBytes p)
  | .crcVerify p => some ("CRC.VERIFY " ++ showBytes p)
  | .crcSeal p => some ("CRC.SEAL " ++ showBytes p)
  | .fifoPut ch p => some ("FIFO.PUT " ++ showChan ch ++ ", " ++ showBytes p)
  | .fifoGet ch n => some ("FIFO.GET " ++ showChan ch ++ ", " ++ toString n.toNat)
  | .fifoFlush q => some ("FIFO.FLUSH " ++ showQueue q)
  | .syncFeed p => some ("SYNC.FEED " ++ showBytes p)
  | .syncReset => some "SYNC.RESET"
  | .fltCheck p => some ("FLT.CHECK " ++ showBytes p)
  | .fltClear => some "FLT.CLEAR"
  | .modeSet m => (modeOfBits m).map fun x => "MODE.SET " ++ showMode x
  | .process => some "PROCESS"
  | .regRead r => some ("REG.READ " ++ showIndex r)
  | .regWrite r v => some ("REG.WRITE " ++ showIndex r ++ ", " ++ showWord v)

/-- A command with its time sample, `@t` in milliseconds (R129). -/
def assemblyAt (i : Instr) (t : Word) : Option String := (assembly i).map fun a => a ++ " @" ++ toString t.toNat

end Sys2Proof.Machine
end

