-- ==== Sys2Proof/Machine/Frames.lean ====
section
/-! DEFINITION. The wire frames of 30_encoding.md Part A (R110-R113, R117) and the reader's command codes (R114). The
block carries Adr, Cmd, reCmd, Status and Data as ordinary bytes and interprets none of them: no step depends on this
file but through crcVerify and Len. -/

namespace Sys2Proof.Machine

/-- A request's fields after Len and before the CRC (R110). -/
structure Request where
  adr : Byte
  cmd : Byte
  data : List Byte
  deriving DecidableEq, Repr

/-- A response's fields after Len and before the CRC (R111). -/
structure Response where
  adr : Byte
  reCmd : Byte
  status : Byte
  data : List Byte
  deriving DecidableEq, Repr

/-- `Adr | Cmd | Data[]`, CRC.SEAL's payload for a request (R168). -/
def Request.body (r : Request) : List Byte := r.adr :: r.cmd :: r.data

/-- `Adr | reCmd | Status | Data[]`, CRC.SEAL's payload for a response (R168). -/
def Response.body (r : Response) : List Byte := r.adr :: r.reCmd :: r.status :: r.data

/-- A request frame on the wire (R110, R113). -/
def Request.frame (r : Request) : List Byte := sealFrame r.body

/-- A response frame on the wire (R111, R113). -/
def Response.frame (r : Response) : List Byte := sealFrame r.body

/-- The fields of a response frame by position (R117): Adr, reCmd, Status and Data = f[4 .. n-2). -/
def responseOfFrame (f : List Byte) : Response :=
  { adr := f.getD 1 0#8, reCmd := f.getD 2 0#8, status := f.getD 3 0#8, data := (f.drop 4).take (f.length - 6) }

/-- The smallest response, Len ≥ 5 (R111). -/
def responseMinLen : Nat := 5

/-- A frame the block may dispatch (R112, R113): 1 ≤ Len ≤ 254, Len + 1 bytes in all, and its CRC matches. -/
def frameLegal (f : List Byte) : Bool :=
  decide (1 ≤ (f.getD 0 0#8).toNat) && decide ((f.getD 0 0#8).toNat ≤ 254) &&
    decide (f.length = (f.getD 0 0#8).toNat + 1) && crcVerify f

/-- The reader's commands the source models (R114). -/
inductive ReaderCommand where
  | startInventory
  | stopInventory
  | singleInventory
  | readerInfo
  | immediateStop
  | readMemory
  | writeMemory
  | setPower
  | select
  deriving DecidableEq, Repr

/-- Their Cmd codes (R114). -/
def ReaderCommand.code : ReaderCommand → Byte
  | .startInventory => 0x50#8
  | .stopInventory => 0x51#8
  | .singleInventory => 0x01#8
  | .readerInfo => 0x21#8
  | .immediateStop => 0x93#8
  | .readMemory => 0x02#8
  | .writeMemory => 0x03#8
  | .setPower => 0x2F#8
  | .select => 0x9A#8

/-- The start-continuous-inventory request with address 0 and target A (R115). -/
def startInventoryRequest : Request := { adr := 0x00#8, cmd := ReaderCommand.startInventory.code, data := [0x00#8] }

end Sys2Proof.Machine
end

