-- ==== Sys2Proof/Machine/Pseudo.lean ====
section
/-! DEFINITION. The pseudo-commands of 30_encoding.md R130 as the commands they expand to. Passing a result from one
command to the next is the host's job, so a later command is a function of an earlier one's result. -/

namespace Sys2Proof.Machine

/-- SEND ch, [p], first command: CRC.SEAL [p]. -/
def sendFirst (p : List Byte) : Instr := .crcSeal p

/-- SEND ch, [p], second command, from the first one's result: FIFO.PUT ch, [result.data], only if its code is OK. -/
def sendSecond (ch : Chan) (r : Reply) : Option Instr := if r.code = .ok then some (.fifoPut ch r.data) else none

/-- PAUSE and RESUME, first command: REG.READ IRQEN. -/
def irqenFirst : Instr := .regRead 0x01#8

/-- PAUSE mask, second command: REG.WRITE IRQEN, (IRQEN & ~mask). -/
def pauseSecond (mask : Word) (r : Reply) : Instr := .regWrite 0x01#8 (r.value &&& ~~~mask)

/-- RESUME mask, second command: REG.WRITE IRQEN, (IRQEN | mask). -/
def resumeSecond (mask : Word) (r : Reply) : Instr := .regWrite 0x01#8 (r.value ||| mask)

/-- SETWIN v. -/
def setWin (v : Word) : Instr := .regWrite 0x05#8 v

/-- SETCAP v. -/
def setCap (v : Word) : Instr := .regWrite 0x06#8 v

/-- GETWIN. -/
def getWin : Instr := .regRead 0x05#8

end Sys2Proof.Machine
end

