-- ==== Sys2Proof/Machine/Result.lean ====
section
/-! DEFINITION. The serial form of a command's result on the host port (30_encoding.md R124). -/

namespace Sys2Proof.Machine

/-- Up to eight bits as a byte, the first one least significant. -/
def byteOfBits : List Bool → Byte
  | [] => 0#8
  | b :: bs => (if b then 1#8 else 0#8) ||| (byteOfBits bs <<< 1)

/-- Tags packed 8 to a byte, least significant bit first, in ceil(n / 8) bytes (R124). -/
def packTags (tags : List Bool) : List Byte :=
  (List.range ((tags.length + 7) / 8)).map fun k => byteOfBits ((tags.drop (8 * k)).take 8)

/-- A length as 2 little-endian bytes (R124). -/
def lengthBytes (n : Nat) : List Byte := [BitVec.ofNat 8 n, BitVec.ofNat 8 (n / 256)]

/-- A result's serial form (R124): code, value, len(data), data, tags, len(frames), frames. A command other than
FIFO.GET leaves tags empty, so its form has no tags bytes. -/
def Reply.serialForm (r : Reply) : List Byte :=
  codeByte r.code :: wordBytes r.value ++ lengthBytes r.data.length ++ r.data ++ packTags r.tags ++
    lengthBytes r.frames.length ++ r.frames.flatten

end Sys2Proof.Machine
end

