-- ==== Sys2Proof/Safety.lean ====
section
/-! DEFINITION. What counts as a sound state of the block (the invariants of 10_state.md R46-R53 as one State.Inv), what a
command can see of a state (State.view, R49, R55), and the words claims about runs use. -/

namespace Sys2Proof.Machine

/-! ## Invariants -/

/-- A ring of capacity cap (R46, R49). -/
structure RingBuffer.Wf {α : Type} (cap : Nat) (r : RingBuffer α) : Prop where
  length : r.mem.length = cap
  head : r.head < cap
  tail : r.tail < cap
  count : r.count ≤ cap
  meet : r.head = (r.tail + r.count) % cap

/-- A channel whose queues have capacities capRx and capTx; no claim outlives a step (R48). -/
structure Channel.Wf (capRx capTx : Nat) (c : Channel) : Prop where
  rx : c.rx.ring.Wf capRx
  tx : c.tx.ring.Wf capTx
  claim : c.tx.claimLen = 0

/-- The synchronizer's invariants (R50, R51). -/
structure Sync.Wf (y : Sync) : Prop where
  length : y.buf.length = syncBufCap
  idle : y.state = .waitLength → y.expected = 0#8 ∧ y.received = 0#8
  body : y.state = .waitBody →
    1 ≤ y.expected.toNat ∧ y.expected.toNat ≤ 254 ∧ y.received.toNat < y.expected.toNat ∧
      y.buf[0]? = some y.expected

/-- The EPC a slot holds: epc[0 .. len) (R52). -/
def Slot.key (x : Slot) : List Byte := x.epc.take x.len.toNat

/-- The filter's invariants (R52, R53, 44_filter.md R296 (a) and (b)). -/
structure TagFilter.Wf (p : Params) (f : TagFilter) : Prop where
  length : f.entry.length = p.fltMaxCap
  capPos : 1 ≤ f.cap
  capMax : f.cap ≤ p.fltMaxCap
  count : f.count ≤ f.cap
  next : f.next < f.cap
  filling : f.count < f.cap → f.next = f.count
  valid : ∀ (i : Nat) (x : Slot), f.entry[i]? = some x → (x.valid = true ↔ i < f.count)
  slot : ∀ (i : Nat) (x : Slot), f.entry[i]? = some x →
    x.epc.length = p.epcMax ∧ (x.valid = true → 1 ≤ x.len.toNat ∧ x.len.toNat ≤ p.epcMax)
  distinct : ∀ (i j : Nat) (x y : Slot), f.entry[i]? = some x → f.entry[j]? = some y → x.valid = true → y.valid = true →
    x.key = y.key → i = j

/-- What every step keeps: legal parameters (R6) and every unit's invariants. -/
structure State.Inv (s : State) : Prop where
  params : s.params.Valid
  ch0 : s.ch0.Wf s.params.rbCapRx0 s.params.rbCapTx0
  ch1 : s.ch1.Wf s.params.rbCapRx1 s.params.rbCapTx1
  sync : s.sync.Wf
  flt : s.flt.Wf s.params

/-! ## Reset values (R57) -/

/-- A channel with R57's values: both agents paused, both queues empty, every counter 0. -/
structure Channel.IsReset (c : Channel) : Prop where
  paused : c.rxie = false ∧ c.txie = false
  rx : c.rx.ring.head = 0 ∧ c.rx.ring.tail = 0 ∧ c.rx.ring.count = 0 ∧ c.rx.gapPending = false
  tx : c.tx.ring.head = 0 ∧ c.tx.ring.tail = 0 ∧ c.tx.ring.count = 0 ∧ c.tx.claimLen = 0
  counters : c.fwd = 0#32 ∧ c.ovr = 0#32 ∧ c.txerr = 0#32

/-- Every state element R57 gives a value has that value; what R57 leaves unspecified is left open. -/
structure State.IsReset (s : State) : Prop where
  mode : s.mode = .idle
  crc : s.crc = 0xFFFF#16
  ch0 : s.ch0.IsReset
  ch1 : s.ch1.IsReset
  sync : s.sync.state = .waitLength ∧ s.sync.expected = 0#8 ∧ s.sync.received = 0#8 ∧ s.sync.last = 0#32
  syncCounters : s.sync.frames = 0#32 ∧ s.sync.crcerr = 0#32
  slots : ∀ x ∈ s.flt.entry, x.valid = false
  flt : s.flt.next = 0 ∧ s.flt.count = 0 ∧ s.flt.cap = 32 ∧ s.flt.win = s.params.fltWindowReset
  fltCounters : s.flt.tagacc = 0#32 ∧ s.flt.tagsup = 0#32
  fault : s.fault = none
  cmdIndex : s.cmdIndex = 0

/-! ## What a command can see of a state (R49, R55) -/

/-- A channel with each queue as its abstract content Q(q) (R49): no storage, no head, no tail. -/
structure ChannelView where
  rxie : Bool
  txie : Bool
  rx : List RxEntry
  gapPending : Bool
  tx : List Byte
  claimLen : Nat
  wire : List Byte
  fwd : Word
  ovr : Word
  txerr : Word
  deriving DecidableEq, Repr

/-- The synchronizer with the bytes of buf below 1 + received in WaitBody, and no others (R50). -/
structure SyncView where
  state : SyncState
  held : List Byte
  expected : Byte
  received : Byte
  last : Word
  frames : Word
  crcerr : Word
  deriving DecidableEq, Repr

/-- The filter with each valid slot's EPC and time stamp, and nothing of an invalid slot (R52). -/
structure FilterView where
  entry : List (Option (List Byte × Word))
  next : Nat
  count : Nat
  cap : Nat
  win : Word
  tagacc : Word
  tagsup : Word
  deriving DecidableEq, Repr

/-- A state without the contents R57 leaves unspecified. -/
structure View where
  params : Params
  mode : Mode
  ch0 : ChannelView
  ch1 : ChannelView
  crc : Half
  sync : SyncView
  flt : FilterView
  fault : Option FaultReason
  cmdIndex : Nat
  now : Word
  reply : Option Reply
  inputs : List Input
  deriving DecidableEq, Repr

/-- A channel's view; the queues' capacities are capRx and capTx. -/
def Channel.view (capRx capTx : Nat) (c : Channel) : ChannelView :=
  { rxie := c.rxie, txie := c.txie, rx := c.rx.ring.contents capRx, gapPending := c.rx.gapPending
    tx := c.tx.ring.contents capTx, claimLen := c.tx.claimLen, wire := c.wire, fwd := c.fwd, ovr := c.ovr
    txerr := c.txerr }

/-- The synchronizer's view. -/
def Sync.view (y : Sync) : SyncView :=
  { state := y.state, held := if y.state = .waitBody then y.buf.take (1 + y.received.toNat) else []
    expected := y.expected, received := y.received, last := y.last, frames := y.frames, crcerr := y.crcerr }

/-- A slot's view. -/
def Slot.view (x : Slot) : Option (List Byte × Word) := if x.valid then some (x.key, x.ts) else none

/-- The filter's view. -/
def TagFilter.view (f : TagFilter) : FilterView :=
  { entry := f.entry.map Slot.view, next := f.next, count := f.count, cap := f.cap, win := f.win
    tagacc := f.tagacc, tagsup := f.tagsup }

/-- A state's view. -/
def State.view (s : State) : View :=
  { params := s.params, mode := s.mode
    ch0 := s.ch0.view s.params.rbCapRx0 s.params.rbCapTx0, ch1 := s.ch1.view s.params.rbCapRx1 s.params.rbCapTx1
    crc := s.crc, sync := s.sync.view, flt := s.flt.view, fault := s.fault, cmdIndex := s.cmdIndex, now := s.now
    reply := s.reply, inputs := s.inputs }

/-- An outcome with its next state seen through its view. -/
def viewOutcome : Host.Outcome State Fault Refusal → Host.Outcome View Fault Refusal
  | .next s => .next s.view
  | .fault r => .fault r
  | .refused r => .refused r

/-! ## Runs of the synchronizer, and of commands -/

/-- The frames sync_byte returns over bytes presented with their time samples, before any CRC check. -/
def Sync.run (timeout : Nat) : List (Byte × Word) → Sync → Sync × List (List Byte)
  | [], y => (y, [])
  | b :: bs, y =>
    let r := y.byte timeout b.1 b.2
    let rest := Sync.run timeout bs r.1
    (rest.1, r.2.toList ++ rest.2)

/-- The same over RX entries at one time sample t, the synchronizer reset before each GAP-tagged one. -/
def Sync.runEntries (timeout : Nat) (t : Word) : List RxEntry → Sync → Sync × List (List Byte)
  | [], y => (y, [])
  | e :: es, y =>
    let z := if e.gap then { y with state := .waitLength, expected := 0#8, received := 0#8 } else y
    let r := z.byte timeout e.byte t
    let rest := Sync.runEntries timeout t es r.1
    (rest.1, r.2.toList ++ rest.2)

/-- Every sample after the first comes at most timeout ms after the one before it (R193). -/
def samplesWithin (timeout : Nat) : List (Byte × Word) → Prop
  | [] => True
  | [_] => True
  | a :: b :: rest => (b.2 - a.2).toNat ≤ timeout ∧ samplesWithin timeout (b :: rest)

/-- The commands of a list, one after another, stopping at the first fault or refusal. -/
def execAll : List Instr → State → Host.Outcome State Fault Refusal
  | [], s => .next s
  | i :: is, s =>
    match exec i s with
    | .next t => execAll is t
    | .fault r => .fault r
    | .refused r => .refused r

/-- A byte sequence with bit k (bit k % 8 of byte k / 8) inverted. -/
def flipBit (k : Nat) (f : List Byte) : List Byte := f.modify (k / 8) fun b => b ^^^ (1#8 <<< (k % 8))

/-- A command word of operation code opc on the port, with its payload p of len imm bytes: where its fields are legal
the block runs cmd, and where they are not it answers IllegalCommand and nothing else changes (R119-R127). -/
def CommandWord (opc : Byte) (len : Half → Nat) (legal : Byte → Half → Prop)
    (cmd : Byte → Half → List Byte → Instr) : Prop :=
  ∀ (s : State) (sel : Byte) (imm : Half) (p : List Byte) (t : Word) (rest : List Input),
    s.fault = none → s.inputs = .command (serial (mkWord opc sel imm) p) t :: rest → p.length = len imm →
    (legal sel imm → step s = exec (cmd sel imm p) { s with inputs := rest, now := t }) ∧
    (¬ legal sel imm → step s = .next { s with
      inputs := rest, now := t, reply := some (Reply.error .illegalCommand), cmdIndex := s.cmdIndex + 1 })

/-- The payload length of a "P" row: IMM[7:0] (R122). -/
def countOf (imm : Half) : Nat := imm.toNat % 256

/-- No payload (R122). -/
def noPayload (_ : Half) : Nat := 0

/-- SEL = 0 and IMM = 0 (R125). -/
def bothZero (sel : Byte) (imm : Half) : Prop := sel = 0#8 ∧ imm = 0#16

/-- SEL = 0 and IMM[15:8] = 0 (R125). -/
def selZeroImmByte (sel : Byte) (imm : Half) : Prop := sel = 0#8 ∧ imm.toNat < 256

/-- The channel a SEL below 2 says. -/
def chanNumbered (sel : Byte) : Chan := if sel = 1#8 then .ch1 else .ch0

/-- The queue a SEL below 4 says (R46). -/
def queueNumbered (sel : Byte) : QueueSel :=
  if sel = 0#8 then .rx0 else if sel = 1#8 then .tx0 else if sel = 2#8 then .rx1 else .tx1

/-- What REG.READ answers for the defined indices 0x00 to 0x19, in index order (10_state.md R32-R43). -/
def registerFile (s : State) : List Nat :=
  [match s.mode with | .idle => 0 | .bypass => 1 | .inventory => 2,
   s.ch0.rxie.toNat + 2 * s.ch0.txie.toNat + 4 * s.ch1.rxie.toNat + 8 * s.ch1.txie.toNat,
   s.crc.toNat,
   (if s.sync.state = .waitBody then 1 else 0) + 2 ^ 8 * s.sync.expected.toNat + 2 ^ 16 * s.sync.received.toNat,
   s.sync.last.toNat, s.flt.win.toNat, s.flt.cap, s.flt.count,
   (s.rxContents .ch0).length + 2 ^ 16 * s.ch0.rx.gapPending.toNat, (s.txContents .ch0).length,
   (s.rxContents .ch1).length + 2 ^ 16 * s.ch1.rx.gapPending.toNat, (s.txContents .ch1).length,
   s.params.rbCapRx0, s.params.rbCapTx0, s.params.rbCapRx1, s.params.rbCapTx1,
   s.ch0.fwd.toNat, s.ch1.fwd.toNat, s.sync.frames.toNat, s.sync.crcerr.toNat, s.ch0.ovr.toNat, s.ch1.ovr.toNat,
   s.ch0.txerr.toNat, s.ch1.txerr.toNat, s.flt.tagacc.toNat, s.flt.tagsup.toNat]

/-- The result codes R321 gives a command besides IllegalCommand. -/
def codesOf : Instr → List Code
  | .crcSeal _ => [.ok, .invalidParam]
  | .syncFeed _ => [.ok, .wrongMode]
  | .fifoPut _ _ => [.ok, .wrongMode, .bufferOverflow]
  | .fifoGet _ _ => [.ok, .wrongMode]
  | .fifoFlush _ => [.ok, .hazardFault]
  | .fltCheck _ => [.ok, .invalidParam]
  | .modeSet _ => [.ok, .invalidParam]
  | .regRead _ => [.ok, .invalidParam]
  | .regWrite _ _ => [.ok, .invalidParam]
  | .nop => [.ok]
  | .crcInit => [.ok]
  | .crcByte _ => [.ok]
  | .crcUpdate _ => [.ok]
  | .crcCompute _ => [.ok]
  | .crcVerify _ => [.ok]
  | .syncReset => [.ok]
  | .fltClear => [.ok]
  | .process => [.ok]

/-- MODE.SET from old to new flushes channel n: its affected set is chans(old) ∪ chans(new) (R261, R262). -/
def bracketed (old new : Mode) (n : Chan) : Prop :=
  old = .bypass ∨ new = .bypass ∨ (n = .ch0 ∧ (old = .inventory ∨ new = .inventory))

/-- The command an offer says, if it says one. -/
def Input.says : Input → Option Instr
  | .command bytes _ =>
    match decode bytes with
    | .instr i => some i
    | .illegal _ => none
    | .notCommand _ => none
  | .urx _ _ => none
  | .utx _ _ _ => none
  | .reset => none

/-- The command the next offer says, if the block can take it. -/
def State.takes (s : State) : Option Instr := if s.fault.isSome then none else s.inputs.head?.bind Input.says

/-- An offer that R119, R224 and R227 let the environment make in state s. -/
def offerLegal (s : State) : Input → Prop
  | .command bytes _ => ∃ w p, bytes = serial w p ∧ p.length = plen w
  | .urx _ _ => True
  | .utx n k j => 1 ≤ k ∧ j ≤ min k (s.chan n).tx.ring.count
  | .reset => True

/-- spec/opcode_table.json's match and mask columns, row by row. -/
def opcodeTable : List (Word × Word) :=
  [(0x00000000#32, 0xFFFFFFFF#32), (0x10000000#32, 0xFFFFFFFF#32), (0x11000000#32, 0xFFFFFF00#32),
   (0x12000000#32, 0xFFFFFF00#32), (0x13000000#32, 0xFFFFFF00#32), (0x14000000#32, 0xFFFFFF00#32),
   (0x15000000#32, 0xFFFFFF00#32), (0x20000000#32, 0xFFFEFF00#32), (0x21000000#32, 0xFFFE0000#32),
   (0x22000000#32, 0xFFFCFFFF#32), (0x30000000#32, 0xFFFFFF00#32), (0x31000000#32, 0xFFFFFFFF#32),
   (0x40000000#32, 0xFFFFFF00#32), (0x41000000#32, 0xFFFFFFFF#32), (0x50000000#32, 0xFFFFFFFC#32),
   (0x51000000#32, 0xFFFFFFFF#32), (0x60000000#32, 0xFF00FFFF#32), (0x61000004#32, 0xFF00FFFF#32)]

end Sys2Proof.Machine
end

