-- ==== Sys2Proof/Certificates/Slice0/Obligations.lean ====
section
/-! DEFINITION. The statements for the provers. Each docstring names the rules of spec/ it formalises. -/

open Sys2Proof Sys2Proof.Machine

/-! ## Encoding -/

/-- R121-R126: every well-formed command, encoded, decodes to itself, with every operand at every value. -/
def Obligations.DecodeInvertsEncode : Prop :=
  ∀ i : Instr, WellFormed i → decode (encode i) = .instr i

/-- R119, R122, R127: bytes that decode to a command are that command's encoding and no other's, and the command is
well-formed: each bit pattern has one meaning. -/
def Obligations.EncodeInvertsDecode : Prop :=
  ∀ (bytes : List Byte) (i : Instr), decode bytes = .instr i → WellFormed i ∧ encode i = bytes

/-- R125 and spec/opcode_table.json: with its PLEN(w) payload bytes, a word is a command exactly where some row of the
table matches it, (w & mask) = match, and is illegal everywhere else. -/
def Obligations.DecoderAgreesWithOpcodeTable : Prop :=
  ∀ (w : Word) (p : List Byte), p.length = plen w →
    ((∃ i, decode (serial w p) = .instr i) ↔ ∃ row ∈ opcodeTable, w &&& row.2 = row.1) ∧
    ((∃ why, decode (serial w p) = .illegal why) ↔ ∀ row ∈ opcodeTable, w &&& row.2 ≠ row.1)

/-- 95_test_vectors.md V-ENC-3, V-CTL-7, P1-P3, and R121-R126 for the two SYNC words: nine words, at least one of each
family, in serial form, decode to the commands they stand for. -/
def Obligations.KnownSerialBytesDecode : Prop :=
  decode [0x50#8, 0x00#8, 0x00#8, 0x11#8] = .instr (.crcByte 0x50#8) ∧
  decode [0x10#8, 0x00#8, 0x00#8, 0x21#8] = .instr (.fifoGet .ch0 16#16) ∧
  decode [0x00#8, 0x00#8, 0x02#8, 0x22#8] = .instr (.fifoFlush .rx1) ∧
  decode [0x04#8, 0x00#8, 0x01#8, 0x61#8, 0x04#8, 0x00#8, 0x00#8, 0x00#8] = .instr (.regWrite 0x01#8 4#32) ∧
  decode [0x04#8, 0x00#8, 0x00#8, 0x40#8, 0xE2#8, 0x00#8, 0x34#8, 0x12#8] =
    .instr (.fltCheck [0xE2#8, 0x00#8, 0x34#8, 0x12#8]) ∧
  decode [0x02#8, 0x00#8, 0x00#8, 0x50#8] = .instr (.modeSet 2#2) ∧
  decode [0x02#8, 0x00#8, 0x00#8, 0x30#8, 0x05#8, 0x00#8] = .instr (.syncFeed [0x05#8, 0x00#8]) ∧
  decode [0x00#8, 0x00#8, 0x00#8, 0x31#8] = .instr .syncReset ∧
  decode [0x00#8, 0x00#8, 0x00#8, 0x00#8] = .instr .nop

/-! ## Steps -/

/-- R119, R89: where the next offer's bytes decode to command i and the block is not FAULTED, the step is i's meaning,
on the state with the offer taken and its time sample in `now`. -/
def Obligations.StepRunsDecodedCommand : Prop :=
  ∀ (s : State) (bytes : List Byte) (t : Word) (rest : List Input) (i : Instr),
    s.fault = none → s.inputs = .command bytes t :: rest → decode bytes = .instr i →
    step s = exec i { s with inputs := rest, now := t }

/-- R127: a word that no row of the opcode table matches, with its PLEN(w) payload bytes, is answered IllegalCommand
and changes no state (the command index advances, R31); the payload is consumed with it, and for an undefined OPC
there is none. -/
def Obligations.IllegalWordAnswersIllegalCommand : Prop :=
  ∀ (s : State) (w : Word) (p : List Byte) (t : Word) (rest : List Input),
    s.fault = none → s.inputs = .command (serial w p) t :: rest → p.length = plen w →
    (∀ row ∈ opcodeTable, w &&& row.2 ≠ row.1) →
    step s = .next { s with
      inputs := rest, now := t, reply := some (Reply.error .illegalCommand), cmdIndex := s.cmdIndex + 1 } ∧
    ((∀ row ∈ opcodeTable, w.toNat / 2 ^ 24 ≠ row.1.toNat / 2 ^ 24) → p = [])

/-- R119, U12: a word with a payload whose length is not PLEN(w) is no command, and the model refuses it (log 7). -/
def Obligations.WrongPayloadLengthIsRefused : Prop :=
  ∀ (s : State) (w : Word) (p : List Byte) (t : Word) (rest : List Input),
    s.fault = none → s.inputs = .command (serial w p) t :: rest → p.length ≠ plen w →
    step s = .refused .notACommand

/-- R324, U2: in the FAULTED condition no command has a step, and no offer but RESET changes anything: it is left
untaken by the block (log 5). Whatever offer leads out of the condition is RESET. -/
def Obligations.FaultedBlockTakesOnlyReset : Prop :=
  ∀ s : State, s.fault ≠ none →
    (∀ i, exec i s = .fault .faulted) ∧
    (∀ o rest, s.inputs = o :: rest → o ≠ .reset → step s = .next { s with inputs := rest }) ∧
    (∀ t, step s = .next t → t.fault = none → ∃ rest, s.inputs = .reset :: rest)

/-- R322, R329: every offer the environment may make (a command with its PLEN(w) payload bytes, an arriving byte, a
transmit event within its claim, RESET) is answered by a next state; an offer whose agent has no step is withdrawn
(log 5). -/
def Obligations.LegalOfferAlwaysSteps : Prop :=
  ∀ (s : State) (o : Input) (rest : List Input), s.inputs = o :: rest → offerLegal s o → ∃ t, step s = .next t

/-- R31: every command advances the command index by one whatever its result code (HazardFault too: log 10); an
agent's step leaves it, and a RESET sets it to 0 (R350). -/
def Obligations.CommandIndexCountsCommands : Prop :=
  (∀ (i : Instr) (s : State), s.fault = none → ∃ t, exec i s = .next t ∧ t.cmdIndex = s.cmdIndex + 1) ∧
  (∀ (s t : State) (o : Input) (rest : List Input), s.inputs = o :: rest → step s = .next t →
    ((∃ n b, o = .urx n b) ∨ (∃ n k j, o = .utx n k j) → t.cmdIndex = s.cmdIndex) ∧
    (o = .reset → t.cmdIndex = 0))

/-! ## CRC unit -/

/-- R160, R161, R162: the CRC step is eight shifts after an exclusive or, the CRC of a sequence is its fold from
0xFFFF, and the check compares with the last two bytes, low byte first. -/
def Obligations.CrcAlgorithm : Prop :=
  (∀ (c : Half) (b : Byte),
    crcStep c b = (fun x : Half => if x.toNat % 2 = 1 then (x >>> 1) ^^^ 0x8408#16 else x >>> 1)^[8]
      (c ^^^ b.setWidth 16)) ∧
  crcOf [] = 0xFFFF#16 ∧ (∀ s b, crcOf (s ++ [b]) = crcStep (crcOf s) b) ∧
  (∀ f : List Byte, f.length < 2 → crcVerify f = false) ∧
  (∀ (s : List Byte) (lo hi : Byte), crcVerify (s ++ [lo, hi]) = true ↔ (crcOf s).toNat = lo.toNat + 256 * hi.toNat)

/-- R163, R164, R165: the streaming commands' words, and their effect: the CRC register and nothing else. -/
def Obligations.CrcStreamCommands : Prop :=
  CommandWord 0x10#8 noPayload bothZero (fun _ _ _ => .crcInit) ∧
  CommandWord 0x11#8 noPayload selZeroImmByte (fun _ imm _ => .crcByte (imm.setWidth 8)) ∧
  CommandWord 0x12#8 countOf selZeroImmByte (fun _ _ p => .crcUpdate p) ∧
  ∀ s : State, s.fault = none →
    exec .crcInit s = .next { s with
      crc := 0xFFFF#16, reply := some (Reply.ok 0x0000FFFF#32), cmdIndex := s.cmdIndex + 1 } ∧
    (∀ b, exec (.crcByte b) s = .next { s with
      crc := crcStep s.crc b, reply := some (Reply.ok ((crcStep s.crc b).setWidth 32)), cmdIndex := s.cmdIndex + 1 }) ∧
    (∀ p, exec (.crcUpdate p) s = .next { s with
      crc := p.foldl crcStep s.crc, reply := some (Reply.ok ((p.foldl crcStep s.crc).setWidth 32))
      cmdIndex := s.cmdIndex + 1 })

/-- R166, R167: the pure commands' words, and that they only return a result. -/
def Obligations.CrcPureCommands : Prop :=
  CommandWord 0x13#8 countOf selZeroImmByte (fun _ _ p => .crcCompute p) ∧
  CommandWord 0x14#8 countOf selZeroImmByte (fun _ _ p => .crcVerify p) ∧
  ∀ s : State, s.fault = none → ∀ p,
    exec (.crcCompute p) s = .next { s with
      reply := some (Reply.ok ((crcOf p).setWidth 32)), cmdIndex := s.cmdIndex + 1 } ∧
    exec (.crcVerify p) s = .next { s with
      reply := some (Reply.ok (if crcVerify p then 1#32 else 0#32)), cmdIndex := s.cmdIndex + 1 }

/-- R168: CRC.SEAL's word; for 2 to 252 payload bytes it returns Len = m + 2, the payload, and the CRC of both low
byte first, m + 3 bytes in all; for any other length InvalidParam; it writes no state. -/
def Obligations.CrcSealBuildsFrame : Prop :=
  CommandWord 0x15#8 countOf selZeroImmByte (fun _ _ p => .crcSeal p) ∧
  ∀ (s : State) (p : List Byte), s.fault = none →
    (2 ≤ p.length ∧ p.length ≤ 252 →
      ∃ (len lo hi : Byte), len.toNat = p.length + 2 ∧ (crcOf (len :: p)).toNat = lo.toNat + 256 * hi.toNat ∧
        exec (.crcSeal p) s = .next { s with
          reply := some { code := .ok, value := BitVec.ofNat 32 (p.length + 3), data := len :: p ++ [lo, hi], tags := []
                          frames := [] }
          cmdIndex := s.cmdIndex + 1 }) ∧
    (p.length < 2 ∨ 252 < p.length →
      exec (.crcSeal p) s = .next { s with
        reply := some (Reply.error .invalidParam), cmdIndex := s.cmdIndex + 1 })

/-- R169: the frame CRC.SEAL returns verifies, its Len byte is its length less 1, and inverting any one bit of it
makes the check fail; so does the check of any sequence with its CRC appended. -/
def Obligations.SealedFrameDetectsAnyBitFlip : Prop :=
  (∀ (s : State) (p : List Byte), s.fault = none → 2 ≤ p.length → p.length ≤ 252 →
    ∃ (t : State) (r : Reply), exec (.crcSeal p) s = .next t ∧ t.reply = some r ∧ crcVerify r.data = true ∧
      (r.data.getD 0 0#8).toNat = r.data.length - 1 ∧
      ∀ k, k < 8 * r.data.length → crcVerify (flipBit k r.data) = false) ∧
  (∀ s : List Byte, crcVerify (s ++ [(crcOf s).extractLsb' 0 8, (crcOf s).extractLsb' 8 8]) = true ∧
    ∀ k, k < 8 * (s.length + 2) →
      crcVerify (flipBit k (s ++ [(crcOf s).extractLsb' 0 8, (crcOf s).extractLsb' 8 8])) = false)

/-- R170: after a CRC.INIT followed by any CRC.BYTE and CRC.UPDATE commands that carry the bytes of s in order, the
CRC register is CRC(s), whatever ran before. -/
def Obligations.StreamingEquivalence : Prop :=
  ∀ (pieces : List (Byte ⊕ List Byte)) (s : State), s.fault = none →
    ∃ t, execAll (.crcInit :: pieces.map (Sum.elim Instr.crcByte Instr.crcUpdate)) s = .next t ∧
      t.crc = crcOf (pieces.map (Sum.elim (fun b => [b]) id)).flatten

/-! ## Synchronizer -/

/-- R190, R191, R194: sync_byte. A late byte in WaitBody is read as by a freshly reset synchronizer; a WaitLength
synchronizer takes 1 to 254 as Len and drops 0 and 255; a WaitBody one stores the byte and, with the last one, returns
the frame and is reset. Every byte leaves its time sample in `last`, and no byte changes a counter. -/
def Obligations.SyncByteStep : Prop :=
  ∀ (timeout : Nat) (y : Sync) (b : Byte) (t : Word),
    (y.state = .waitBody → timeout < (t - y.last).toNat →
      y.byte timeout b t =
        ({ y with state := .waitLength, expected := 0#8, received := 0#8 } : Sync).byte timeout b t) ∧
    (y.state = .waitLength → 1 ≤ b.toNat → b.toNat ≤ 254 →
      y.byte timeout b t =
        ({ y with last := t, buf := y.buf.set 0 b, expected := b, received := 0#8, state := .waitBody }, none)) ∧
    (y.state = .waitLength → b = 0#8 ∨ b = 255#8 → y.byte timeout b t = ({ y with last := t }, none)) ∧
    (y.state = .waitBody → (t - y.last).toNat ≤ timeout → y.received + 1#8 ≠ y.expected →
      y.byte timeout b t =
        ({ y with last := t, buf := y.buf.set (1 + y.received.toNat) b, received := y.received + 1#8 }, none)) ∧
    (y.state = .waitBody → (t - y.last).toNat ≤ timeout → y.received + 1#8 = y.expected →
      y.byte timeout b t =
        ({ y with last := t, buf := y.buf.set (1 + y.received.toNat) b, expected := 0#8, received := 0#8
                  state := .waitLength },
         some ((y.buf.set (1 + y.received.toNat) b).take (1 + y.expected.toNat))))

/-- R195, R192: SYNC.FEED's word. Outside Inventory the payload goes through sync_byte in order at the command's one
time sample; of the frames completed, those whose CRC matches are returned and counted in FRAMES, the others only
counted in CRCERR. In Inventory it answers WrongMode and nothing changes. -/
def Obligations.SyncFeedDispatches : Prop :=
  CommandWord 0x30#8 countOf selZeroImmByte (fun _ _ p => .syncFeed p) ∧
  ∀ (s : State) (p : List Byte), s.fault = none →
    (s.mode ≠ .inventory →
      let r := Sync.run s.params.syncTimeout (p.map fun b => (b, s.now)) s.sync
      let good := r.2.filter crcVerify
      let bad := r.2.filter fun f => !crcVerify f
      exec (.syncFeed p) s = .next { s with
        sync := { r.1 with frames := s.sync.frames + BitVec.ofNat 32 good.length
                           crcerr := s.sync.crcerr + BitVec.ofNat 32 bad.length }
        reply := some { code := .ok, value := BitVec.ofNat 32 good.length, data := [], tags := [], frames := good }
        cmdIndex := s.cmdIndex + 1 }) ∧
    (s.mode = .inventory →
      exec (.syncFeed p) s = .next { s with
        reply := some (Reply.error .wrongMode), cmdIndex := s.cmdIndex + 1 })

/-- R196: SYNC.RESET's word and effect: WaitLength, `last` and the buffer kept, in every mode. -/
def Obligations.SyncResetResyncs : Prop :=
  CommandWord 0x31#8 noPayload bothZero (fun _ _ _ => .syncReset) ∧
  ∀ s : State, s.fault = none →
    exec .syncReset s = .next { s with
      sync := { s.sync with state := .waitLength, expected := 0#8, received := 0#8 }
      reply := some (Reply.ok 0#32), cmdIndex := s.cmdIndex + 1 }

/-- R200: from WaitLength, the bytes [L] ++ body with 1 ≤ L ≤ 254 and L body bytes, no sample more than the timeout
after the one before, make sync_byte return exactly that frame, at the last byte, and leave WaitLength; bytes 0x00 and
0xFF before them are dropped one at a time. -/
def Obligations.SynchronizerDelimitsFrame : Prop :=
  ∀ (timeout : Nat) (y : Sync) (junk frame : List (Byte × Word)),
    y.Wf → y.state = .waitLength → (∀ b ∈ junk, b.1 = 0x00#8 ∨ b.1 = 0xFF#8) →
    1 ≤ ((frame.map Prod.fst).getD 0 0#8).toNat → ((frame.map Prod.fst).getD 0 0#8).toNat ≤ 254 →
    frame.length = ((frame.map Prod.fst).getD 0 0#8).toNat + 1 → samplesWithin timeout frame →
    (Sync.run timeout (junk ++ frame.dropLast) y).2 = [] ∧
    (Sync.run timeout (junk ++ frame) y).2 = [frame.map Prod.fst] ∧
    (Sync.run timeout (junk ++ frame) y).1.state = .waitLength

/-- R199, R359: the only steps that change the synchronizer are RESET, SYNC.FEED outside Inventory, SYNC.RESET,
PROCESS in Inventory, and MODE.SET into or out of Inventory. -/
def Obligations.OnlyTheseStepsChangeSynchronizer : Prop :=
  ∀ s t : State, step s = .next t → t.sync ≠ s.sync →
    (∃ rest, s.inputs = .reset :: rest) ∨
    (∃ p, s.takes = some (.syncFeed p) ∧ s.mode ≠ .inventory) ∨
    s.takes = some .syncReset ∨
    (s.takes = some .process ∧ s.mode = .inventory) ∨
    (∃ m, s.takes = some (.modeSet m) ∧ (s.mode = .inventory ∨ m = 2#2))

/-! ## FIFO unit -/

/-- R226: a byte arriving on channel n. Enabled with room: stored, GAP-tagged if bytes were dropped since the last one
stored. Enabled and full: dropped, counted in OVRn, gap_pending set. With RXIEn = 0 or FAULTED the agent has no step,
and the model withdraws the byte (log 5). -/
def Obligations.UrxStoresOrCountsByte : Prop :=
  ∀ (s : State) (n : Chan) (b : Byte) (rest : List Input), s.Inv → s.inputs = .urx n b :: rest →
    (s.fault = none → (s.chan n).rxie = true → (s.rxContents n).length < rxCap s.params n →
      ∃ r : RingBuffer RxEntry, step s = .next ({ s with inputs := rest }.setChan n
          { s.chan n with rx := { ring := r, gapPending := false } }) ∧
        r.contents (rxCap s.params n) = s.rxContents n ++ [{ byte := b, gap := (s.chan n).rx.gapPending }]) ∧
    (s.fault = none → (s.chan n).rxie = true → (s.rxContents n).length = rxCap s.params n →
      step s = .next ({ s with inputs := rest }.setChan n
        { s.chan n with ovr := (s.chan n).ovr + 1#32, rx := { (s.chan n).rx with gapPending := true } })) ∧
    (s.fault ≠ none ∨ (s.chan n).rxie = false → step s = .next { s with inputs := rest })

/-- R227: a transmit-ready event (k, j) on channel n. Enabled, with k ≥ 1 and j no more than the min(k, count) bytes
claimed: the oldest j bytes leave on wire_n, the others stay in place, and TXIEn is cleared exactly where none is
left. With TXIEn = 0 or FAULTED the agent has no step, and the model withdraws the event (log 5). -/
def Obligations.UtxSendsOldestBytes : Prop :=
  ∀ (s : State) (n : Chan) (k j : Nat) (rest : List Input), s.Inv → s.inputs = .utx n k j :: rest →
    (s.fault = none → (s.chan n).txie = true → 1 ≤ k → j ≤ min k (s.txContents n).length →
      ∃ r : RingBuffer Byte, step s = .next ({ s with inputs := rest }.setChan n
          { s.chan n with tx := { ring := r, claimLen := 0 }, wire := (s.chan n).wire ++ (s.txContents n).take j
                          txie := decide (j < (s.txContents n).length) }) ∧
        r.contents (txCap s.params n) = (s.txContents n).drop j) ∧
    (s.fault ≠ none ∨ (s.chan n).txie = false → step s = .next { s with inputs := rest })

/-- R224, U3, R324: a transmit event that sends more than the min(k, count) bytes claimed is never clipped: it enters
the sticky FAULTED condition and changes nothing else. That no byte is recorded as sent is the model's reading of R324
(log 8); the reason's name is the model's (log 28). -/
def Obligations.CommitBeyondClaimFaults : Prop :=
  ∀ (s : State) (n : Chan) (k j : Nat) (rest : List Input), s.inputs = .utx n k j :: rest →
    s.fault = none → (s.chan n).txie = true → 1 ≤ k → min k (s.chan n).tx.ring.count < j →
    step s = .next { s with inputs := rest, fault := some .commitBeyondClaim }

/-- R229: FIFO.PUT's word. In Bypass WrongMode. With room for all of p: p appended to TX(ch), TXIEch set if p is not
empty. Else nothing stored: BufferOverflow with the free room as value, and TXERRch one more. -/
def Obligations.FifoPutAllOrNothing : Prop :=
  CommandWord 0x20#8 countOf (fun sel imm => sel.toNat < 2 ∧ imm.toNat < 256) (fun sel _ p => .fifoPut (chanNumbered sel) p) ∧
  ∀ (s : State) (ch : Chan) (p : List Byte), s.Inv → s.fault = none →
    (s.mode = .bypass →
      exec (.fifoPut ch p) s = .next { s with
        reply := some (Reply.error .wrongMode), cmdIndex := s.cmdIndex + 1 }) ∧
    (s.mode ≠ .bypass → (s.txContents ch).length + p.length ≤ txCap s.params ch →
      ∃ r : RingBuffer Byte, exec (.fifoPut ch p) s = .next { s.setChan ch
          { s.chan ch with tx := { (s.chan ch).tx with ring := r }, txie := (s.chan ch).txie || !p.isEmpty } with
            reply := some (Reply.ok (BitVec.ofNat 32 p.length)), cmdIndex := s.cmdIndex + 1 } ∧
        r.contents (txCap s.params ch) = s.txContents ch ++ p) ∧
    (s.mode ≠ .bypass → txCap s.params ch < (s.txContents ch).length + p.length →
      exec (.fifoPut ch p) s = .next { s.setChan ch { s.chan ch with txerr := (s.chan ch).txerr + 1#32 } with
        reply := some { code := .bufferOverflow, data := [], tags := [], frames := []
                        value := BitVec.ofNat 32 (txCap s.params ch - (s.txContents ch).length) }
        cmdIndex := s.cmdIndex + 1 })

/-- R230: FIFO.GET's word. Where PROCESS owns RX(ch) WrongMode. Else the oldest min(n, count) entries leave RX(ch),
their bytes in data and their GAP tags in tags. -/
def Obligations.FifoGetTakesOldest : Prop :=
  CommandWord 0x21#8 noPayload (fun sel _ => sel.toNat < 2) (fun sel imm _ => .fifoGet (chanNumbered sel) imm) ∧
  ∀ (s : State) (ch : Chan) (n : Half), s.Inv → s.fault = none →
    (s.mode = .bypass ∨ (s.mode = .inventory ∧ ch = .ch0) →
      exec (.fifoGet ch n) s = .next { s with
        reply := some (Reply.error .wrongMode), cmdIndex := s.cmdIndex + 1 }) ∧
    (s.mode = .idle ∨ (s.mode = .inventory ∧ ch = .ch1) →
      ∃ r : RingBuffer RxEntry, exec (.fifoGet ch n) s = .next { s.setChan ch
          { s.chan ch with rx := { (s.chan ch).rx with ring := r } } with
            reply := some {
              code := .ok, value := BitVec.ofNat 32 (min n.toNat (s.rxContents ch).length)
              data := ((s.rxContents ch).take n.toNat).map RxEntry.byte
              tags := ((s.rxContents ch).take n.toNat).map RxEntry.gap, frames := [] }
            cmdIndex := s.cmdIndex + 1 } ∧
        r.contents (rxCap s.params ch) = (s.rxContents ch).drop n.toNat)

/-- R231, R222: FIFO.FLUSH's word. With the queue's interrupt-side agent paused, the queue is emptied, gap_pending or
claim_len cleared, and nothing else changes. With it live, the FAULTED condition is entered, the result is
HazardFault, and nothing else changes but the command index (R31, log 10). -/
def Obligations.FifoFlushOrHazard : Prop :=
  CommandWord 0x22#8 noPayload (fun sel imm => sel.toNat < 4 ∧ imm = 0#16) (fun sel _ _ => .fifoFlush (queueNumbered sel)) ∧
  ∀ (s : State) (n : Chan), s.fault = none →
    let rxq := if n = .ch0 then QueueSel.rx0 else .rx1
    let txq := if n = .ch0 then QueueSel.tx0 else .tx1
    let hazard : Host.Outcome State Fault Refusal := .next { s with
      fault := some .hazardFlushLive, reply := some (Reply.error .hazardFault), cmdIndex := s.cmdIndex + 1 }
    ((s.chan n).rxie = true → exec (.fifoFlush rxq) s = hazard) ∧
    ((s.chan n).txie = true → exec (.fifoFlush txq) s = hazard) ∧
    ((s.chan n).rxie = false → ∃ r : RingBuffer RxEntry, r.contents (rxCap s.params n) = [] ∧ r.mem = (s.chan n).rx.ring.mem ∧
      r.head = 0 ∧ r.tail = 0 ∧
      exec (.fifoFlush rxq) s = .next { s.setChan n { s.chan n with rx := { ring := r, gapPending := false } } with
        reply := some (Reply.ok 0#32), cmdIndex := s.cmdIndex + 1 }) ∧
    ((s.chan n).txie = false → ∃ r : RingBuffer Byte, r.contents (txCap s.params n) = [] ∧ r.mem = (s.chan n).tx.ring.mem ∧
      r.head = 0 ∧ r.tail = 0 ∧
      exec (.fifoFlush txq) s = .next { s.setChan n { s.chan n with tx := { ring := r, claimLen := 0 } } with
        reply := some (Reply.ok 0#32), cmdIndex := s.cmdIndex + 1 })

/-- R233 (b), R90, R91: what has left on wire_n followed by what waits in TX(n) is only ever extended at its end, by
the bytes a FIFO.PUT or a Bypass PROCESS pushes, unless the step empties TX(n) by FIFO.FLUSH, MODE.SET or RESET: each
byte is sent at most once, in push order, whatever partial sends occur. -/
def Obligations.TxBytesLeaveInPushOrder : Prop :=
  ∀ (s t : State) (n : Chan), s.Inv → step s = .next t →
    (∃ pushed, (t.chan n).wire ++ t.txContents n = (s.chan n).wire ++ s.txContents n ++ pushed ∧
      (pushed ≠ [] → s.takes = some (.fifoPut n pushed) ∨ (s.takes = some .process ∧ s.mode = .bypass))) ∨
    (t.txContents n = [] ∧ (t.chan n).wire = (s.chan n).wire ∧
      ((∃ q, s.takes = some (.fifoFlush q)) ∨ (∃ m, s.takes = some (.modeSet m)) ∨ ∃ rest, s.inputs = .reset :: rest))

/-- R233 (c), R90, R362: RX(n) gains an entry only from URXn, at its end, tagged with gap_pending; FIFO.GET of n and
PROCESS outside Idle take entries from its front, nothing else does, and leave gap_pending; only URXn sets
gap_pending; FIFO.FLUSH, MODE.SET and RESET empty the queue and clear gap_pending together. -/
def Obligations.RxBytesTakenInArrivalOrder : Prop :=
  ∀ (s t : State) (n : Chan), s.Inv → step s = .next t →
    (∃ b rest, s.inputs = .urx n b :: rest ∧
      ((t.rxContents n = s.rxContents n ++ [{ byte := b, gap := (s.chan n).rx.gapPending }] ∧
          (t.chan n).rx.gapPending = false) ∨
        (t.rxContents n = s.rxContents n ∧ (s.rxContents n).length = rxCap s.params n ∧
          (t.chan n).rx.gapPending = true ∧ (t.chan n).ovr = (s.chan n).ovr + 1#32))) ∨
    (∃ k, t.rxContents n = (s.rxContents n).drop k ∧ (t.chan n).rx.gapPending = (s.chan n).rx.gapPending ∧
      (k = 0 ∨ (∃ m, s.takes = some (.fifoGet n m)) ∨ (s.takes = some .process ∧ s.mode ≠ .idle))) ∨
    (t.rxContents n = [] ∧ (t.chan n).rx.gapPending = false ∧
      ((∃ q, s.takes = some (.fifoFlush q)) ∨ (∃ m, s.takes = some (.modeSet m)) ∨ ∃ rest, s.inputs = .reset :: rest))

/-- R233 (d), R228: while TX(n) holds a byte and TXIEn = 1, a step clears TXIEn only by emptying TX(n), by MODE.SET's
pause of channel n, by a REG.WRITE of IRQEN with its bit clear, or by RESET. -/
def Obligations.TxEnableStaysWhileBytesWait : Prop :=
  ∀ (s t : State) (n : Chan), s.Inv → step s = .next t → s.txContents n ≠ [] → (s.chan n).txie = true →
    (t.chan n).txie = false →
    (t.txContents n = [] ∧ ∃ k j rest, s.inputs = .utx n k j :: rest) ∨
    (∃ m, s.takes = some (.modeSet m) ∧ bracketed s.mode t.mode n) ∨
    (∃ v, s.takes = some (.regWrite 0x01#8 v) ∧ v.getLsbD (match n with | .ch0 => 1 | .ch1 => 3) = false) ∨
    ∃ rest, s.inputs = .reset :: rest

/-! ## Control unit -/

/-- R260: NOP's word and effect, in every mode. -/
def Obligations.NopOnlyAnswers : Prop :=
  CommandWord 0x00#8 noPayload bothZero (fun _ _ _ => .nop) ∧
  ∀ s : State, s.fault = none →
    exec .nop s = .next { s with reply := some (Reply.ok 0#32), cmdIndex := s.cmdIndex + 1 }

/-- R262, R263: MODE.SET's word and its bracket. It never raises the fault. Every channel the old or the new mode
drives ends with both queues empty, receive enabled and transmit disabled; any other channel is untouched; the
synchronizer is reset where the old or the new mode is Inventory, the filter cleared where the new one is; the rest is
kept. m = 3 is InvalidParam and changes nothing. -/
def Obligations.ModeSetBracket : Prop :=
  CommandWord 0x50#8 noPayload (fun sel imm => sel = 0#8 ∧ imm.toNat < 4) (fun _ imm _ => .modeSet (imm.setWidth 2)) ∧
  ∀ s : State, s.fault = none →
    exec (.modeSet 3#2) s = .next { s with
      reply := some (Reply.error .invalidParam), cmdIndex := s.cmdIndex + 1 } ∧
    ∀ (m : BitVec 2) (new : Mode),
      (m = 0#2 ∧ new = .idle) ∨ (m = 1#2 ∧ new = .bypass) ∨ (m = 2#2 ∧ new = .inventory) →
      ∃ t, exec (.modeSet m) s = .next t ∧ t.mode = new ∧ t.fault = none ∧
        t.reply = some (Reply.ok (match s.mode with | .idle => 0#32 | .bypass => 1#32 | .inventory => 2#32)) ∧
        t.cmdIndex = s.cmdIndex + 1 ∧
        (∀ n, bracketed s.mode new n →
          t.chan n = { s.chan n with
            rxie := true, txie := false
            rx := { ring := { (s.chan n).rx.ring with head := 0, tail := 0, count := 0 }, gapPending := false }
            tx := { ring := { (s.chan n).tx.ring with head := 0, tail := 0, count := 0 }, claimLen := 0 } } ∧
          t.rxContents n = [] ∧ t.txContents n = []) ∧
        (∀ n, ¬ bracketed s.mode new n → t.chan n = s.chan n) ∧
        (s.mode = .inventory ∨ new = .inventory →
          t.sync = { s.sync with state := .waitLength, expected := 0#8, received := 0#8 }) ∧
        (s.mode ≠ .inventory → new ≠ .inventory → t.sync = s.sync) ∧
        (new = .inventory → t.flt = { s.flt with
          entry := s.flt.entry.map (fun x => { x with valid := false }), next := 0, count := 0 }) ∧
        (new ≠ .inventory → t.flt = s.flt) ∧
        t.crc = s.crc ∧ t.params = s.params ∧ t.now = s.now ∧ t.inputs = s.inputs

/-- R264, R265: PROCESS's word, and that in Idle it only answers OK with value 0. -/
def Obligations.ProcessInIdleOnlyAnswers : Prop :=
  CommandWord 0x51#8 noPayload bothZero (fun _ _ _ => .process) ∧
  ∀ s : State, s.fault = none → s.mode = .idle →
    exec .process s = .next { s with reply := some (Reply.ok 0#32), cmdIndex := s.cmdIndex + 1 }

/-- R266: PROCESS in Bypass moves min(count(RX(0)), free(TX(1))) bytes from RX0 to TX1 and min(count(RX(1)),
free(TX(0))) from RX1 to TX0, oldest first, dropping GAP tags; FWD0 and FWD1 count them, TXIE of a channel that gained
a byte is set, the value is their sum, and nothing else changes. -/
def Obligations.ProcessInBypassForwards : Prop :=
  ∀ s : State, s.Inv → s.fault = none → s.mode = .bypass →
    let k0 := min (s.rxContents .ch0).length (txCap s.params .ch1 - (s.txContents .ch1).length)
    let k1 := min (s.rxContents .ch1).length (txCap s.params .ch0 - (s.txContents .ch0).length)
    ∃ (rx0 rx1 : RingBuffer RxEntry) (tx0 tx1 : RingBuffer Byte),
      exec .process s = .next { s with
        ch0 := { s.ch0 with
          rx := { s.ch0.rx with ring := rx0 }, tx := { s.ch0.tx with ring := tx0 }
          fwd := s.ch0.fwd + BitVec.ofNat 32 k0, txie := s.ch0.txie || decide (0 < k1) }
        ch1 := { s.ch1 with
          rx := { s.ch1.rx with ring := rx1 }, tx := { s.ch1.tx with ring := tx1 }
          fwd := s.ch1.fwd + BitVec.ofNat 32 k1, txie := s.ch1.txie || decide (0 < k0) }
        reply := some (Reply.ok (BitVec.ofNat 32 (k0 + k1))), cmdIndex := s.cmdIndex + 1 } ∧
      rx0.contents (rxCap s.params .ch0) = (s.rxContents .ch0).drop k0 ∧
      rx1.contents (rxCap s.params .ch1) = (s.rxContents .ch1).drop k1 ∧
      tx1.contents (txCap s.params .ch1) = s.txContents .ch1 ++ ((s.rxContents .ch0).take k0).map RxEntry.byte ∧
      tx0.contents (txCap s.params .ch0) = s.txContents .ch0 ++ ((s.rxContents .ch1).take k1).map RxEntry.byte

/-- R267, R192: PROCESS in Inventory empties RX0 through sync_byte, oldest entry first, at the command's one time
sample, the synchronizer reset before each GAP-tagged byte; of the frames completed, those whose CRC matches are
returned and counted in FRAMES, the others only counted in CRCERR. Channel 1 and everything else is unchanged. -/
def Obligations.ProcessInInventoryDrains : Prop :=
  ∀ s : State, s.Inv → s.fault = none → s.mode = .inventory →
    let r := Sync.runEntries s.params.syncTimeout s.now (s.rxContents .ch0) s.sync
    let good := r.2.filter crcVerify
    let bad := r.2.filter fun f => !crcVerify f
    ∃ rx : RingBuffer RxEntry,
      exec .process s = .next { s with
        ch0 := { s.ch0 with rx := { s.ch0.rx with ring := rx } }
        sync := { r.1 with frames := s.sync.frames + BitVec.ofNat 32 good.length
                           crcerr := s.sync.crcerr + BitVec.ofNat 32 bad.length }
        reply := some { code := .ok, value := BitVec.ofNat 32 good.length, data := [], tags := [], frames := good }
        cmdIndex := s.cmdIndex + 1 } ∧
      rx.contents (rxCap s.params .ch0) = []

/-- R268: REG.READ's word; it answers the register's value for 0x00 to 0x19, as R32 to R43 lay its bits out, and
InvalidParam with value 0 for a reserved index, and writes no state. -/
def Obligations.RegReadAnswersRegisterFile : Prop :=
  CommandWord 0x60#8 noPayload (fun _ imm => imm = 0#16) (fun sel _ _ => .regRead sel) ∧
  ∀ (s : State) (r : Byte), s.Inv → s.fault = none →
    (∀ v, (registerFile s)[r.toNat]? = some v →
      exec (.regRead r) s = .next { s with
        reply := some (Reply.ok (BitVec.ofNat 32 v)), cmdIndex := s.cmdIndex + 1 } ∧ v < 2 ^ 32) ∧
    (0x1A ≤ r.toNat →
      exec (.regRead r) s = .next { s with
        reply := some (Reply.error .invalidParam), cmdIndex := s.cmdIndex + 1 })

/-- R269, R39, R295: REG.WRITE's word. IRQEN takes the four enables of a value below 16; FLTWIN takes any value and
keeps the entries; FLTCAP takes 1 to FLT_MAX_CAP and clears the filter; any other value or index is InvalidParam and
changes nothing. -/
def Obligations.RegWriteWritesThreeRegisters : Prop :=
  CommandWord 0x61#8 (fun _ => 4) (fun _ imm => imm = 0x0004#16)
    (fun sel _ p => .regWrite sel (BitVec.ofNat 32 ((p.getD 0 0#8).toNat + 2 ^ 8 * (p.getD 1 0#8).toNat +
      2 ^ 16 * (p.getD 2 0#8).toNat + 2 ^ 24 * (p.getD 3 0#8).toNat))) ∧
  ∀ (s : State) (r : Byte) (v : Word), s.Inv → s.fault = none →
    (v.toNat < 16 →
      exec (.regWrite 0x01#8 v) s = .next { s with
        ch0 := { s.ch0 with rxie := v.getLsbD 0, txie := v.getLsbD 1 }
        ch1 := { s.ch1 with rxie := v.getLsbD 2, txie := v.getLsbD 3 }
        reply := some (Reply.ok 0#32), cmdIndex := s.cmdIndex + 1 }) ∧
    exec (.regWrite 0x05#8 v) s = .next { s with
      flt := { s.flt with win := v }, reply := some (Reply.ok 0#32), cmdIndex := s.cmdIndex + 1 } ∧
    (1 ≤ v.toNat → v.toNat ≤ s.params.fltMaxCap →
      exec (.regWrite 0x06#8 v) s = .next { s with
        flt := { s.flt with
          cap := v.toNat, entry := s.flt.entry.map (fun x => { x with valid := false }), next := 0, count := 0 }
        reply := some (Reply.ok 0#32), cmdIndex := s.cmdIndex + 1 }) ∧
    ((r ≠ 0x01#8 ∧ r ≠ 0x05#8 ∧ r ≠ 0x06#8) ∨ (r = 0x01#8 ∧ 16 ≤ v.toNat) ∨
        (r = 0x06#8 ∧ (v.toNat = 0 ∨ s.params.fltMaxCap < v.toNat)) →
      exec (.regWrite r v) s = .next { s with
        reply := some (Reply.error .invalidParam), cmdIndex := s.cmdIndex + 1 })

/-- R33, R322, R330: the only steps that change MODE are MODE.SET and RESET (to Idle). No step changes the parameters:
they are no state of the block (R6, R56) and RESET does not touch them (R350); that they are a field of State is the
model's choice (log 1). -/
def Obligations.OnlyModeSetAndResetChangeMode : Prop :=
  ∀ s t : State, step s = .next t →
    t.params = s.params ∧
    (t.mode ≠ s.mode →
      (∃ rest, s.inputs = .reset :: rest ∧ t.mode = .idle) ∨
      ∃ m, s.takes = some (.modeSet m) ∧ t.mode = (if m = 0#2 then .idle else if m = 1#2 then .bypass else .inventory))

/-- R35: the only steps that change the CRC register are CRC.INIT, CRC.BYTE, CRC.UPDATE and RESET. -/
def Obligations.OnlyCrcCommandsChangeCrc : Prop :=
  ∀ s t : State, step s = .next t → t.crc ≠ s.crc →
    (∃ rest, s.inputs = .reset :: rest) ∨ s.takes = some .crcInit ∨ (∃ b, s.takes = some (.crcByte b)) ∨
    ∃ p, s.takes = some (.crcUpdate p)

/-- R43: no step but RESET changes a statistics counter except as its rule says: FWDn by a Bypass PROCESS, OVRn by one
at a URXn byte, TXERRn by one at a FIFO.PUT to n, FRAMES and CRCERR by SYNC.FEED or an Inventory PROCESS, TAGACC and
TAGSUP by one at an FLT.CHECK, never both. -/
def Obligations.CountersHaveOneWriter : Prop :=
  ∀ (s t : State) (n : Chan), step s = .next t → (∀ rest, s.inputs ≠ .reset :: rest) →
    ((t.chan n).fwd ≠ (s.chan n).fwd → s.takes = some .process ∧ s.mode = .bypass) ∧
    ((t.chan n).ovr ≠ (s.chan n).ovr →
      (t.chan n).ovr = (s.chan n).ovr + 1#32 ∧ ∃ b rest, s.inputs = .urx n b :: rest) ∧
    ((t.chan n).txerr ≠ (s.chan n).txerr →
      (t.chan n).txerr = (s.chan n).txerr + 1#32 ∧ ∃ p, s.takes = some (.fifoPut n p)) ∧
    (t.sync.frames ≠ s.sync.frames ∨ t.sync.crcerr ≠ s.sync.crcerr →
      (∃ p, s.takes = some (.syncFeed p)) ∨ (s.takes = some .process ∧ s.mode = .inventory)) ∧
    (t.flt.tagacc ≠ s.flt.tagacc ∨ t.flt.tagsup ≠ s.flt.tagsup →
      (∃ e, s.takes = some (.fltCheck e)) ∧
      ((t.flt.tagacc = s.flt.tagacc + 1#32 ∧ t.flt.tagsup = s.flt.tagsup) ∨
        (t.flt.tagacc = s.flt.tagacc ∧ t.flt.tagsup = s.flt.tagsup + 1#32)))

/-! ## Filter -/

/-- R292, R290: FLT.CHECK's word. A held EPC seen less than the window ago is rejected and its time stamp kept; one
seen the window ago or longer is accepted and its time stamp refreshed in place; an EPC not held is accepted and takes
the next circular slot. TAGSUP or TAGACC counts the verdict. An EPC of no byte or over EPC_MAX is InvalidParam. -/
def Obligations.FltCheckVerdict : Prop :=
  CommandWord 0x40#8 countOf selZeroImmByte (fun _ _ p => .fltCheck p) ∧
  ∀ (s : State) (e : List Byte), s.Inv → s.fault = none →
    (e = [] ∨ s.params.epcMax < e.length →
      exec (.fltCheck e) s = .next { s with
        reply := some (Reply.error .invalidParam), cmdIndex := s.cmdIndex + 1 }) ∧
    (e ≠ [] → e.length ≤ s.params.epcMax →
      (∀ (i : Nat) (x : Slot), s.flt.entry[i]? = some x → x.valid = true → x.key = e →
        ((s.now - x.ts).toNat < s.flt.win.toNat →
          exec (.fltCheck e) s = .next { s with
            flt := { s.flt with tagsup := s.flt.tagsup + 1#32 }
            reply := some (Reply.ok 0#32), cmdIndex := s.cmdIndex + 1 }) ∧
        (s.flt.win.toNat ≤ (s.now - x.ts).toNat →
          exec (.fltCheck e) s = .next { s with
            flt := { s.flt with entry := s.flt.entry.set i { x with ts := s.now }, tagacc := s.flt.tagacc + 1#32 }
            reply := some (Reply.ok 1#32), cmdIndex := s.cmdIndex + 1 })) ∧
      ((∀ (i : Nat) (x : Slot), s.flt.entry[i]? = some x → x.valid = true → x.key ≠ e) →
        ∃ x : Slot, x.valid = true ∧ x.len.toNat = e.length ∧ x.key = e ∧ x.ts = s.now ∧
          exec (.fltCheck e) s = .next { s with
            flt := { s.flt with
              entry := s.flt.entry.set s.flt.next x, next := (s.flt.next + 1) % s.flt.cap
              count := min (s.flt.count + 1) s.flt.cap, tagacc := s.flt.tagacc + 1#32 }
            reply := some (Reply.ok 1#32), cmdIndex := s.cmdIndex + 1 }))

/-- R293, R291: FLT.CLEAR's word and effect: every slot invalid, next and count 0; the capacity, the window and the
counters kept. -/
def Obligations.FltClearEmptiesFilter : Prop :=
  CommandWord 0x41#8 noPayload bothZero (fun _ _ _ => .fltClear) ∧
  ∀ s : State, s.fault = none →
    exec .fltClear s = .next { s with
      flt := { s.flt with entry := s.flt.entry.map (fun x => { x with valid := false }), next := 0, count := 0 }
      reply := some (Reply.ok 0#32), cmdIndex := s.cmdIndex + 1 }

/-- R292, R294: once an EPC has been accepted, a check of it at a later sample is rejected exactly while less than the
window has passed since that accept: a reject does not prolong it. -/
def Obligations.AcceptedTagIsSuppressedForWindow : Prop :=
  ∀ (s t : State) (e : List Byte) (later : List Word) (last : Word), s.Inv → s.fault = none →
    exec (.fltCheck e) s = .next t → t.reply = some (Reply.ok 1#32) →
    (∀ w ∈ later, (w - s.now).toNat < t.flt.win.toNat) →
    ∃ u v, later.foldl (fun (o : Host.Outcome State Fault Refusal) w => match o with
        | .next x => exec (.fltCheck e) { x with now := w }
        | .fault r => .fault r
        | .refused r => .refused r) (.next t) = .next u ∧
      exec (.fltCheck e) { u with now := last } = .next v ∧
      v.reply = some (Reply.ok (if (last - s.now).toNat < t.flt.win.toNat then 0#32 else 1#32))

/-- R296 (c), (d): from an empty filter, check e1, then another EPC e2, then e1 again. e2 is accepted whatever e1's
state; e1 is rejected the second time exactly where its window still runs and the capacity is at least 2; with
capacity 1, e2 has evicted it and it is accepted at once. -/
def Obligations.InterleavedTagsAreIndependent : Prop :=
  ∀ (s : State) (e1 e2 : List Byte) (t1 t2 : Word), s.Inv → s.fault = none → s.flt.count = 0 → e1 ≠ e2 →
    e1 ≠ [] → e2 ≠ [] → e1.length ≤ s.params.epcMax → e2.length ≤ s.params.epcMax →
    ∃ a b c, exec (.fltCheck e1) s = .next a ∧ a.reply = some (Reply.ok 1#32) ∧
      exec (.fltCheck e2) { a with now := t1 } = .next b ∧ b.reply = some (Reply.ok 1#32) ∧
      exec (.fltCheck e1) { b with now := t2 } = .next c ∧
      c.reply = some (Reply.ok (if 2 ≤ s.flt.cap ∧ (t2 - s.now).toNat < s.flt.win.toNat then 0#32 else 1#32))

/-- R296 (b), D39: from an empty filter, checks of different EPCs leave exactly the last cap of them held: the slot
evicted is the one inserted longest ago. -/
def Obligations.FilterEvictsOldestInsertion : Prop :=
  ∀ (es : List (List Byte)) (s : State), s.Inv → s.fault = none → s.flt.count = 0 → es.Nodup →
    (∀ e ∈ es, e ≠ [] ∧ e.length ≤ s.params.epcMax) →
    ∃ t, execAll (es.map Instr.fltCheck) s = .next t ∧
      ∀ e, (∃ x ∈ t.flt.entry, x.valid = true ∧ x.key = e) ↔ e ∈ es.drop (es.length - s.flt.cap)

/-! ## Results -/

/-- R321, R322, R324: the result codes each command may return; an error result holds nothing but its code, but that
BufferOverflow, which only FIFO.PUT ch returns, holds TX(ch)'s free room; an error changes no state but TXERRch for
BufferOverflow and the fault condition for HazardFault. The command index advances with each (R31); that it does so
after a HazardFault too is the model's reading (log 10). -/
def Obligations.ErrorResultsChangeNothing : Prop :=
  ∀ (i : Instr) (s t : State), exec i s = .next t →
    ∃ r, t.reply = some r ∧ r.code ∈ codesOf i ∧
      (r.code ≠ .ok → r.data = [] ∧ r.tags = [] ∧ r.frames = [] ∧ (r.code ≠ .bufferOverflow → r.value = 0#32)) ∧
      (r.code = .invalidParam ∨ r.code = .wrongMode → t = { s with reply := some r, cmdIndex := s.cmdIndex + 1 }) ∧
      (r.code = .bufferOverflow → ∃ ch p, i = .fifoPut ch p ∧
        r.value = BitVec.ofNat 32 (txCap s.params ch - (s.txContents ch).length) ∧
        t = { s.setChan ch { s.chan ch with txerr := (s.chan ch).txerr + 1#32 } with
          reply := some r, cmdIndex := s.cmdIndex + 1 }) ∧
      (r.code = .hazardFault → (∃ q, i = .fifoFlush q) ∧
        t = { s with fault := some .hazardFlushLive, reply := some r, cmdIndex := s.cmdIndex + 1 })

/-- R124, R112, R192: only FIFO.GET fills tags, one per data byte; only SYNC.FEED and PROCESS fill frames; data has at
most 65535 bytes; and every frame returned has 1 ≤ Len ≤ 254, Len + 1 bytes, and a CRC that matches, as has the data
of a CRC.SEAL that answers OK. -/
def Obligations.ResultsAreWellFormed : Prop :=
  ∀ (i : Instr) (s t : State), s.Inv → exec i s = .next t →
    ∃ r, t.reply = some r ∧ r.data.length ≤ 65535 ∧
      (∀ ch n, i = .fifoGet ch n → r.tags.length = r.data.length) ∧
      ((∀ ch n, i ≠ .fifoGet ch n) → r.tags = []) ∧
      ((∀ p, i ≠ .syncFeed p) → i ≠ .process → r.frames = []) ∧
      (∀ f ∈ r.frames, frameLegal f = true) ∧
      (∀ p, i = .crcSeal p → r.code = .ok → frameLegal r.data = true)

/-! ## The whole machine -/

/-- R350, R57: RESET, in any state, FAULTED or not, leaves every state element R57 gives a value at that value; the
parameters and the bytes already sent stay. The state a model starts in has the same values. -/
def Obligations.ResetRestoresResetState : Prop :=
  (∀ p : Params, (State.resetWith p).IsReset ∧ (State.resetWith p).params = p) ∧
  ∀ (s : State) (rest : List Input), s.inputs = .reset :: rest →
    ∃ t, step s = .next t ∧ t.IsReset ∧ t.params = s.params ∧ t.inputs = rest ∧
      ∀ n, (t.chan n).wire = (s.chan n).wire

/-- R51, R53, R296 (a), R233 (a), R48, R49: every step, of any agent, keeps the invariants of the queues, the
synchronizer and the filter, from every state that has them. -/
def Obligations.StepKeepsInvariant : Prop :=
  ∀ s t : State, s.Inv → step s = .next t → t.Inv

/-- R57: the reset state of a block built with any legal parameters has the invariants. -/
def Obligations.ResetStateHasInvariant : Prop :=
  ∀ p : Params, p.Valid → (State.resetWith p).Inv

/-- R49, R55, R57: two states that differ only in the contents R57 leaves unspecified, and in where a queue's entries
lie in its storage, take the same step: the same stop, or next states that again differ in nothing a command can see.
No element reads an unspecified value. -/
def Obligations.UnspecifiedContentsNeverShow : Prop :=
  ∀ s t : State, s.Inv → t.Inv → s.view = t.view → viewOutcome (step s) = viewOutcome (step t)

/-- R324, R231, U3: a block enters the FAULTED condition only by a FIFO.FLUSH of a queue whose interrupt-side agent is
live, or by a transmit event that sends more than it claimed (U3, log 8), whose reason's name is the model's (log
28). -/
def Obligations.OnlyHazardsEnterFaulted : Prop :=
  ∀ s t : State, step s = .next t → s.fault = none → t.fault ≠ none →
    (t.fault = some .hazardFlushLive ∧ ∃ n : Chan,
      ((s.chan n).rxie = true ∧ s.takes = some (.fifoFlush (if n = .ch0 then .rx0 else .rx1))) ∨
      ((s.chan n).txie = true ∧ s.takes = some (.fifoFlush (if n = .ch0 then .tx0 else .tx1)))) ∨
    (t.fault = some .commitBeyondClaim ∧ ∃ n k j rest,
      s.inputs = .utx n k j :: rest ∧ (s.chan n).txie = true ∧ min k (s.chan n).tx.ring.count < j)
end

