-- ==== Sys2Proof/Laws/State.lean ====
section
/-! SUPPORT. What each named update of a state or of a unit does to each field, one small lemma a field, all by rfl; and
what asCommand, the shell of every command, can answer. Proofs cite these and never unfold a record update. -/

namespace Sys2Proof.Machine

/-! ## State.chan, State.setChan -/

@[simp] theorem State.chan_ch0 (s : State) : s.chan .ch0 = s.ch0 := rfl
@[simp] theorem State.chan_ch1 (s : State) : s.chan .ch1 = s.ch1 := rfl
@[simp] theorem State.setChan_ch0_params (s : State) (c : Channel) : (s.setChan .ch0 c).params = s.params := rfl
@[simp] theorem State.setChan_ch0_mode (s : State) (c : Channel) : (s.setChan .ch0 c).mode = s.mode := rfl
@[simp] theorem State.setChan_ch0_ch0 (s : State) (c : Channel) : (s.setChan .ch0 c).ch0 = c := rfl
@[simp] theorem State.setChan_ch0_ch1 (s : State) (c : Channel) : (s.setChan .ch0 c).ch1 = s.ch1 := rfl
@[simp] theorem State.setChan_ch0_crc (s : State) (c : Channel) : (s.setChan .ch0 c).crc = s.crc := rfl
@[simp] theorem State.setChan_ch0_sync (s : State) (c : Channel) : (s.setChan .ch0 c).sync = s.sync := rfl
@[simp] theorem State.setChan_ch0_flt (s : State) (c : Channel) : (s.setChan .ch0 c).flt = s.flt := rfl
@[simp] theorem State.setChan_ch0_fault (s : State) (c : Channel) : (s.setChan .ch0 c).fault = s.fault := rfl
@[simp] theorem State.setChan_ch0_cmdIndex (s : State) (c : Channel) : (s.setChan .ch0 c).cmdIndex = s.cmdIndex := rfl
@[simp] theorem State.setChan_ch0_now (s : State) (c : Channel) : (s.setChan .ch0 c).now = s.now := rfl
@[simp] theorem State.setChan_ch0_reply (s : State) (c : Channel) : (s.setChan .ch0 c).reply = s.reply := rfl
@[simp] theorem State.setChan_ch0_inputs (s : State) (c : Channel) : (s.setChan .ch0 c).inputs = s.inputs := rfl
@[simp] theorem State.setChan_ch1_params (s : State) (c : Channel) : (s.setChan .ch1 c).params = s.params := rfl
@[simp] theorem State.setChan_ch1_mode (s : State) (c : Channel) : (s.setChan .ch1 c).mode = s.mode := rfl
@[simp] theorem State.setChan_ch1_ch0 (s : State) (c : Channel) : (s.setChan .ch1 c).ch0 = s.ch0 := rfl
@[simp] theorem State.setChan_ch1_ch1 (s : State) (c : Channel) : (s.setChan .ch1 c).ch1 = c := rfl
@[simp] theorem State.setChan_ch1_crc (s : State) (c : Channel) : (s.setChan .ch1 c).crc = s.crc := rfl
@[simp] theorem State.setChan_ch1_sync (s : State) (c : Channel) : (s.setChan .ch1 c).sync = s.sync := rfl
@[simp] theorem State.setChan_ch1_flt (s : State) (c : Channel) : (s.setChan .ch1 c).flt = s.flt := rfl
@[simp] theorem State.setChan_ch1_fault (s : State) (c : Channel) : (s.setChan .ch1 c).fault = s.fault := rfl
@[simp] theorem State.setChan_ch1_cmdIndex (s : State) (c : Channel) : (s.setChan .ch1 c).cmdIndex = s.cmdIndex := rfl
@[simp] theorem State.setChan_ch1_now (s : State) (c : Channel) : (s.setChan .ch1 c).now = s.now := rfl
@[simp] theorem State.setChan_ch1_reply (s : State) (c : Channel) : (s.setChan .ch1 c).reply = s.reply := rfl
@[simp] theorem State.setChan_ch1_inputs (s : State) (c : Channel) : (s.setChan .ch1 c).inputs = s.inputs := rfl
@[simp] theorem State.setChan_params (s : State) (n : Chan) (c : Channel) : (s.setChan n c).params = s.params := by cases n <;> rfl
@[simp] theorem State.setChan_mode (s : State) (n : Chan) (c : Channel) : (s.setChan n c).mode = s.mode := by cases n <;> rfl
@[simp] theorem State.setChan_crc (s : State) (n : Chan) (c : Channel) : (s.setChan n c).crc = s.crc := by cases n <;> rfl
@[simp] theorem State.setChan_sync (s : State) (n : Chan) (c : Channel) : (s.setChan n c).sync = s.sync := by cases n <;> rfl
@[simp] theorem State.setChan_flt (s : State) (n : Chan) (c : Channel) : (s.setChan n c).flt = s.flt := by cases n <;> rfl
@[simp] theorem State.setChan_fault (s : State) (n : Chan) (c : Channel) : (s.setChan n c).fault = s.fault := by cases n <;> rfl
@[simp] theorem State.setChan_cmdIndex (s : State) (n : Chan) (c : Channel) : (s.setChan n c).cmdIndex = s.cmdIndex := by cases n <;> rfl
@[simp] theorem State.setChan_now (s : State) (n : Chan) (c : Channel) : (s.setChan n c).now = s.now := by cases n <;> rfl
@[simp] theorem State.setChan_reply (s : State) (n : Chan) (c : Channel) : (s.setChan n c).reply = s.reply := by cases n <;> rfl
@[simp] theorem State.setChan_inputs (s : State) (n : Chan) (c : Channel) : (s.setChan n c).inputs = s.inputs := by cases n <;> rfl
@[simp] theorem State.chan_setChan_self (s : State) (n : Chan) (c : Channel) : (s.setChan n c).chan n = c := by
  cases n <;> rfl
theorem State.chan_setChan_ne (s : State) {n m : Chan} (h : m ≠ n) (c : Channel) : (s.setChan n c).chan m = s.chan m := by
  cases n <;> cases m <;> first | rfl | exact absurd rfl h
@[simp] theorem State.setChan_chan (s : State) (n : Chan) : s.setChan n (s.chan n) = s := by cases n <;> rfl

/-! ## State.enterFaulted -/

@[simp] theorem State.enterFaulted_params (r : FaultReason) (s : State) : (s.enterFaulted r).params = s.params := rfl
@[simp] theorem State.enterFaulted_mode (r : FaultReason) (s : State) : (s.enterFaulted r).mode = s.mode := rfl
@[simp] theorem State.enterFaulted_ch0 (r : FaultReason) (s : State) : (s.enterFaulted r).ch0 = s.ch0 := rfl
@[simp] theorem State.enterFaulted_ch1 (r : FaultReason) (s : State) : (s.enterFaulted r).ch1 = s.ch1 := rfl
@[simp] theorem State.enterFaulted_crc (r : FaultReason) (s : State) : (s.enterFaulted r).crc = s.crc := rfl
@[simp] theorem State.enterFaulted_sync (r : FaultReason) (s : State) : (s.enterFaulted r).sync = s.sync := rfl
@[simp] theorem State.enterFaulted_flt (r : FaultReason) (s : State) : (s.enterFaulted r).flt = s.flt := rfl
@[simp] theorem State.enterFaulted_cmdIndex (r : FaultReason) (s : State) : (s.enterFaulted r).cmdIndex = s.cmdIndex := rfl
@[simp] theorem State.enterFaulted_now (r : FaultReason) (s : State) : (s.enterFaulted r).now = s.now := rfl
@[simp] theorem State.enterFaulted_reply (r : FaultReason) (s : State) : (s.enterFaulted r).reply = s.reply := rfl
@[simp] theorem State.enterFaulted_inputs (r : FaultReason) (s : State) : (s.enterFaulted r).inputs = s.inputs := rfl
@[simp] theorem State.enterFaulted_fault (r : FaultReason) (s : State) : (s.enterFaulted r).fault = some r := rfl
@[simp] theorem State.enterFaulted_chan (r : FaultReason) (s : State) (n : Chan) : (s.enterFaulted r).chan n = s.chan n := by
  cases n <;> rfl

/-! ## State.returns -/

@[simp] theorem State.returns_params (s : State) (r : Reply) : (s.returns r).params = s.params := rfl
@[simp] theorem State.returns_mode (s : State) (r : Reply) : (s.returns r).mode = s.mode := rfl
@[simp] theorem State.returns_ch0 (s : State) (r : Reply) : (s.returns r).ch0 = s.ch0 := rfl
@[simp] theorem State.returns_ch1 (s : State) (r : Reply) : (s.returns r).ch1 = s.ch1 := rfl
@[simp] theorem State.returns_crc (s : State) (r : Reply) : (s.returns r).crc = s.crc := rfl
@[simp] theorem State.returns_sync (s : State) (r : Reply) : (s.returns r).sync = s.sync := rfl
@[simp] theorem State.returns_flt (s : State) (r : Reply) : (s.returns r).flt = s.flt := rfl
@[simp] theorem State.returns_fault (s : State) (r : Reply) : (s.returns r).fault = s.fault := rfl
@[simp] theorem State.returns_cmdIndex (s : State) (r : Reply) : (s.returns r).cmdIndex = s.cmdIndex + 1 := rfl
@[simp] theorem State.returns_now (s : State) (r : Reply) : (s.returns r).now = s.now := rfl
@[simp] theorem State.returns_reply (s : State) (r : Reply) : (s.returns r).reply = some r := rfl
@[simp] theorem State.returns_inputs (s : State) (r : Reply) : (s.returns r).inputs = s.inputs := rfl
@[simp] theorem State.chan_returns (s : State) (r : Reply) (n : Chan) : (s.returns r).chan n = s.chan n := by cases n <;> rfl
theorem State.returns_eq (s : State) (r : Reply) : s.returns r = { s with reply := some r, cmdIndex := s.cmdIndex + 1 } := rfl

/-! ## Channel updates -/

@[simp] theorem Channel.pause_rxie (c : Channel) : c.pause.rxie = false := rfl
@[simp] theorem Channel.pause_txie (c : Channel) : c.pause.txie = false := rfl
@[simp] theorem Channel.pause_rx (c : Channel) : c.pause.rx = c.rx := rfl
@[simp] theorem Channel.pause_tx (c : Channel) : c.pause.tx = c.tx := rfl
@[simp] theorem Channel.pause_wire (c : Channel) : c.pause.wire = c.wire := rfl
@[simp] theorem Channel.pause_fwd (c : Channel) : c.pause.fwd = c.fwd := rfl
@[simp] theorem Channel.pause_ovr (c : Channel) : c.pause.ovr = c.ovr := rfl
@[simp] theorem Channel.pause_txerr (c : Channel) : c.pause.txerr = c.txerr := rfl
@[simp] theorem Channel.resume_rxie (c : Channel) : c.resume.rxie = true := rfl
@[simp] theorem Channel.resume_txie (c : Channel) : c.resume.txie = c.txie := rfl
@[simp] theorem Channel.resume_rx (c : Channel) : c.resume.rx = c.rx := rfl
@[simp] theorem Channel.resume_tx (c : Channel) : c.resume.tx = c.tx := rfl
@[simp] theorem Channel.resume_wire (c : Channel) : c.resume.wire = c.wire := rfl
@[simp] theorem Channel.resume_fwd (c : Channel) : c.resume.fwd = c.fwd := rfl
@[simp] theorem Channel.resume_ovr (c : Channel) : c.resume.ovr = c.ovr := rfl
@[simp] theorem Channel.resume_txerr (c : Channel) : c.resume.txerr = c.txerr := rfl
@[simp] theorem Channel.flushBoth_rxie (c : Channel) : c.flushBoth.rxie = c.rxie := rfl
@[simp] theorem Channel.flushBoth_txie (c : Channel) : c.flushBoth.txie = c.txie := rfl
@[simp] theorem Channel.flushBoth_rx (c : Channel) : c.flushBoth.rx = c.rx.flush := rfl
@[simp] theorem Channel.flushBoth_tx (c : Channel) : c.flushBoth.tx = c.tx.flush := rfl
@[simp] theorem Channel.flushBoth_wire (c : Channel) : c.flushBoth.wire = c.wire := rfl
@[simp] theorem Channel.flushBoth_fwd (c : Channel) : c.flushBoth.fwd = c.fwd := rfl
@[simp] theorem Channel.flushBoth_ovr (c : Channel) : c.flushBoth.ovr = c.ovr := rfl
@[simp] theorem Channel.flushBoth_txerr (c : Channel) : c.flushBoth.txerr = c.txerr := rfl
@[simp] theorem Channel.reset_rxie (c : Channel) : c.reset.rxie = false := rfl
@[simp] theorem Channel.reset_txie (c : Channel) : c.reset.txie = false := rfl
@[simp] theorem Channel.reset_rx (c : Channel) : c.reset.rx = c.rx.flush := rfl
@[simp] theorem Channel.reset_tx (c : Channel) : c.reset.tx = c.tx.flush := rfl
@[simp] theorem Channel.reset_wire (c : Channel) : c.reset.wire = c.wire := rfl
@[simp] theorem Channel.reset_fwd (c : Channel) : c.reset.fwd = 0#32 := rfl
@[simp] theorem Channel.reset_ovr (c : Channel) : c.reset.ovr = 0#32 := rfl
@[simp] theorem Channel.reset_txerr (c : Channel) : c.reset.txerr = 0#32 := rfl
@[simp] theorem RxQueue.flush_ring (q : RxQueue) : q.flush.ring = q.ring.flush := rfl
@[simp] theorem RxQueue.flush_gapPending (q : RxQueue) : q.flush.gapPending = false := rfl
@[simp] theorem TxQueue.flush_ring (q : TxQueue) : q.flush.ring = q.ring.flush := rfl
@[simp] theorem TxQueue.flush_claimLen (q : TxQueue) : q.flush.claimLen = 0 := rfl
@[simp] theorem RingBuffer.flush_mem {α : Type} (r : RingBuffer α) : r.flush.mem = r.mem := rfl
@[simp] theorem RingBuffer.flush_head {α : Type} (r : RingBuffer α) : r.flush.head = 0 := rfl
@[simp] theorem RingBuffer.flush_tail {α : Type} (r : RingBuffer α) : r.flush.tail = 0 := rfl
@[simp] theorem RingBuffer.flush_count {α : Type} (r : RingBuffer α) : r.flush.count = 0 := rfl

/-! ## Synchronizer and filter updates -/

@[simp] theorem Sync.reset_state (y : Sync) : y.reset.state = .waitLength := rfl
@[simp] theorem Sync.reset_buf (y : Sync) : y.reset.buf = y.buf := rfl
@[simp] theorem Sync.reset_expected (y : Sync) : y.reset.expected = 0#8 := rfl
@[simp] theorem Sync.reset_received (y : Sync) : y.reset.received = 0#8 := rfl
@[simp] theorem Sync.reset_last (y : Sync) : y.reset.last = y.last := rfl
@[simp] theorem Sync.reset_frames (y : Sync) : y.reset.frames = y.frames := rfl
@[simp] theorem Sync.reset_crcerr (y : Sync) : y.reset.crcerr = y.crcerr := rfl
@[simp] theorem TagFilter.clear_next (f : TagFilter) : f.clear.next = 0 := rfl
@[simp] theorem TagFilter.clear_count (f : TagFilter) : f.clear.count = 0 := rfl
@[simp] theorem TagFilter.clear_cap (f : TagFilter) : f.clear.cap = f.cap := rfl
@[simp] theorem TagFilter.clear_win (f : TagFilter) : f.clear.win = f.win := rfl
@[simp] theorem TagFilter.clear_tagacc (f : TagFilter) : f.clear.tagacc = f.tagacc := rfl
@[simp] theorem TagFilter.clear_tagsup (f : TagFilter) : f.clear.tagsup = f.tagsup := rfl
@[simp] theorem TagFilter.clear_entry (f : TagFilter) :
    f.clear.entry = f.entry.map fun x => { x with valid := false } := rfl

/-! ## MODE.SET's loops over the affected channels -/

@[simp] theorem onAffected_params (a b : Mode) (g : Channel → Channel) (s : State) :
    (onAffected a b g s).params = s.params := rfl
@[simp] theorem onAffected_mode (a b : Mode) (g : Channel → Channel) (s : State) :
    (onAffected a b g s).mode = s.mode := rfl
@[simp] theorem onAffected_crc (a b : Mode) (g : Channel → Channel) (s : State) :
    (onAffected a b g s).crc = s.crc := rfl
@[simp] theorem onAffected_sync (a b : Mode) (g : Channel → Channel) (s : State) :
    (onAffected a b g s).sync = s.sync := rfl
@[simp] theorem onAffected_flt (a b : Mode) (g : Channel → Channel) (s : State) :
    (onAffected a b g s).flt = s.flt := rfl
@[simp] theorem onAffected_fault (a b : Mode) (g : Channel → Channel) (s : State) :
    (onAffected a b g s).fault = s.fault := rfl
@[simp] theorem onAffected_cmdIndex (a b : Mode) (g : Channel → Channel) (s : State) :
    (onAffected a b g s).cmdIndex = s.cmdIndex := rfl
@[simp] theorem onAffected_now (a b : Mode) (g : Channel → Channel) (s : State) :
    (onAffected a b g s).now = s.now := rfl
@[simp] theorem onAffected_reply (a b : Mode) (g : Channel → Channel) (s : State) :
    (onAffected a b g s).reply = s.reply := rfl
@[simp] theorem onAffected_inputs (a b : Mode) (g : Channel → Channel) (s : State) :
    (onAffected a b g s).inputs = s.inputs := rfl
/-- An affected channel is updated, any other is kept (R262). -/
@[simp] theorem onAffected_chan (a b : Mode) (g : Channel → Channel) (s : State) (n : Chan) :
    (onAffected a b g s).chan n = if affected a b n then g (s.chan n) else s.chan n := by cases n <;> rfl

/-! ## RESET -/

@[simp] theorem resetBlock_params (s : State) : (resetBlock s).params = s.params := rfl
@[simp] theorem resetBlock_mode (s : State) : (resetBlock s).mode = .idle := rfl
@[simp] theorem resetBlock_ch0 (s : State) : (resetBlock s).ch0 = s.ch0.reset := rfl
@[simp] theorem resetBlock_ch1 (s : State) : (resetBlock s).ch1 = s.ch1.reset := rfl
@[simp] theorem resetBlock_crc (s : State) : (resetBlock s).crc = 0xFFFF#16 := rfl
@[simp] theorem resetBlock_fault (s : State) : (resetBlock s).fault = none := rfl
@[simp] theorem resetBlock_cmdIndex (s : State) : (resetBlock s).cmdIndex = 0 := rfl
@[simp] theorem resetBlock_now (s : State) : (resetBlock s).now = s.now := rfl
@[simp] theorem resetBlock_reply (s : State) : (resetBlock s).reply = s.reply := rfl
@[simp] theorem resetBlock_inputs (s : State) : (resetBlock s).inputs = s.inputs := rfl

/-! ## Queue contents over channel updates -/

theorem State.rxContents_of_chan {s t : State} {n : Chan} (hp : t.params = s.params) (h : t.chan n = s.chan n) :
    t.rxContents n = s.rxContents n := by simp [State.rxContents, hp, h]

theorem State.txContents_of_chan {s t : State} {n : Chan} (hp : t.params = s.params) (h : t.chan n = s.chan n) :
    t.txContents n = s.txContents n := by simp [State.txContents, hp, h]

/-! ## The shell of a command -/

/-- A command of a block that is not FAULTED answers its effect's state and result. -/
theorem asCommand_live {s : State} (h : s.fault = none) (e : State × Reply) :
    asCommand s e = .next (e.1.returns e.2) := by simp [asCommand, h]

/-- A command in the FAULTED condition has no step (R324). -/
theorem asCommand_faulted {s : State} (h : s.fault ≠ none) (e : State × Reply) : asCommand s e = .fault .faulted := by
  simp [asCommand, Option.isSome_iff_ne_none, h]

/-- Where a command answers a next state, the block was not FAULTED and the state is the effect's with its result. -/
theorem asCommand_next {s t : State} {e : State × Reply} (h : asCommand s e = .next t) :
    s.fault = none ∧ t = e.1.returns e.2 := by
  by_cases hf : s.fault = none
  · rw [asCommand_live hf] at h
    exact ⟨hf, by injection h with h; exact h.symm⟩
  · rw [asCommand_faulted hf] at h
    cases h

end Sys2Proof.Machine
end

