-- ==== Sys2Proof/Laws/Crc.lean ====
section
/-! SUPPORT. What the CRC primitives do (40_crc.md R160-R162): the fold over concatenations, the check of a sequence with
two bytes after it, and that a CRC step loses nothing: it is injective in the register, and in the byte. -/

namespace Sys2Proof.Machine

@[simp] theorem crcFold_nil (c : Half) : crcFold c [] = c := rfl
@[simp] theorem crcFold_cons (c : Half) (b : Byte) (s : List Byte) : crcFold c (b :: s) = crcFold (crcStep c b) s := rfl
theorem crcFold_append (c : Half) (s t : List Byte) : crcFold c (s ++ t) = crcFold (crcFold c s) t := by
  simp [crcFold, List.foldl_append]
@[simp] theorem crcOf_nil : crcOf [] = 0xFFFF#16 := rfl
theorem crcOf_append (s t : List Byte) : crcOf (s ++ t) = crcFold (crcOf s) t := crcFold_append _ _ _

/-! ## The check -/

/-- Two bytes, low first, as a number. -/
theorem toNat_leHalf (lo hi : Byte) : (leHalf lo hi).toNat = lo.toNat + 256 * hi.toNat := by
  have h1 := lo.isLt
  have h2 := hi.isLt
  have h3 : hi.toNat <<< 8 = 2 ^ 8 * hi.toNat := by rw [Nat.shiftLeft_eq, Nat.mul_comm]
  have h4 : hi.toNat <<< 8 % 65536 = 2 ^ 8 * hi.toNat := by rw [h3]; exact Nat.mod_eq_of_lt (by omega)
  simp only [leHalf, BitVec.toNat_or, BitVec.toNat_shiftLeft, BitVec.toNat_setWidth]
  rw [Nat.mod_eq_of_lt (by omega : lo.toNat < 2 ^ 16), Nat.mod_eq_of_lt (by omega : hi.toNat < 2 ^ 16), h4, Nat.or_comm,
    ← Nat.two_pow_add_eq_or_of_lt (by omega : lo.toNat < 2 ^ 8)]
  omega

/-- A half-word is its two bytes, low first. -/
theorem leHalf_bytes (c : Half) : leHalf (c.extractLsb' 0 8) (c.extractLsb' 8 8) = c := by
  apply BitVec.eq_of_toNat_eq
  rw [toNat_leHalf]
  simp only [BitVec.extractLsb'_toNat, Nat.shiftRight_eq_div_pow]
  have := c.isLt
  omega

/-- The check of a sequence with two bytes after it (R162). -/
theorem crcVerify_append (s : List Byte) (lo hi : Byte) :
    crcVerify (s ++ [lo, hi]) = (crcOf s == leHalf lo hi) := by
  have h1 : (s ++ [lo, hi]).length = s.length + 2 := by simp
  have h2 : ¬ s.length + 2 < 2 := by omega
  simp only [crcVerify, h1, if_neg h2, Nat.add_sub_cancel]
  have a : (s ++ [lo, hi]).take s.length = s := by simp
  have b : (s ++ [lo, hi]).getD s.length 0#8 = lo := by simp
  have c : (s ++ [lo, hi]).getD (s.length + 2 - 1) 0#8 = hi := by
    rw [show s.length + 2 - 1 = s.length + 1 by omega]
    simp
  rw [a, b, c]

/-- A sealed frame is Len = m + 2, the m bytes, and the CRC of both (R168). -/
theorem sealFrame_eq (p : List Byte) :
    sealFrame p = (BitVec.ofNat 8 (p.length + 2) :: p) ++ crcBytes (crcOf (BitVec.ofNat 8 (p.length + 2) :: p)) := rfl

@[simp] theorem length_sealFrame (p : List Byte) : (sealFrame p).length = p.length + 3 := by
  simp [sealFrame, crcBytes]

/-- A sealed frame verifies (R169). -/
theorem crcVerify_sealFrame (p : List Byte) : crcVerify (sealFrame p) = true := by
  rw [sealFrame_eq, crcBytes, crcVerify_append, leHalf_bytes]
  simp

/-! ## Nothing is lost in a step -/

/-- The top bit after a shift is the low bit before it: 0x8408 has bit 15. -/
theorem crcShift_top (c : Half) : (crcShift c).getLsbD 15 = c.getLsbD 0 := by
  unfold crcShift
  cases c.getLsbD 0
  · simp
  · simp

theorem crcShift_injective {c d : Half} (h : crcShift c = crcShift d) : c = d := by
  have h0 : c.getLsbD 0 = d.getLsbD 0 := by rw [← crcShift_top, h, crcShift_top]
  have hs : c >>> 1 = d >>> 1 := by
    unfold crcShift at h
    rw [h0] at h
    cases hd : d.getLsbD 0 with
    | false => simpa only [hd, Bool.false_eq_true, if_false] using h
    | true =>
      simp only [hd, if_true] at h
      have := congrArg (· ^^^ 0x8408#16) h
      simpa [BitVec.xor_assoc] using this
  apply BitVec.eq_of_getLsbD_eq
  intro i hi
  cases i with
  | zero => exact h0
  | succ i =>
    have := congrArg (fun x : Half => x.getLsbD i) hs
    simpa [BitVec.getLsbD_ushiftRight, Nat.add_comm 1 i] using this

theorem crcShifts_injective (n : Nat) {c d : Half} (h : crcShifts n c = crcShifts n d) : c = d := by
  induction n generalizing c d with
  | zero => exact h
  | succ n ih => exact crcShift_injective (ih h)

/-- Different registers stay different over the same byte. -/
theorem crcStep_injective_register {c d : Half} {b : Byte} (h : crcStep c b = crcStep d b) : c = d := by
  have := congrArg (· ^^^ b.setWidth 16) (crcShifts_injective 8 h)
  simpa [BitVec.xor_assoc] using this

/-- Different bytes make different registers. -/
theorem crcStep_injective_byte {c : Half} {a b : Byte} (h : crcStep c a = crcStep c b) : a = b := by
  have h1 : a.setWidth 16 = b.setWidth 16 := by
    have := congrArg (c ^^^ ·) (crcShifts_injective 8 h)
    simpa [← BitVec.xor_assoc] using this
  apply BitVec.eq_of_toNat_eq
  have := congrArg BitVec.toNat h1
  have h2 := a.isLt
  have h3 := b.isLt
  simp only [BitVec.toNat_setWidth] at this
  rwa [Nat.mod_eq_of_lt (by omega), Nat.mod_eq_of_lt (by omega)] at this

/-- Different registers stay different over the same bytes. -/
theorem crcFold_injective (s : List Byte) {c d : Half} (h : crcFold c s = crcFold d s) : c = d := by
  induction s generalizing c d with
  | nil => exact h
  | cons b s ih => exact crcStep_injective_register (ih h)

end Sys2Proof.Machine
end

