-- ==== Sys2Proof/Laws/Decode.lean ====
section
/-! SUPPORT. The command word's fields and its serial form (30_encoding.md R121, R123): taking apart what was put
together, and the other way round. -/

namespace Sys2Proof

@[simp] theorem opcField_mkWord (opc sel : Byte) (imm : Half) : opcField (mkWord opc sel imm) = opc := by
  apply BitVec.eq_of_getLsbD_eq
  intro i hi
  simp only [opcField, mkWord, BitVec.getLsbD_extractLsb', BitVec.getLsbD_append]
  have a : ¬ 24 + i - 16 < 8 := by omega
  have b : ¬ 24 + i < 16 := by omega
  simp [hi, a, b, show 24 + i - 16 - 8 = i by omega]

@[simp] theorem selField_mkWord (opc sel : Byte) (imm : Half) : selField (mkWord opc sel imm) = sel := by
  apply BitVec.eq_of_getLsbD_eq
  intro i hi
  simp only [selField, mkWord, BitVec.getLsbD_extractLsb', BitVec.getLsbD_append]
  simp [hi]

@[simp] theorem immField_mkWord (opc sel : Byte) (imm : Half) : immField (mkWord opc sel imm) = imm := by
  apply BitVec.eq_of_getLsbD_eq
  intro i hi
  simp only [immField, mkWord, BitVec.getLsbD_extractLsb', BitVec.getLsbD_append]
  simp [hi]

/-- A word is its three fields (R121). -/
theorem mkWord_fields (w : Word) : mkWord (opcField w) (selField w) (immField w) = w := by
  apply BitVec.eq_of_getLsbD_eq
  intro i hi
  simp only [opcField, selField, immField, mkWord, BitVec.getLsbD_extractLsb', BitVec.getLsbD_append]
  by_cases h1 : i < 16
  · simp [h1]
  · by_cases h2 : i < 24
    · have : i - 16 < 8 := by omega
      simp [h1, this, show 16 + (i - 16) = i by omega]
    · have a : ¬ i - 16 < 8 := by omega
      have b : i - 16 - 8 < 8 := by omega
      simp [h1, a, b, show 24 + (i - 16 - 8) = i by omega]

/-- A word is its four bytes, low byte first (R83, R123). -/
theorem wordOfBytes_wordByte (v : Word) :
    wordOfBytes (wordByte v 0) (wordByte v 1) (wordByte v 2) (wordByte v 3) = v := by
  apply BitVec.eq_of_getLsbD_eq
  intro i hi
  simp only [wordOfBytes, wordByte, BitVec.getLsbD_extractLsb', BitVec.getLsbD_append]
  by_cases h1 : i < 8
  · simp [h1]
  · by_cases h2 : i < 16
    · have : i - 8 < 8 := by omega
      simp [h1, this, show 8 + (i - 8) = i by omega]
    · by_cases h3 : i < 24
      · have a : ¬ i - 8 < 8 := by omega
        have b : i - 8 - 8 < 8 := by omega
        simp [h1, a, b, show 16 + (i - 8 - 8) = i by omega]
      · have a : ¬ i - 8 < 8 := by omega
        have b : ¬ i - 8 - 8 < 8 := by omega
        have c : i - 8 - 8 - 8 < 8 := by omega
        simp [h1, a, b, c, show 24 + (i - 8 - 8 - 8) = i by omega]

/-- The bytes of a word made of four bytes are those bytes. -/
theorem wordBytes_wordOfBytes (b0 b1 b2 b3 : Byte) : wordBytes (wordOfBytes b0 b1 b2 b3) = [b0, b1, b2, b3] := by
  have key : ∀ k, k < 4 → wordByte (wordOfBytes b0 b1 b2 b3) k = [b0, b1, b2, b3].getD k 0#8 := by
    intro k hk
    apply BitVec.eq_of_getLsbD_eq
    intro i hi
    simp only [wordOfBytes, wordByte, BitVec.getLsbD_extractLsb', BitVec.getLsbD_append]
    obtain rfl | rfl | rfl | rfl : k = 0 ∨ k = 1 ∨ k = 2 ∨ k = 3 := by omega
    · simp [hi]
    · have a : ¬ 8 + i < 8 := by omega
      simp [hi]
    · have a : ¬ 16 + i < 8 := by omega
      have b : ¬ 16 + i - 8 < 8 := by omega
      simp [hi, a, b, show 16 + i - 8 - 8 = i by omega]
    · have a : ¬ 24 + i < 8 := by omega
      have b : ¬ 24 + i - 8 < 8 := by omega
      have c : ¬ 24 + i - 8 - 8 < 8 := by omega
      simp [hi, a, b, c, show 24 + i - 8 - 8 - 8 = i by omega]
  simp [wordBytes, key]

/-- The serial form of a word and its payload decodes as that word and payload. -/
@[simp] theorem decode_serial (w : Word) (p : List Byte) : decode (serial w p) = decodeCommand w p := by
  simp [serial, wordBytes, decode, wordOfBytes_wordByte]

/-- Bytes that decode to a command or an illegal word are a word and its PLEN(w) payload bytes (R119, R123). -/
theorem serial_of_decode {bytes : List Byte} (h : ∀ why, decode bytes ≠ .notCommand why) :
    ∃ w p, bytes = serial w p ∧ p.length = plen w ∧ decode bytes = decodeWord w p := by
  match bytes, h with
  | [], h => exact absurd rfl (h _)
  | [_], h => exact absurd rfl (h _)
  | [_, _], h => exact absurd rfl (h _)
  | [_, _, _], h => exact absurd rfl (h _)
  | b0 :: b1 :: b2 :: b3 :: p, h =>
    refine ⟨wordOfBytes b0 b1 b2 b3, p, ?_, ?_, ?_⟩
    · simp [serial, wordBytes_wordOfBytes]
    · by_contra hp
      exact h .payloadLength (by simp [decode, decodeCommand, hp])
    · by_cases hp : p.length = plen (wordOfBytes b0 b1 b2 b3)
      · simp [decode, decodeCommand, hp]
      · exact absurd (by simp [decode, decodeCommand, hp]) (h .payloadLength)

/-- No two operations of the opcode map share a code (R125). -/
theorem Op.code_injective : ∀ a b : Op, a.row.code = b.row.code → a = b := by
  intro a b
  cases a <;> cases b <;> decide

/-- The code of an operation says that operation. -/
@[simp] theorem Op.ofCode_code (o : Op) : Op.ofCode o.row.code = some o := by cases o <;> decide

/-- A code that says an operation is that operation's. -/
theorem Op.code_of_ofCode {c : Byte} {o : Op} (h : Op.ofCode c = some o) : o.row.code = c := by
  have := List.find?_some h
  simpa using this

/-- The payload length of a word with an operation's code (R122). -/
theorem plen_mkWord (o : Op) (sel : Byte) (imm : Half) :
    plen (mkWord o.row.code sel imm) =
      match o.row.payload with
      | .none => 0
      | .counted => imm.toNat % 256
      | .four => 4 := by
  cases o <;> simp only [plen, opcField_mkWord, immField_mkWord, Op.row, BitVec.extractLsb'_toNat,
    Nat.shiftRight_zero] <;> rfl

/-- A word with an operation's code decodes by that operation's row (R125, R127). -/
theorem decodeWord_mkWord (o : Op) (sel : Byte) (imm : Half) (p : List Byte) :
    decodeWord (mkWord o.row.code sel imm) p =
      if o.row.selLegal sel = true then
        if o.row.immLegal imm = true then .instr (o.instr sel imm p) else .illegal .immediate
      else .illegal .selector := by
  simp only [decodeWord, opcField_mkWord, selField_mkWord, immField_mkWord, Op.ofCode_code]
  cases o.row.selLegal sel <;> cases o.row.immLegal imm <;> rfl

/-- IMM[7:0] of a payload's count is its length (R122). -/
theorem countImm_low {p : List Byte} (h : payloadFits p) : (countImm p).toNat % 256 = p.length := by
  have h : p.length ≤ 255 := h
  simp only [countImm, BitVec.toNat_ofNat]
  omega

/-- PLEN of a command's own word, by its operation's row. -/
theorem plen_encodeWord (i : Instr) :
    plen (encodeWord i) =
      match i.op.row.payload with
      | .none => 0
      | .counted => i.imm.toNat % 256
      | .four => 4 := plen_mkWord i.op i.sel i.imm

/-- A field with no bit outside its low k bits is below 2^k. -/
theorem outsideZero_iff {n : Nat} (k : Nat) (x : BitVec n) :
    x &&& ~~~BitVec.ofNat n (2 ^ k - 1) = 0#n ↔ x.toNat < 2 ^ k := by
  have mask : ∀ i, i < n → (x &&& ~~~BitVec.ofNat n (2 ^ k - 1)).getLsbD i = (x.toNat.testBit i && !decide (i < k)) := by
    intro i hi
    rw [BitVec.getLsbD_and, BitVec.getLsbD_not, BitVec.getLsbD_ofNat, Nat.testBit_two_pow_sub_one]
    simp only [hi, decide_true, Bool.true_and]
    rfl
  constructor
  · intro h
    apply Nat.lt_pow_two_of_testBit
    intro i hi
    by_cases hn : i < n
    · have := mask i hn
      rw [h] at this
      simpa [hi, Nat.not_lt.2 hi] using this.symm
    · exact Nat.testBit_lt_two_pow (lt_of_lt_of_le x.isLt (Nat.pow_le_pow_right (by omega) (by omega)))
  · intro h
    apply BitVec.eq_of_getLsbD_eq
    intro i hi
    rw [mask i hi, BitVec.getLsbD_zero]
    by_cases hk : i < k
    · simp [hk]
    · rw [Nat.testBit_lt_two_pow (lt_of_lt_of_le h (Nat.pow_le_pow_right (by omega) (by omega))), Bool.false_and]

/-- IMM[15:8] = 0, as a bound on IMM (R125). -/
theorem highByteZero_iff (imm : Half) : imm &&& ~~~0x00FF#16 = 0#16 ↔ imm.toNat < 256 := outsideZero_iff 8 imm

/-- A fitting payload's count is a legal IMM of a "P" row (R122, R125). -/
theorem countImm_lt {p : List Byte} (h : payloadFits p) : (countImm p).toNat < 256 := by
  have h : p.length ≤ 255 := h
  simp only [countImm, BitVec.toNat_ofNat]
  omega

/-- A legal IMM of a "P" row is the count of a payload that has IMM[7:0] bytes (R122). -/
theorem countImm_of_length {imm : Half} {p : List Byte} (h : imm.toNat < 256) (hp : p.length = imm.toNat % 256) :
    payloadFits p ∧ countImm p = imm := by
  rw [Nat.mod_eq_of_lt h] at hp
  exact ⟨show p.length ≤ 255 by omega, by simp [countImm, hp]⟩

end Sys2Proof
end

