-- ==== Sys2Proof/Laws/Filter.lean ====
section
/-! SUPPORT. What the filter's primitives do (44_filter.md R290-R292): which slot a lookup finds, what a check answers,
and that clearing and checking keep the invariants (R53, R296). -/

namespace Sys2Proof.Machine

/-! ## Slots -/

/-- match(i, E) (R290), for a slot whose epc has EPC_MAX bytes: the slot is valid and holds E. -/
theorem Slot.holds_iff {E : List Byte} {x : Slot} {n : Nat} (hx : x.epc.length = n)
    (hv : x.valid = true → x.len.toNat ≤ n) :
    x.holds E = true ↔ x.valid = true ∧ x.key = E := by
  simp only [Slot.holds, Slot.key, Bool.and_eq_true, beq_iff_eq]
  constructor
  · rintro ⟨⟨h1, h2⟩, h3⟩
    exact ⟨h1, by rw [h2, h3]⟩
  · rintro ⟨h1, h2⟩
    have hl : x.len.toNat = E.length := by
      have := congrArg List.length h2
      rw [List.length_take, hx, Nat.min_eq_left (hv h1)] at this
      exact this
    exact ⟨⟨h1, hl⟩, by rw [← hl, h2]⟩

/-- A refilled slot holds E. -/
theorem Slot.fill_spec (E : List Byte) (t : Word) (x : Slot) (hE : E.length ≤ 255) :
    (Slot.fill E t x).valid = true ∧ (Slot.fill E t x).len.toNat = E.length ∧ (Slot.fill E t x).key = E ∧
      (Slot.fill E t x).ts = t := by
  have hl : (BitVec.ofNat 8 E.length).toNat = E.length := by
    rw [BitVec.toNat_ofNat, Nat.mod_eq_of_lt (by omega)]
  exact ⟨rfl, hl, by simp [Slot.key, Slot.fill, hl], rfl⟩

/-- A refilled slot's epc keeps its EPC_MAX bytes. -/
theorem Slot.fill_length {E : List Byte} {t : Word} {x : Slot} {n : Nat} (hx : x.epc.length = n) (hE : E.length ≤ n) :
    (Slot.fill E t x).epc.length = n := by
  simp only [Slot.fill, List.length_append, List.length_drop, hx]
  omega

/-! ## The invariants -/

theorem TagFilter.wf_clear {p : Params} {f : TagFilter} (w : f.Wf p) : f.clear.Wf p where
  length := by simpa using w.length
  capPos := w.capPos
  capMax := w.capMax
  count := Nat.zero_le _
  next := w.capPos
  filling _ := rfl
  valid i x h := by
    simp only [TagFilter.clear_entry, List.getElem?_map, Option.map_eq_some_iff] at h
    obtain ⟨y, -, rfl⟩ := h
    simp
  slot i x h := by
    simp only [TagFilter.clear_entry, List.getElem?_map, Option.map_eq_some_iff] at h
    obtain ⟨y, hy, rfl⟩ := h
    exact ⟨(w.slot i y hy).1, by simp⟩
  distinct i j x y hi _ hx := by
    simp only [TagFilter.clear_entry, List.getElem?_map, Option.map_eq_some_iff] at hi
    obtain ⟨z, -, rfl⟩ := hi
    simp at hx

/-- A legal capacity, a window and counters may be written where every slot is invalid (R39, R295, R350). -/
theorem TagFilter.wf_configure {p : Params} {f : TagFilter} (w : f.Wf p) {cap : Nat} (h1 : 1 ≤ cap) (h2 : cap ≤ p.fltMaxCap)
    (win a b : Word) : ({ f.clear with cap := cap, win := win, tagacc := a, tagsup := b } : TagFilter).Wf p where
  length := (TagFilter.wf_clear w).length
  capPos := h1
  capMax := h2
  count := Nat.zero_le _
  next := h1
  filling _ := rfl
  valid := (TagFilter.wf_clear w).valid
  slot := (TagFilter.wf_clear w).slot
  distinct := (TagFilter.wf_clear w).distinct

/-- The invariants say nothing of the window and the counters (R38). -/
theorem TagFilter.wf_retune {p : Params} {f : TagFilter} (w : f.Wf p) (win a b : Word) :
    ({ f with win := win, tagacc := a, tagsup := b } : TagFilter).Wf p where
  length := w.length
  capPos := w.capPos
  capMax := w.capMax
  count := w.count
  next := w.next
  filling := w.filling
  valid := w.valid
  slot := w.slot
  distinct := w.distinct

theorem TagFilter.wf_fresh {p : Params} (h : 32 ≤ p.fltMaxCap) : (TagFilter.fresh p).Wf p := by
  have hr : ∀ (i : Nat) (x : Slot), (TagFilter.fresh p).entry[i]? = some x →
      x = { valid := false, len := 0#8, epc := List.replicate p.epcMax 0#8, ts := 0#32 } := by
    intro i x hx
    exact List.eq_of_mem_replicate (List.mem_of_getElem? hx)
  refine ⟨by simp [TagFilter.fresh], (by decide : 1 ≤ fltCapReset), h, Nat.zero_le _, (by decide : 0 < fltCapReset), fun _ => rfl, ?_, ?_, ?_⟩
  · intro i x hx
    rw [hr i x hx]
    simp [TagFilter.fresh]
  · intro i x hx
    rw [hr i x hx]
    simp
  · intro i j x y hx _ hv
    rw [hr i x hx] at hv
    simp at hv

/-! ## Lookups -/

/-- The slots of a sound filter match as R290 says. -/
theorem TagFilter.holds_iff {p : Params} {f : TagFilter} (w : f.Wf p) {E : List Byte} {i : Nat} {x : Slot} (hx : f.entry[i]? = some x) : x.holds E = true ↔ x.valid = true ∧ x.key = E :=
  Slot.holds_iff (w.slot i x hx).1 (fun h => ((w.slot i x hx).2 h).2)

/-- A lookup that finds nothing: no valid slot holds E. -/
theorem TagFilter.lookup_none {p : Params} {f : TagFilter} (w : f.Wf p) {E : List Byte} :
    f.lookup E = none ↔ ∀ (i : Nat) (x : Slot), f.entry[i]? = some x → x.valid = true → x.key ≠ E := by
  simp only [TagFilter.lookup, List.findIdx?_eq_none_iff]
  constructor
  · intro h i x hx hv hk
    have hi : i < f.cap := by have := (w.valid i x hx).mp hv; have := w.count; omega
    have hm : x ∈ f.entry.take f.cap := by
      apply List.mem_of_getElem? (i := i)
      rw [List.getElem?_take_of_lt hi]
      exact hx
    have := h x hm
    rw [(TagFilter.holds_iff w hx).mpr ⟨hv, hk⟩] at this
    cases this
  · intro h x hx
    obtain ⟨i, hi⟩ := List.getElem?_of_mem (List.mem_of_mem_take hx)
    rw [← Bool.not_eq_true, TagFilter.holds_iff w hi]
    rintro ⟨hv, hk⟩
    exact h i x hi hv hk

/-- A lookup that finds slot i: slot i is valid and holds E, and no other does. -/
theorem TagFilter.lookup_some {p : Params} {f : TagFilter} (w : f.Wf p) {E : List Byte} {i : Nat} :
    f.lookup E = some i ↔ ∃ x, f.entry[i]? = some x ∧ x.valid = true ∧ x.key = E := by
  constructor
  · intro h
    obtain ⟨hi, hx, -⟩ := List.findIdx?_eq_some_iff_getElem.mp h
    have hc : i < f.cap ∧ i < f.entry.length := by simpa [List.length_take] using hi
    have he : f.entry[i]? = some f.entry[i] := List.getElem?_eq_getElem hc.2
    rw [List.getElem_take] at hx
    exact ⟨_, he, (TagFilter.holds_iff w he).mp hx⟩
  · rintro ⟨x, hx, hv, hk⟩
    cases h : f.lookup E with
    | none => exact absurd hk ((TagFilter.lookup_none w).mp h i x hx hv)
    | some j =>
      obtain ⟨hj, hy, -⟩ := List.findIdx?_eq_some_iff_getElem.mp h
      have hc : j < f.cap ∧ j < f.entry.length := by simpa [List.length_take] using hj
      have he : f.entry[j]? = some f.entry[j] := List.getElem?_eq_getElem hc.2
      rw [List.getElem_take] at hy
      obtain ⟨hv', hk'⟩ := (TagFilter.holds_iff w he).mp hy
      rw [w.distinct i j x _ hx he hv hv' (hk.trans hk'.symm)]

/-! ## Checks -/

/-- All that a check can do (R292): reject, refresh in place, or insert at the next slot. -/
theorem TagFilter.check_cases (E : List Byte) (t : Word) (f : TagFilter) :
    (∃ i, f.lookup E = some i ∧ (t - f.tsAt i).toNat < f.win.toNat ∧
      f.check E t = ({ f with tagsup := f.tagsup + 1#32 }, false)) ∨
    (∃ i, f.lookup E = some i ∧ f.win.toNat ≤ (t - f.tsAt i).toNat ∧ f.check E t = (f.refresh i t, true)) ∨
    (f.lookup E = none ∧ f.check E t = (f.insert E t, true)) := by
  cases h : f.lookup E with
  | none => exact .inr (.inr ⟨rfl, by simp [TagFilter.check, h]⟩)
  | some i =>
    by_cases hw : (t - f.tsAt i).toNat < f.win.toNat
    · exact .inl ⟨i, rfl, hw, by simp only [TagFilter.check, h, if_pos hw]⟩
    · exact .inr (.inl ⟨i, rfl, by omega, by simp only [TagFilter.check, h, if_neg hw]⟩)

/-- A refresh keeps the invariants. -/
theorem TagFilter.wf_refresh {p : Params} {f : TagFilter} (w : f.Wf p) (i : Nat) (t : Word) : (f.refresh i t).Wf p := by
  have back : ∀ (j : Nat) (x : Slot), (f.refresh i t).entry[j]? = some x →
      ∃ y, f.entry[j]? = some y ∧ x.valid = y.valid ∧ x.len = y.len ∧ x.epc = y.epc := by
    intro j x h
    simp only [TagFilter.refresh, List.getElem?_modify, Option.map_eq_map, Option.map_eq_some_iff] at h
    obtain ⟨y, hy, rfl⟩ := h
    refine ⟨y, hy, ?_⟩
    split <;> exact ⟨rfl, rfl, rfl⟩
  refine ⟨by simpa [TagFilter.refresh] using w.length, w.capPos, w.capMax, w.count, w.next, w.filling, ?_, ?_, ?_⟩
  · intro j x h
    obtain ⟨y, hy, h1, -, -⟩ := back j x h
    rw [h1]
    exact w.valid j y hy
  · intro j x h
    obtain ⟨y, hy, h1, h2, h3⟩ := back j x h
    rw [h1, h2, h3]
    exact w.slot j y hy
  · intro j k x x' h h' hv hv' hk
    obtain ⟨y, hy, h1, h2, h3⟩ := back j x h
    obtain ⟨y', hy', h1', h2', h3'⟩ := back k x' h'
    refine w.distinct j k y y' hy hy' (h1 ▸ hv) (h1' ▸ hv') ?_
    simpa [Slot.key, h2, h3, h2', h3'] using hk

/-- An insertion's slot i: the refilled one at next, the old one elsewhere. -/
theorem TagFilter.getElem?_insert (f : TagFilter) (E : List Byte) (t : Word) (i : Nat) :
    (f.insert E t).entry[i]? = (f.entry[i]?).map fun x => if f.next = i then Slot.fill E t x else x := by
  simp [TagFilter.insert, List.getElem?_modify]

/-- An insertion of an EPC not held keeps the invariants (R53, R296). -/
theorem TagFilter.wf_insert {p : Params} {f : TagFilter} (w : f.Wf p) (hp : p.epcMax ≤ 255) {E : List Byte} (h1 : E ≠ [])
    (h2 : E.length ≤ p.epcMax) (hn : f.lookup E = none) (t : Word) : (f.insert E t).Wf p := by
  have hfill := fun x => Slot.fill_spec E t x (by omega)
  have hl : 1 ≤ E.length := List.length_pos_iff.mpr h1
  have none_held := (TagFilter.lookup_none w).mp hn
  have back : ∀ (j : Nat) (x : Slot), (f.insert E t).entry[j]? = some x →
      ∃ y, f.entry[j]? = some y ∧ x = if f.next = j then Slot.fill E t y else y := by
    intro j x h
    rw [TagFilter.getElem?_insert, Option.map_eq_some_iff] at h
    obtain ⟨y, hy, rfl⟩ := h
    exact ⟨y, hy, rfl⟩
  have hcap := w.capPos
  have hcount := w.count
  have hnext := w.next
  refine ⟨by simpa [TagFilter.insert] using w.length, w.capPos, w.capMax, Nat.min_le_right _ _,
    Nat.mod_lt _ (by omega), ?_, ?_, ?_, ?_⟩
  · intro hlt
    have hlt : min (f.count + 1) f.cap < f.cap := hlt
    have hf := w.filling (by omega)
    show (f.next + 1) % f.cap = min (f.count + 1) f.cap
    rw [Nat.mod_eq_of_lt (by omega)]
    omega
  · intro j x h
    obtain ⟨y, hy, rfl⟩ := back j x h
    have hvy := w.valid j y hy
    show _ ↔ j < min (f.count + 1) f.cap
    by_cases hj : f.next = j
    · rw [if_pos hj]
      simp only [(hfill y).1, true_iff]
      by_cases hc : f.count < f.cap
      · have := w.filling hc; omega
      · omega
    · rw [if_neg hj, hvy]
      by_cases hc : f.count < f.cap
      · have := w.filling hc; omega
      · omega
  · intro j x h
    obtain ⟨y, hy, rfl⟩ := back j x h
    by_cases hj : f.next = j
    · rw [if_pos hj]
      exact ⟨Slot.fill_length (w.slot j y hy).1 h2, fun _ => by rw [(hfill y).2.1]; exact ⟨hl, h2⟩⟩
    · rw [if_neg hj]
      exact w.slot j y hy
  · intro j k x x' h h' hv hv' hk
    obtain ⟨y, hy, rfl⟩ := back j x h
    obtain ⟨y', hy', rfl⟩ := back k x' h'
    by_cases hj : f.next = j <;> by_cases hk' : f.next = k
    · omega
    · rw [if_pos hj, if_neg hk', (hfill y).2.2.1] at hk
      rw [if_neg hk'] at hv'
      exact absurd hk.symm (none_held k y' hy' hv')
    · rw [if_neg hj, if_pos hk', (hfill y').2.2.1] at hk
      rw [if_neg hj] at hv
      exact absurd hk (none_held j y hy hv)
    · rw [if_neg hj] at hk hv
      rw [if_neg hk'] at hk hv'
      exact w.distinct j k y y' hy hy' hv hv' hk

/-- A check of an EPC that fits keeps the invariants. -/
theorem TagFilter.wf_check {p : Params} {f : TagFilter} (w : f.Wf p) (hp : p.epcMax ≤ 255) {E : List Byte} (h1 : E ≠ [])
    (h2 : E.length ≤ p.epcMax) (t : Word) : (f.check E t).1.Wf p := by
  obtain ⟨i, -, -, h⟩ | ⟨i, -, -, h⟩ | ⟨hn, h⟩ := TagFilter.check_cases E t f <;> rw [h]
  · exact TagFilter.wf_retune w _ _ _
  · exact TagFilter.wf_refresh w i t
  · exact TagFilter.wf_insert w hp h1 h2 hn t

end Sys2Proof.Machine
end

