-- ==== Sys2Proof/Laws/Ring.lean ====
section
/-! SUPPORT. What the ring-buffer primitives do to Q(q), the abstract content of a queue (10_state.md R49), and that they
keep the ring's invariant. Proofs cite these lemmas and never unfold a ring. -/

namespace Sys2Proof.Machine

@[simp] theorem RingBuffer.count_push {α : Type} (cap : Nat) (e : α) (r : RingBuffer α) : (r.push cap e).count = r.count + 1 := rfl

section
variable {α : Type} {cap : Nat} {r : RingBuffer α}

/-- push keeps the invariant. -/
theorem RingBuffer.wf_push (w : r.Wf cap) (room : r.count < cap) (e : α) : (r.push cap e).Wf cap where
  length := by simpa [RingBuffer.push] using w.length
  head := Nat.mod_lt _ (by omega)
  tail := w.tail
  count := room
  meet := by simp only [RingBuffer.push, w.meet, Nat.mod_add_mod, Nat.add_assoc]

end

section
variable {α : Type} [Inhabited α] {cap : Nat} {r : RingBuffer α}

@[simp] theorem RingBuffer.length_peek (cap n : Nat) (r : RingBuffer α) : (r.peek cap n).length = n := by simp [RingBuffer.peek]

@[simp] theorem RingBuffer.length_contents (cap : Nat) (r : RingBuffer α) : (r.contents cap).length = r.count := by
  simp [RingBuffer.contents]

/-- A peek of no more than count entries is the front of Q(q) (R223). -/
theorem RingBuffer.peek_eq_take {n : Nat} (h : n ≤ r.count) : r.peek cap n = (r.contents cap).take n := by
  simp only [RingBuffer.contents, RingBuffer.peek, ← List.map_take, List.take_range, Nat.min_eq_left h]

/-- push appends its entry (R220). -/
theorem RingBuffer.contents_push (w : r.Wf cap) (room : r.count < cap) (e : α) :
    (r.push cap e).contents cap = r.contents cap ++ [e] := by
  have hl := w.length
  have hm := w.meet
  have hh := w.head
  have htl := w.tail
  simp only [RingBuffer.contents, RingBuffer.peek, RingBuffer.push, List.range_succ, List.map_append, List.map_cons, List.map_nil]
  congr 1
  · apply List.map_congr_left
    intro i hi
    have hi : i < r.count := List.mem_range.mp hi
    have ne : r.head ≠ (r.tail + i) % cap := by
      rw [hm]
      intro he
      have : (r.tail + r.count) % cap = (r.tail + i) % cap := he
      have hc : 0 < cap := by omega
      have h1 := Nat.div_add_mod (r.tail + r.count) cap
      have h2 := Nat.div_add_mod (r.tail + i) cap
      have hd : cap * ((r.tail + r.count) / cap) = cap * ((r.tail + i) / cap) + (r.count - i) := by omega
      have : (cap * ((r.tail + r.count) / cap) - cap * ((r.tail + i) / cap)) % cap = 0 := by
        rw [← Nat.mul_sub]; exact Nat.mul_mod_right _ _
      have e1 : cap * ((r.tail + r.count) / cap) - cap * ((r.tail + i) / cap) = r.count - i := by omega
      rw [e1, Nat.mod_eq_of_lt (by omega)] at this
      omega
    simp [List.getD_eq_getElem?_getD, List.getElem?_set_ne ne]
  · rw [← hm]
    simp [List.getD_eq_getElem?_getD, List.getElem?_set_self (show r.head < r.mem.length by omega)]

/-- pop returns the oldest entry and leaves the others (R221). -/
theorem RingBuffer.contents_pop (w : r.Wf cap) (some_ : 0 < r.count) :
    r.contents cap = (r.pop cap).1 :: (r.pop cap).2.contents cap := by
  obtain ⟨n, hn⟩ : ∃ n, r.count = n + 1 := ⟨r.count - 1, by omega⟩
  simp only [RingBuffer.contents, RingBuffer.peek, RingBuffer.pop, hn, List.range_succ_eq_map, List.map_cons, List.map_map]
  congr 1
  · simp [Nat.mod_eq_of_lt w.tail]
  · apply List.map_congr_left
    intro i _
    simp [Nat.add_assoc, Nat.add_comm 1 i]

/-- pop keeps the invariant. -/
theorem RingBuffer.wf_pop (w : r.Wf cap) (some_ : 0 < r.count) : (r.pop cap).2.Wf cap where
  length := w.length
  head := w.head
  tail := Nat.mod_lt _ (by have := w.tail; omega)
  count := by have := w.count; simp only [RingBuffer.pop]; omega
  meet := by
    simp only [RingBuffer.pop, w.meet, Nat.mod_add_mod]
    congr 1
    omega

@[simp] theorem RingBuffer.count_pop (cap : Nat) (r : RingBuffer α) : (r.pop cap).2.count = r.count - 1 := rfl


/-- popMany takes the oldest n entries, in order, leaves the rest, and keeps the invariant. -/
theorem RingBuffer.popMany_spec {n : Nat} (w : r.Wf cap) (h : n ≤ r.count) :
    (r.popMany cap n).1 = (r.contents cap).take n ∧
      (r.popMany cap n).2.contents cap = (r.contents cap).drop n ∧
      (r.popMany cap n).2.Wf cap ∧ (r.popMany cap n).2.count = r.count - n := by
  induction n generalizing r with
  | zero => exact ⟨rfl, rfl, w, rfl⟩
  | succ n ih =>
    have hp : 0 < r.count := by omega
    obtain ⟨h1, h2, h3, h4⟩ := ih (RingBuffer.wf_pop w hp) (by simp only [RingBuffer.count_pop]; omega)
    rw [RingBuffer.contents_pop w hp]
    refine ⟨?_, ?_, h3, ?_⟩
    · simp only [RingBuffer.popMany, h1, List.take_succ_cons]
    · simp only [RingBuffer.popMany, h2, List.drop_succ_cons]
    · simp only [RingBuffer.popMany, h4, RingBuffer.count_pop]; omega

/-- All of a queue popped is its content, and leaves it empty. -/
theorem RingBuffer.popMany_all (w : r.Wf cap) :
    (r.popMany cap r.count).1 = r.contents cap ∧ (r.popMany cap r.count).2.contents cap = [] := by
  obtain ⟨h1, h2, -, -⟩ := RingBuffer.popMany_spec w (le_refl r.count)
  rw [h1, h2]
  exact ⟨List.take_of_length_le (by simp), List.drop_of_length_le (by simp)⟩

/-- pushMany appends its entries where they fit, and keeps the invariant. -/
theorem RingBuffer.pushMany_spec {es : List α} (w : r.Wf cap) (room : r.count + es.length ≤ cap) :
    (r.pushMany cap es).contents cap = r.contents cap ++ es ∧ (r.pushMany cap es).Wf cap ∧
      (r.pushMany cap es).count = r.count + es.length := by
  induction es generalizing r with
  | nil => exact ⟨by simp [RingBuffer.pushMany], w, rfl⟩
  | cons e es ih =>
    have hr : r.count < cap := by simp only [List.length_cons] at room; omega
    obtain ⟨h1, h2, h3⟩ :=
      ih (RingBuffer.wf_push w hr e) (by simp only [RingBuffer.count_push, List.length_cons] at *; omega)
    refine ⟨?_, h2, ?_⟩
    · simp only [RingBuffer.pushMany, h1, RingBuffer.contents_push w hr, List.append_assoc, List.singleton_append]
    · simp only [RingBuffer.pushMany, h3, RingBuffer.count_push, List.length_cons]; omega

/-- A flushed ring is empty. -/
@[simp] theorem RingBuffer.contents_flush (cap : Nat) (r : RingBuffer α) : r.flush.contents cap = [] := rfl

/-- Advancing the read index by j ≤ count drops the oldest j entries, and keeps the invariant (R224). -/
theorem RingBuffer.advance_spec {j : Nat} (w : r.Wf cap) (h : j ≤ r.count) :
    ({ r with tail := (r.tail + j) % cap, count := r.count - j } : RingBuffer α).contents cap = (r.contents cap).drop j ∧
      ({ r with tail := (r.tail + j) % cap, count := r.count - j } : RingBuffer α).Wf cap := by
  refine ⟨?_, w.length, w.head, Nat.mod_lt _ (by have := w.tail; omega), by have := w.count; simp only; omega, ?_⟩
  · apply List.ext_getElem
    · simp
    · intro i h1 h2
      simp only [RingBuffer.contents, RingBuffer.peek, List.getElem_map, List.getElem_range, List.getElem_drop, Nat.mod_add_mod,
        Nat.add_assoc]
  · simp only [w.meet, Nat.mod_add_mod]
    congr 1
    omega

end

section
variable {α : Type} {cap : Nat} {r : RingBuffer α}

/-- flush keeps the invariant (R222). -/
theorem RingBuffer.wf_flush (w : r.Wf cap) : r.flush.Wf cap where
  length := w.length
  head := by have := w.head; simp only [RingBuffer.flush]; omega
  tail := by have := w.head; simp only [RingBuffer.flush]; omega
  count := Nat.zero_le _
  meet := by simp [RingBuffer.flush]

/-- A fresh ring has the invariant. -/
theorem RingBuffer.wf_fresh (e : α) (h : 1 ≤ cap) : (RingBuffer.fresh e cap).Wf cap where
  length := by simp [RingBuffer.fresh]
  head := h
  tail := h
  count := Nat.zero_le _
  meet := by simp [RingBuffer.fresh]

end

end Sys2Proof.Machine
end

