-- ==== Sys2Proof/Laws/Sync.lean ====
section
/-! SUPPORT. What the synchronizer's primitives do (41_sync.md R190-R194): they keep its invariants (R51), sync_byte
touches no counter, a frame it returns has Len + 1 bytes, and a drain's counters and result are the good and the bad
frames of the bytes presented (R192). -/

namespace Sys2Proof.Machine

/-! ## The invariants -/

theorem Sync.wf_fresh : Sync.fresh.Wf where
  length := by simp [Sync.fresh]
  idle _ := ⟨rfl, rfl⟩
  body h := by cases h

theorem Sync.wf_reset {y : Sync} (w : y.Wf) : y.reset.Wf where
  length := w.length
  idle _ := ⟨rfl, rfl⟩
  body h := by cases h

/-- The invariants say nothing of the time stamp and the counters. -/
theorem Sync.wf_stamp {y : Sync} (w : y.Wf) (t a b : Word) : ({ y with last := t, frames := a, crcerr := b } : Sync).Wf where
  length := w.length
  idle := w.idle
  body := w.body

theorem Sync.wf_expire {y : Sync} (w : y.Wf) (timeout : Nat) (t : Word) : (y.expire timeout t).Wf := by
  unfold Sync.expire
  split
  · exact Sync.wf_reset w
  · exact w

/-- A byte accepted as Len is 1 to 254 (R194). -/
theorem lenAccepted_iff {b : Byte} : lenAccepted b = true ↔ 1 ≤ b.toNat ∧ b.toNat ≤ 254 := by
  have h0 : (b = 0#8) ↔ b.toNat = 0 := by rw [← BitVec.toNat_inj]; rfl
  simp [lenAccepted, syncBufCap, h0]
  omega

theorem lenAccepted_eq_false_iff {b : Byte} : lenAccepted b = false ↔ b = 0#8 ∨ b = 255#8 := by
  have h0 : (b = 0#8) ↔ b.toNat = 0 := by rw [← BitVec.toNat_inj]; rfl
  have h1 : (b = 255#8) ↔ b.toNat = 255 := by rw [← BitVec.toNat_inj]; rfl
  rw [← Bool.not_eq_true, lenAccepted_iff, h0, h1]
  have := b.isLt
  omega

/-- The received counter counts exactly while a frame is being received. -/
theorem Sync.received_succ {y : Sync} (w : y.Wf) (h : y.state = .waitBody) :
    (y.received + 1#8).toNat = y.received.toNat + 1 := by
  obtain ⟨-, h2, h3, -⟩ := w.body h
  rw [BitVec.toNat_add]
  have : (1#8 : Byte).toNat = 1 := rfl
  omega

/-- All that sync_byte's state step can do (R191). -/
theorem Sync.accept_cases (b : Byte) (y : Sync) :
    (y.state = .waitLength ∧ lenAccepted b = true ∧
      Sync.accept b y = ({ y with buf := y.buf.set 0 b, expected := b, received := 0#8, state := .waitBody }, none)) ∨
    (y.state = .waitLength ∧ lenAccepted b = false ∧ Sync.accept b y = (y, none)) ∨
    (y.state = .waitBody ∧ y.received + 1#8 ≠ y.expected ∧
      Sync.accept b y =
        ({ y with buf := y.buf.set (1 + y.received.toNat) b, received := y.received + 1#8 }, none)) ∨
    (y.state = .waitBody ∧ y.received + 1#8 = y.expected ∧
      Sync.accept b y =
        ({ y with buf := y.buf.set (1 + y.received.toNat) b, expected := 0#8, received := 0#8, state := .waitLength },
         some ((y.buf.set (1 + y.received.toNat) b).take (1 + y.expected.toNat)))) := by
  cases hs : y.state with
  | waitLength =>
    cases hb : lenAccepted b with
    | true => exact .inl ⟨rfl, rfl, by simp [Sync.accept, hs, hb]⟩
    | false => exact .inr (.inl ⟨rfl, rfl, by simp [Sync.accept, hs, hb]⟩)
  | waitBody =>
    by_cases he : y.received + 1#8 = y.expected
    · exact .inr (.inr (.inr ⟨rfl, he, by simp [Sync.accept, hs, he, Sync.reset]⟩))
    · exact .inr (.inr (.inl ⟨rfl, he, by simp [Sync.accept, hs, he]⟩))

/-- sync_byte's state step keeps the invariants, and a frame it returns has its Len byte, 1 to 254, first and Len bytes
after it. -/
theorem Sync.accept_spec {y : Sync} (w : y.Wf) (b : Byte) :
    (Sync.accept b y).1.Wf ∧
      ∀ f, (Sync.accept b y).2 = some f →
        1 ≤ (f.getD 0 0#8).toNat ∧ (f.getD 0 0#8).toNat ≤ 254 ∧ f.length = (f.getD 0 0#8).toNat + 1 := by
  have wl : y.buf.length = 255 := w.length
  obtain ⟨hs, hb, he⟩ | ⟨hs, hb, he⟩ | ⟨hs, hr, he⟩ | ⟨hs, hr, he⟩ := Sync.accept_cases b y <;> rw [he]
  · obtain ⟨h1, h2⟩ := lenAccepted_iff.mp hb
    exact ⟨⟨by simpa using w.length, fun h => by simp at h, fun _ => ⟨h1, h2, show 0 < b.toNat from h1, by simp [wl]⟩⟩,
      by simp⟩
  · exact ⟨w, by simp⟩
  · obtain ⟨h1, h2, h3, h4⟩ := w.body hs
    have hc := Sync.received_succ w hs
    have hn : (y.received + 1#8).toNat ≠ y.expected.toNat := fun h => hr (BitVec.eq_of_toNat_eq h)
    refine ⟨⟨by simpa using w.length, fun h => by simp [hs] at h, fun _ => ⟨h1, h2, ?_, ?_⟩⟩, by simp⟩
    · show (y.received + 1#8).toNat < y.expected.toNat
      omega
    · show (y.buf.set (1 + y.received.toNat) b)[0]? = some y.expected
      rw [List.getElem?_set_ne (by omega)]
      exact h4
  · refine ⟨⟨by simpa using w.length, fun _ => ⟨rfl, rfl⟩, fun h => by simp at h⟩, fun f hf => ?_⟩
    obtain ⟨h1, h2, h3, h4⟩ := w.body hs
    obtain rfl : _ = f := by simpa using hf
    have hd : (((y.buf.set (1 + y.received.toNat) b).take (1 + y.expected.toNat)).getD 0 0#8) = y.expected := by
      rw [List.getD_eq_getElem?_getD, List.getElem?_take_of_lt (by omega), List.getElem?_set_ne (by omega), h4]
      rfl
    rw [hd]
    refine ⟨h1, h2, ?_⟩
    simp only [List.length_take, List.length_set, wl]
    omega

/-- sync_byte keeps the invariants, and a frame it returns has its Len byte first and Len bytes after it (R191). -/
theorem Sync.byte_spec {y : Sync} (w : y.Wf) (timeout : Nat) (b : Byte) (t : Word) :
    (y.byte timeout b t).1.Wf ∧
      ∀ f, (y.byte timeout b t).2 = some f →
        1 ≤ (f.getD 0 0#8).toNat ∧ (f.getD 0 0#8).toNat ≤ 254 ∧ f.length = (f.getD 0 0#8).toNat + 1 :=
  Sync.accept_spec (Sync.wf_stamp (Sync.wf_expire w timeout t) t _ _) b

/-! ## Counters -/

/-- The counters of a synchronizer replaced. -/
def Sync.withCounters (a b : Word) (y : Sync) : Sync := { y with frames := a, crcerr := b }

@[simp] theorem Sync.withCounters_state (a b : Word) (y : Sync) : (y.withCounters a b).state = y.state := rfl
@[simp] theorem Sync.withCounters_frames (a b : Word) (y : Sync) : (y.withCounters a b).frames = a := rfl
@[simp] theorem Sync.withCounters_crcerr (a b : Word) (y : Sync) : (y.withCounters a b).crcerr = b := rfl
@[simp] theorem Sync.withCounters_twice (a b c d : Word) (y : Sync) :
    (y.withCounters a b).withCounters c d = y.withCounters c d := rfl
theorem Sync.withCounters_self (y : Sync) : y.withCounters y.frames y.crcerr = y := rfl

theorem Sync.reset_withCounters (a b : Word) (y : Sync) : (y.withCounters a b).reset = y.reset.withCounters a b := rfl

/-- sync_byte neither reads nor writes a counter. -/
theorem Sync.byte_withCounters (timeout : Nat) (x : Byte) (t a b : Word) (y : Sync) :
    (y.withCounters a b).byte timeout x t =
      ((y.byte timeout x t).1.withCounters a b, (y.byte timeout x t).2) := by
  have he : (y.withCounters a b).expire timeout t = (y.expire timeout t).withCounters a b := by
    unfold Sync.expire
    by_cases h : y.state = .waitBody ∧ timeout < (t - y.last).toNat
    · rw [if_pos h]
      exact if_pos h
    · rw [if_neg h]
      exact if_neg h
  unfold Sync.byte
  rw [he]
  generalize y.expire timeout t = z
  obtain ⟨hs, hb, h⟩ | ⟨hs, hb, h⟩ | ⟨hs, hr, h⟩ | ⟨hs, hr, h⟩ := Sync.accept_cases x { z with last := t } <;> rw [h] <;>
    simp_all [Sync.accept, Sync.withCounters, Sync.reset]

/-- sync_byte leaves the counters. -/
theorem Sync.byte_counters (timeout : Nat) (x : Byte) (t : Word) (y : Sync) :
    (y.byte timeout x t).1.frames = y.frames ∧ (y.byte timeout x t).1.crcerr = y.crcerr := by
  have h := congrArg Prod.fst (Sync.byte_withCounters timeout x t y.frames y.crcerr y)
  rw [Sync.withCounters_self] at h
  simp only at h
  exact ⟨by rw [h]; rfl, by rw [h]; rfl⟩

theorem Sync.runEntries_withCounters (timeout : Nat) (t a b : Word) (es : List RxEntry) (y : Sync) :
    Sync.runEntries timeout t es (y.withCounters a b) =
      ((Sync.runEntries timeout t es y).1.withCounters a b, (Sync.runEntries timeout t es y).2) := by
  induction es generalizing y with
  | nil => rfl
  | cons e es ih =>
    have hz : (if e.gap then { y.withCounters a b with state := SyncState.waitLength, expected := 0#8, received := 0#8 }
          else y.withCounters a b) =
        (if e.gap then { y with state := .waitLength, expected := 0#8, received := 0#8 } else y).withCounters a b := by
      cases e.gap <;> rfl
    simp only [Sync.runEntries, hz, Sync.byte_withCounters, ih]

/-! ## Drains -/

/-- The counters of a drain that dispatched the frames fs (R192). -/
def Sync.counted (y : Sync) (fs : List (List Byte)) : Sync :=
  y.withCounters (y.frames + BitVec.ofNat 32 (fs.filter crcVerify).length)
    (y.crcerr + BitVec.ofNat 32 (fs.filter fun f => !crcVerify f).length)

/-- A byte presented: sync_byte, then the good frame returned and counted, or the bad one counted (R192). -/
theorem Sync.present_eq (timeout : Nat) (x : Byte) (t : Word) (y : Sync) :
    Sync.present timeout x t y =
      ((y.byte timeout x t).1.counted (y.byte timeout x t).2.toList, (y.byte timeout x t).2.toList.filter crcVerify) := by
  unfold Sync.present
  generalize y.byte timeout x t = r
  obtain ⟨z, o⟩ := r
  cases o with
  | none => simp [Sync.counted, Sync.withCounters]
  | some f => cases hv : crcVerify f <;> simp [Sync.dispatch, Sync.counted, Sync.withCounters, hv]

/-- A drain is sync_byte over the entries; of the frames completed the good ones are returned and counted, the bad ones
counted (R192, 43_control.md R267). -/
theorem Sync.drain_eq (timeout : Nat) (t : Word) (es : List RxEntry) (y : Sync) :
    Sync.drain timeout t es y =
      ((Sync.runEntries timeout t es y).1.withCounters
          (y.frames + BitVec.ofNat 32 ((Sync.runEntries timeout t es y).2.filter crcVerify).length)
          (y.crcerr + BitVec.ofNat 32 ((Sync.runEntries timeout t es y).2.filter fun f => !crcVerify f).length),
        (Sync.runEntries timeout t es y).2.filter crcVerify) := by
  induction es generalizing y with
  | nil => simp [Sync.drain, Sync.runEntries, Sync.withCounters]
  | cons e es ih =>
    have hc : ∀ z : Sync, z = (if e.gap then y.reset else y) → z.frames = y.frames ∧ z.crcerr = y.crcerr := by
      rintro z rfl
      cases e.gap <;> exact ⟨rfl, rfl⟩
    have hr : (if e.gap then { y with state := SyncState.waitLength, expected := 0#8, received := 0#8 } else y) =
        (if e.gap then y.reset else y) := rfl
    simp only [Sync.drain, Sync.runEntries, hr]
    generalize hz : (if e.gap then y.reset else y) = z
    obtain ⟨h1, h2⟩ := hc z hz.symm
    obtain ⟨b1, b2⟩ := Sync.byte_counters timeout e.byte t z
    rw [Sync.present_eq, ih]
    simp only [Sync.counted, Sync.runEntries_withCounters, Sync.withCounters_twice, Sync.withCounters_frames,
      Sync.withCounters_crcerr, b1, b2, h1, h2, List.filter_append, List.length_append, BitVec.ofNat_add, BitVec.add_assoc]

/-- The entries of untagged bytes, presented as sync_byte presents the bytes. -/
theorem Sync.runEntries_plain (timeout : Nat) (t : Word) (p : List Byte) (y : Sync) :
    Sync.runEntries timeout t (p.map RxEntry.plain) y = Sync.run timeout (p.map fun b => (b, t)) y := by
  induction p generalizing y with
  | nil => rfl
  | cons b p ih => simp [Sync.runEntries, Sync.run, RxEntry.plain, ← ih]

/-- Presenting entries keeps the invariants, and every frame completed has Len + 1 bytes. -/
theorem Sync.runEntries_spec {y : Sync} (w : y.Wf) (timeout : Nat) (t : Word) (es : List RxEntry) :
    (Sync.runEntries timeout t es y).1.Wf ∧
      ∀ f ∈ (Sync.runEntries timeout t es y).2,
        1 ≤ (f.getD 0 0#8).toNat ∧ (f.getD 0 0#8).toNat ≤ 254 ∧ f.length = (f.getD 0 0#8).toNat + 1 := by
  induction es generalizing y with
  | nil => exact ⟨w, by simp [Sync.runEntries]⟩
  | cons e es ih =>
    have wz : (if e.gap then y.reset else y).Wf := by
      cases e.gap
      · exact w
      · exact Sync.wf_reset w
    obtain ⟨w1, f1⟩ := Sync.byte_spec wz timeout e.byte t
    obtain ⟨w2, f2⟩ := ih w1
    refine ⟨w2, fun f hf => ?_⟩
    simp only [Sync.runEntries, List.mem_append, Option.mem_toList] at hf
    rcases hf with hf | hf
    · exact f1 f hf
    · exact f2 f hf

/-- A drain keeps the invariants. -/
theorem Sync.wf_drain {y : Sync} (w : y.Wf) (timeout : Nat) (t : Word) (es : List RxEntry) :
    (Sync.drain timeout t es y).1.Wf := by
  rw [Sync.drain_eq]
  exact Sync.wf_stamp (Sync.runEntries_spec w timeout t es).1 _ _ _

/-- Every frame a drain returns is one the block may dispatch (R112, R192). -/
theorem Sync.drain_frames_legal {y : Sync} (w : y.Wf) (timeout : Nat) (t : Word) (es : List RxEntry) :
    ∀ f ∈ (Sync.drain timeout t es y).2, frameLegal f = true := by
  intro f hf
  rw [Sync.drain_eq] at hf
  simp only [List.mem_filter] at hf
  obtain ⟨h1, h2, h3⟩ := (Sync.runEntries_spec w timeout t es).2 f hf.1
  simp only [frameLegal, Bool.and_eq_true, decide_eq_true_eq]
  exact ⟨⟨⟨h1, h2⟩, h3⟩, hf.2⟩

end Sys2Proof.Machine
end

