-- ==== Sys2Proof/Laws/Step.lean ====
section
/-! SUPPORT. Said once: what a command does (exec_next), what a step can do (step_cases), and that the agents' and the
commands' operations on a channel and on the filter keep the invariants. Whole-machine proofs are case analyses of these. -/

namespace Sys2Proof.Machine

/-! ## Commands -/

/-- A command's effect and result, before it returns: what its meaning hands to asCommand. -/
def effectOf (i : Instr) (s : State) : State × Reply :=
  match i with
  | .nop => (s, Reply.ok 0#32)
  | .crcInit => writeCrc s 0xFFFF#16
  | .crcByte b => writeCrc s (crcStep s.crc b)
  | .crcUpdate p => writeCrc s (crcFold s.crc p)
  | .crcCompute p => (s, Reply.ok ((crcOf p).setWidth 32))
  | .crcVerify p => (s, Reply.ok (if crcVerify p then 1#32 else 0#32))
  | .crcSeal p =>
    (s, if p.length < 2 ∨ maxFrame < p.length + 3 then Reply.error .invalidParam
        else { Reply.ok (natValue (p.length + 3)) with data := sealFrame p })
  | .fifoPut ch p =>
    if s.mode = .bypass then (s, Reply.error .wrongMode)
    else if (s.chan ch).tx.ring.free (txCap s.params ch) < p.length then
      (s.setChan ch { s.chan ch with txerr := (s.chan ch).txerr + 1#32 },
       { Reply.error .bufferOverflow with value := natValue ((s.chan ch).tx.ring.free (txCap s.params ch)) })
    else (putBytes ch p s, Reply.ok (natValue p.length))
  | .fifoGet ch n =>
    if rxOwnedByProcess s.mode ch then (s, Reply.error .wrongMode)
    else getEntries ch (min n.toNat (s.chan ch).rx.ring.count) s
  | .fifoFlush q => if queueLive s q then raiseFault .hazardFlushLive s else (flushQueue s q, Reply.ok 0#32)
  | .syncFeed p =>
    if s.mode = .inventory then (s, Reply.error .wrongMode)
    else returnFrames s (s.sync.feed s.params.syncTimeout s.now p)
  | .syncReset => ({ s with sync := s.sync.reset }, Reply.ok 0#32)
  | .fltCheck p =>
    if p.length = 0 ∨ s.params.epcMax < p.length then (s, Reply.error .invalidParam)
    else ({ s with flt := (s.flt.check p s.now).1 }, Reply.ok (if (s.flt.check p s.now).2 then 1#32 else 0#32))
  | .fltClear => ({ s with flt := s.flt.clear }, Reply.ok 0#32)
  | .modeSet m =>
    match modeOfBits m with
    | none => (s, Reply.error .invalidParam)
    | some new => (setMode new s, Reply.ok (modeWord s.mode))
  | .process =>
    match s.mode with
    | .idle => (s, Reply.ok 0#32)
    | .bypass => processBypass s
    | .inventory => processInventory s
  | .regRead r =>
    (s, match regOfIndex r with
        | none => Reply.error .invalidParam
        | some g => Reply.ok (readReg s g))
  | .regWrite r v =>
    match (regOfIndex r).bind (writeReg s v) with
    | none => (s, Reply.error .invalidParam)
    | some t => (t, Reply.ok 0#32)

/-- Every command is the shell asCommand around its effect. -/
theorem exec_eq (i : Instr) (s : State) : exec i s = asCommand s (effectOf i s) := by
  cases i <;> rfl

/-- A command of a block that is not FAULTED answers its effect's state, with its result. -/
theorem exec_live {s : State} (h : s.fault = none) (i : Instr) :
    exec i s = .next ((effectOf i s).1.returns (effectOf i s).2) := by rw [exec_eq, asCommand_live h]

/-- In the FAULTED condition no command has a step (R324). -/
theorem exec_of_faulted {s : State} (h : s.fault ≠ none) (i : Instr) : exec i s = .fault .faulted := by
  rw [exec_eq, asCommand_faulted h]

/-- Where a command answers a next state, it is its effect's with its result. -/
theorem exec_next {s t : State} {i : Instr} (h : exec i s = .next t) :
    s.fault = none ∧ t = (effectOf i s).1.returns (effectOf i s).2 := asCommand_next (exec_eq i s ▸ h)

/-! ## Steps -/

/-- A transmit-ready event has no effect of its own exactly where it sends more than it claimed (R224). -/
theorem Channel.transmit_none {b : Nat} {c : Channel} {k j : Nat} :
    c.transmit b k j = none ↔ min k c.tx.ring.count < j := by
  simp [Channel.transmit, TxQueue.claim, TxQueue.commit]
  omega

/-- What the block takes of an offer. -/
theorem State.takes_of_command {s : State} {bytes : List Byte} {t : Word} {rest : List Input} {i : Instr}
    (hf : s.fault = none) (hi : s.inputs = .command bytes t :: rest) (hd : decode bytes = .instr i) : s.takes = some i := by
  simp [State.takes, hf, hi, Input.says, hd]

/-- A step takes the first offer. -/
theorem step_cons {s : State} {o : Input} {rest : List Input} (h : s.inputs = o :: rest) :
    step s = offered o { s with inputs := rest } := by
  unfold step takeOffer
  rw [h]

/-- All that a step which answers a next state can have done: waited; left an offer untaken; run a command; answered an
illegal word; received a byte; sent bytes; entered FAULTED at a transmit event past its claim; or been reset. -/
theorem step_cases {s t : State} (h : step s = .next t) :
    (s.inputs = [] ∧ t = s) ∨
    ∃ o rest, s.inputs = o :: rest ∧
      ((t = { s with inputs := rest } ∧ s.takes = none ∧ o ≠ .reset) ∨
      (∃ bytes now i, o = .command bytes now ∧ s.fault = none ∧ decode bytes = .instr i ∧ s.takes = some i ∧
        t = (effectOf i { s with inputs := rest, now := now }).1.returns
          (effectOf i { s with inputs := rest, now := now }).2) ∨
      (∃ bytes now, o = .command bytes now ∧ s.fault = none ∧ s.takes = none ∧
        t = State.returns { s with inputs := rest, now := now } (Reply.error .illegalCommand)) ∨
      (∃ n b, o = .urx n b ∧ s.fault = none ∧ (s.chan n).rxie = true ∧ s.takes = none ∧
        t = { s with inputs := rest }.setChan n ((s.chan n).receive (rxCap s.params n) b)) ∨
      (∃ n k j c, o = .utx n k j ∧ s.fault = none ∧ (s.chan n).txie = true ∧ s.takes = none ∧ 1 ≤ k ∧
        (s.chan n).transmit (txCap s.params n) k j = some c ∧ t = { s with inputs := rest }.setChan n c) ∨
      (∃ n k j, o = .utx n k j ∧ s.fault = none ∧ (s.chan n).txie = true ∧ s.takes = none ∧ 1 ≤ k ∧
        min k (s.chan n).tx.ring.count < j ∧ t = State.enterFaulted .commitBeyondClaim { s with inputs := rest }) ∨
      (o = .reset ∧ s.takes = none ∧ t = resetBlock { s with inputs := rest })) := by
  unfold step takeOffer at h
  cases hi : s.inputs with
  | nil =>
    rw [hi] at h
    exact .inl ⟨rfl, by injection h with h; exact h.symm⟩
  | cons o rest =>
    rw [hi] at h
    refine .inr ⟨o, rest, rfl, ?_⟩
    have untaken : ∀ o', o = o' → o'.says = none → s.takes = none := by
      rintro o' rfl hs
      simp [State.takes, hi, hs]
    have chan_eq : ∀ n, ({ s with inputs := rest } : State).chan n = s.chan n := by intro n; cases n <;> rfl
    cases o with
    | command bytes now =>
      simp only [offered, hostStep] at h
      by_cases hf : s.fault = none
      · rw [if_neg (by simp [hf])] at h
        cases hd : decode bytes with
        | instr i =>
          rw [hd] at h
          exact .inr (.inl ⟨bytes, now, i, rfl, hf, hd, State.takes_of_command hf hi hd, (exec_next h).2⟩)
        | illegal why =>
          rw [hd] at h
          exact .inr (.inr (.inl ⟨bytes, now, rfl, hf, untaken _ rfl (by simp [Input.says, hd]), (asCommand_next h).2⟩))
        | notCommand why =>
          rw [hd] at h
          cases h
      · rw [if_pos (by simpa [Option.isSome_iff_ne_none] using hf)] at h
        injection h with h
        exact .inl ⟨h.symm, by simp [State.takes, Option.isSome_iff_ne_none, hf], by simp⟩
    | urx n b =>
      simp only [offered, urxStep, chan_eq] at h
      by_cases hf : s.fault.isSome || !(s.chan n).rxie
      · rw [if_pos hf] at h
        injection h with h
        exact .inl ⟨h.symm, untaken _ rfl rfl, by simp⟩
      · rw [if_neg hf] at h
        injection h with h
        simp only [Bool.or_eq_true, not_or, Bool.not_eq_true, Bool.not_eq_false', Option.isSome_eq_false_iff,
          Option.isNone_iff_eq_none] at hf
        exact .inr (.inr (.inr (.inl ⟨n, b, rfl, hf.1, hf.2, untaken _ rfl rfl, h.symm⟩)))
    | utx n k j =>
      simp only [offered, utxStep, chan_eq] at h
      by_cases hf : s.fault.isSome || !(s.chan n).txie
      · rw [if_pos hf] at h
        injection h with h
        exact .inl ⟨h.symm, untaken _ rfl rfl, by simp⟩
      · rw [if_neg hf] at h
        simp only [Bool.or_eq_true, not_or, Bool.not_eq_true, Bool.not_eq_false', Option.isSome_eq_false_iff,
          Option.isNone_iff_eq_none] at hf
        by_cases hk : k = 0
        · rw [if_pos hk] at h
          cases h
        · rw [if_neg hk] at h
          cases hc : (s.chan n).transmit (txCap s.params n) k j with
          | none =>
            rw [hc] at h
            injection h with h
            exact .inr (.inr (.inr (.inr (.inr (.inl
              ⟨n, k, j, rfl, hf.1, hf.2, untaken _ rfl rfl, by omega, Channel.transmit_none.1 hc, h.symm⟩)))))
          | some c =>
            rw [hc] at h
            injection h with h
            exact .inr (.inr (.inr (.inr (.inl
              ⟨n, k, j, c, rfl, hf.1, hf.2, untaken _ rfl rfl, by omega, hc, h.symm⟩))))
    | reset =>
      simp only [offered, resetStep] at h
      injection h with h
      exact .inr (.inr (.inr (.inr (.inr (.inr ⟨rfl, untaken _ rfl rfl, h.symm⟩)))))

/-- An operation's command word: what CommandWord asks follows from the operation's row of the opcode map (R125). -/
theorem commandWord_of_row {o : Op} {opc : Byte} {len : Half → Nat} {legal : Byte → Half → Prop}
    {cmd : Byte → Half → List Byte → Instr} (hc : o.row.code = opc)
    (hlen : ∀ imm, len imm = match o.row.payload with
      | .none => 0
      | .counted => imm.toNat % 256
      | .four => 4)
    (hlegal : ∀ sel imm, legal sel imm ↔ o.row.selLegal sel = true ∧ o.row.immLegal imm = true)
    (hcmd : ∀ sel imm p, p.length = len imm → legal sel imm → cmd sel imm p = o.instr sel imm p) :
    CommandWord opc len legal cmd := by
  intro s sel imm p t rest hf hi hp
  subst hc
  have hd : decode (serial (mkWord o.row.code sel imm) p) = decodeWord (mkWord o.row.code sel imm) p := by
    rw [decode_serial, decodeCommand, if_neg]
    rw [plen_mkWord, hp, hlen]
    exact fun h => h rfl
  rw [decodeWord_mkWord] at hd
  have e : step s = hostStep (serial (mkWord o.row.code sel imm) p) t { s with inputs := rest } := step_cons hi
  rw [e]
  constructor
  · intro hl
    obtain ⟨h1, h2⟩ := (hlegal _ _).1 hl
    rw [if_pos h1, if_pos h2] at hd
    rw [hcmd _ _ _ hp hl]
    simp [hostStep, hf, hd]
  · intro hl
    obtain ⟨why, hd⟩ : ∃ why, decode (serial (mkWord o.row.code sel imm) p) = .illegal why := by
      rw [hd]
      rw [hlegal] at hl
      split
      · split
        · exact absurd ⟨‹_›, ‹_›⟩ hl
        · exact ⟨_, rfl⟩
      · exact ⟨_, rfl⟩
    simp [hostStep, hf, hd, illegalStep, asCommand]
    rfl

/-! ## Channels -/

theorem Channel.wf_fresh {a b : Nat} (ha : 1 ≤ a) (hb : 1 ≤ b) : (Channel.fresh a b).Wf a b where
  rx := RingBuffer.wf_fresh _ ha
  tx := RingBuffer.wf_fresh _ hb
  claim := rfl

theorem Channel.wf_flushBoth {a b : Nat} {c : Channel} (w : c.Wf a b) : c.flushBoth.Wf a b where
  rx := RingBuffer.wf_flush w.rx
  tx := RingBuffer.wf_flush w.tx
  claim := rfl

/-- The invariants of a channel are those of its queues. -/
theorem Channel.wf_of_queues {a b : Nat} {c d : Channel} (w : c.Wf a b) (hr : d.rx.ring = c.rx.ring) (ht : d.tx = c.tx) :
    d.Wf a b where
  rx := hr ▸ w.rx
  tx := ht ▸ w.tx
  claim := ht ▸ w.claim

theorem Channel.wf_reset {a b : Nat} {c : Channel} (w : c.Wf a b) : c.reset.Wf a b where
  rx := RingBuffer.wf_flush w.rx
  tx := RingBuffer.wf_flush w.tx
  claim := rfl

/-- URXn's step keeps the invariants (R226). -/
theorem Channel.wf_receive {a b : Nat} {c : Channel} (w : c.Wf a b) (x : Byte) : (c.receive a x).Wf a b := by
  have := w.rx.count
  unfold Channel.receive
  split
  · exact ⟨w.rx, w.tx, w.claim⟩
  · exact ⟨RingBuffer.wf_push w.rx (by omega) _, w.tx, w.claim⟩

/-- All that a transmit-ready event within its claim does (R227, R228), to the channel and to Q(TX(n)). -/
theorem Channel.transmit_spec {a b : Nat} {c : Channel} (w : c.Wf a b) {k j : Nat} (hj : j ≤ min k c.tx.ring.count) :
    ∃ r : RingBuffer Byte, c.transmit b k j = some { c with
        tx := { ring := r, claimLen := 0 }, wire := c.wire ++ (c.tx.ring.contents b).take j
        txie := c.txie && !(r.count == 0) } ∧
      r.contents b = (c.tx.ring.contents b).drop j ∧ r.Wf b ∧ r.count = c.tx.ring.count - j := by
  obtain ⟨h1, h2⟩ := RingBuffer.advance_spec w.tx (show j ≤ c.tx.ring.count by omega)
  refine ⟨_, ?_, h1, h2, rfl⟩
  have hn : ¬ min k c.tx.ring.count < j := by omega
  have hp : (c.tx.ring.peek b (min k c.tx.ring.count)).take j = (c.tx.ring.contents b).take j := by
    rw [RingBuffer.peek_eq_take (Nat.min_le_right _ _), List.take_take, Nat.min_eq_left hj]
  simp [Channel.transmit, TxQueue.claim, TxQueue.commit, hn, hp]

/-- A transmit-ready event sends no more than it claimed. -/
theorem Channel.transmit_bound {b : Nat} {c d : Channel} {k j : Nat} (h : c.transmit b k j = some d) :
    j ≤ min k c.tx.ring.count := by
  by_contra hn
  rw [Channel.transmit_none.2 (by omega)] at h
  cases h

/-- UTXn's step keeps the invariants (R227). -/
theorem Channel.wf_transmit {a b : Nat} {c d : Channel} (w : c.Wf a b) {k j : Nat} (h : c.transmit b k j = some d) :
    d.Wf a b := by
  obtain ⟨r, hr, -, hw, -⟩ := Channel.transmit_spec w (Channel.transmit_bound h)
  rw [hr] at h
  injection h with h
  exact h ▸ ⟨w.rx, hw, rfl⟩

/-! ## States -/

/-- The invariants of channel n, whichever it is. -/
theorem State.Inv.chan {s : State} (w : s.Inv) (n : Chan) : (s.chan n).Wf (rxCap s.params n) (txCap s.params n) := by
  cases n
  · exact w.ch0
  · exact w.ch1

/-- Every queue's capacity is at least 1 (R6). -/
theorem Params.Valid.caps {p : Params} (v : p.Valid) (n : Chan) : 1 ≤ rxCap p n ∧ 1 ≤ txCap p n := by
  obtain ⟨h0, h1, h2, h3, -⟩ := v
  cases n
  · exact ⟨h0.1, h1.1⟩
  · exact ⟨h2.1, h3.1⟩

/-- Every queue's capacity is at most 65535 (R6). -/
theorem Params.Valid.caps_le {p : Params} (v : p.Valid) (n : Chan) : rxCap p n ≤ 65535 ∧ txCap p n ≤ 65535 := by
  obtain ⟨h0, h1, h2, h3, -⟩ := v
  cases n
  · exact ⟨h0.2, h1.2⟩
  · exact ⟨h2.2, h3.2⟩

/-- The invariants say nothing of the mode, CRC register, fault condition, index and the model's own fields. -/
theorem State.inv_of_units {s t : State} (w : s.Inv) (hp : t.params = s.params) (h0 : t.ch0 = s.ch0) (h1 : t.ch1 = s.ch1)
    (hy : t.sync = s.sync) (hf : t.flt = s.flt) : t.Inv where
  params := hp ▸ w.params
  ch0 := by rw [hp, h0]; exact w.ch0
  ch1 := by rw [hp, h1]; exact w.ch1
  sync := hy ▸ w.sync
  flt := by rw [hp, hf]; exact w.flt

/-- A sound channel put in place of another keeps the invariants. -/
theorem State.inv_setChan {s : State} (w : s.Inv) (n : Chan) {c : Channel} (h : c.Wf (rxCap s.params n) (txCap s.params n)) :
    (s.setChan n c).Inv := by
  cases n
  · exact ⟨w.params, h, w.ch1, w.sync, w.flt⟩
  · exact ⟨w.params, w.ch0, h, w.sync, w.flt⟩

end Sys2Proof.Machine
end

