-- ==== Sys2Proof/Laws/Effects.lean ====
section
/-! SUPPORT. Said once for every command at the same time: what its effect leaves, and all it can do to the mode, to the
synchronizer, to the filter and to a channel. Whole-machine proofs cite these and never split on the command. -/

namespace Sys2Proof.Machine

/-! ## The parts with several outcomes -/

/-- REG.WRITE of an index other than IRQEN, FLTWIN and FLTCAP writes nothing (R269). -/
theorem writeReg_readOnly (r : Byte) (h1 : r ≠ 0x01#8) (h2 : r ≠ 0x05#8) (h3 : r ≠ 0x06#8) (s v) : (regOfIndex r).bind (writeReg s v) = none := by
  revert h1 h2 h3 r
  have : ∀ r : Byte, r ≠ 0x01#8 → r ≠ 0x05#8 → r ≠ 0x06#8 → ∀ g, regOfIndex r = some g → g ≠ .irqen ∧ g ≠ .fltwin ∧ g ≠ .fltcap := by
    intro r h1 h2 h3
    have hh : ∀ r : Byte, (r = 0x01#8 ∨ r = 0x05#8 ∨ r = 0x06#8) ∨ ((regOfIndex r).all fun g => g ≠ .irqen ∧ g ≠ .fltwin ∧ g ≠ .fltcap) = true := by decide
    rcases hh r with h | h
    · simp_all
    · intro g hg; simpa [hg] using h
  intro r h1 h2 h3
  have := this r h1 h2 h3
  cases hr : regOfIndex r with
  | none => rfl
  | some g => 
    obtain ⟨a, b, c⟩ := this g hr
    cases g <;> first | rfl | exact absurd rfl a | exact absurd rfl b | exact absurd rfl c

/-- All that a REG.WRITE that is not InvalidParam does (R269). -/
theorem regWrite_cases {s t : State} {r v} (h : (regOfIndex r).bind (writeReg s v) = some t) :
   (r = 0x01#8 ∧ t = writeIrqen s v ∧ v >>> 4 = 0#32) ∨ (r = 0x05#8 ∧ t = { s with flt := { s.flt with win := v } }) ∨
   (r = 0x06#8 ∧ 1 ≤ v.toNat ∧ v.toNat ≤ s.params.fltMaxCap ∧ t = { s with flt := TagFilter.clear { s.flt with cap := v.toNat } }) := by
  by_cases h1 : r = 0x01#8
  · subst h1
    rw [show regOfIndex 0x01#8 = some .irqen from rfl] at h
    simp only [Option.bind_some, writeReg] at h
    split at h
    · injection h with h; exact .inl ⟨rfl, h.symm, ‹_›⟩
    · cases h
  · by_cases h2 : r = 0x05#8
    · subst h2
      rw [show regOfIndex 0x05#8 = some .fltwin from rfl] at h
      injection h with h; exact .inr (.inl ⟨rfl, h.symm⟩)
    · by_cases h3 : r = 0x06#8
      · subst h3
        rw [show regOfIndex 0x06#8 = some .fltcap from rfl] at h
        simp only [Option.bind_some, writeReg] at h
        split at h
        · cases h
        · injection h with h; exact .inr (.inr ⟨rfl, by omega, by omega, h.symm⟩)
      · rw [writeReg_readOnly r h1 h2 h3] at h; cases h

/-- MODE.SET's bracket, field by field (R262). -/
theorem setMode_eq (new : Mode) (s : State) : setMode new s = { s with
   mode := new
   ch0 := if affected s.mode new .ch0 then s.ch0.pause.flushBoth.resume else s.ch0
   ch1 := if affected s.mode new .ch1 then s.ch1.pause.flushBoth.resume else s.ch1
   sync := if s.mode = .inventory ∨ new = .inventory then s.sync.reset else s.sync
   flt := if new = .inventory then s.flt.clear else s.flt } := by
  unfold setMode
  cases hm : s.mode <;> cases new <;> simp [onAffected, affected, drives]

/-- FIFO.PUT's store, as one channel replaced (R229). -/
theorem putBytes_eq (ch p) (s : State) : putBytes ch p s = s.setChan ch { s.chan ch with tx := { (s.chan ch).tx with ring := (s.chan ch).tx.ring.pushMany (txCap s.params ch) p }, txie := (s.chan ch).txie || decide (0 < p.length) } := rfl

/-- All that PROCESS does in Bypass (R266). -/
theorem processBypass_spec {s : State} (w : s.Inv) :
    let k0 := min (s.rxContents .ch0).length (txCap s.params .ch1 - (s.txContents .ch1).length)
    let k1 := min (s.rxContents .ch1).length (txCap s.params .ch0 - (s.txContents .ch0).length)
    ∃ (rx0 rx1 : RingBuffer RxEntry) (tx0 tx1 : RingBuffer Byte),
      processBypass s = ({ s with
        ch0 := { s.ch0 with
          rx := { s.ch0.rx with ring := rx0 }, tx := { s.ch0.tx with ring := tx0 }
          fwd := s.ch0.fwd + BitVec.ofNat 32 k0, txie := s.ch0.txie || decide (0 < k1) }
        ch1 := { s.ch1 with
          rx := { s.ch1.rx with ring := rx1 }, tx := { s.ch1.tx with ring := tx1 }
          fwd := s.ch1.fwd + BitVec.ofNat 32 k1, txie := s.ch1.txie || decide (0 < k0) } },
        Reply.ok (BitVec.ofNat 32 (k0 + k1))) ∧
      (rx0.contents (rxCap s.params .ch0) = (s.rxContents .ch0).drop k0 ∧
      rx1.contents (rxCap s.params .ch1) = (s.rxContents .ch1).drop k1 ∧
      tx1.contents (txCap s.params .ch1) = s.txContents .ch1 ++ ((s.rxContents .ch0).take k0).map RxEntry.byte ∧
      tx0.contents (txCap s.params .ch0) = s.txContents .ch0 ++ ((s.rxContents .ch1).take k1).map RxEntry.byte) ∧
      rx0.Wf (rxCap s.params .ch0) ∧ rx1.Wf (rxCap s.params .ch1) ∧ tx0.Wf (txCap s.params .ch0) ∧
      tx1.Wf (txCap s.params .ch1) := by
  have h0 := w.chan .ch0
  have h1 := w.chan .ch1
  have c0 := h0.tx.count
  have c1 := h1.tx.count
  simp only [State.rxContents, State.txContents, RingBuffer.length_contents]
  generalize hk0 : min (s.chan .ch0).rx.ring.count (txCap s.params .ch1 - (s.chan .ch1).tx.ring.count) = k0
  generalize hk1 : min (s.chan .ch1).rx.ring.count (txCap s.params .ch0 - (s.chan .ch0).tx.ring.count) = k1
  obtain ⟨p1, p2, p3, -⟩ := RingBuffer.popMany_spec h0.rx (n := k0) (by omega)
  obtain ⟨q1, q2, q3, -⟩ := RingBuffer.popMany_spec h1.rx (n := k1) (by omega)
  obtain ⟨u1, u2, -⟩ := RingBuffer.pushMany_spec h1.tx (es := (((s.chan .ch0).rx.ring.contents (rxCap s.params .ch0)).take k0).map RxEntry.byte)
    (by simp only [List.length_map, List.length_take]; omega)
  obtain ⟨v1, v2, -⟩ := RingBuffer.pushMany_spec h0.tx (es := (((s.chan .ch1).rx.ring.contents (rxCap s.params .ch1)).take k1).map RxEntry.byte)
    (by simp only [List.length_map, List.length_take]; omega)
  refine ⟨_, _, _, _, ?_, ⟨p2, q2, u1, v1⟩, p3, q3, v2, u2⟩
  rw [← p1, ← q1, ← hk0, ← hk1]
  rfl

/-! ## Every command -/

/-- What no command's effect touches: the parameters, the index, the time sample, the offers, the earlier result. -/
theorem effect_frame (i : Instr) (s : State) :
    (effectOf i s).1.params = s.params ∧ (effectOf i s).1.cmdIndex = s.cmdIndex ∧ (effectOf i s).1.now = s.now ∧
      (effectOf i s).1.inputs = s.inputs ∧ (effectOf i s).1.reply = s.reply := by
  cases i <;> simp only [effectOf, writeCrc, and_self]
  case fifoPut ch p => split; simp; split <;> simp [putBytes]
  case fifoGet => split; simp; simp [getEntries]
  case fifoFlush q => split; simp [raiseFault]; simp only [flushQueue]; split <;> simp
  case syncFeed => split <;> simp [returnFrames]
  case fltCheck => split <;> simp
  case modeSet => split; simp; simp [setMode_eq]
  case process => 
    split
    · simp
    · simp [processBypass, forward]
    · simp [processInventory, returnFrames]
  case regWrite r v =>
    split
    · simp
    · rcases regWrite_cases ‹_› with ⟨-, rfl, -⟩ | ⟨-, rfl⟩ | ⟨-, -, -, rfl⟩ <;> simp [writeIrqen]

/-- Only MODE.SET changes the mode (R33). -/
theorem effect_mode (i : Instr) (s : State) :
    (effectOf i s).1.mode = s.mode ∨ ∃ m new, i = .modeSet m ∧ modeOfBits m = some new ∧ (effectOf i s).1.mode = new := by
  cases i
  case fifoPut ch p => simp only [effectOf]; split; simp; split <;> simp [putBytes]
  case fifoGet => simp only [effectOf]; split; simp; simp [getEntries]
  case fifoFlush q => simp only [effectOf]; split; simp [raiseFault]; simp only [flushQueue]; split <;> simp
  case syncFeed => simp only [effectOf]; split <;> simp [returnFrames]
  case fltCheck => simp only [effectOf]; split <;> simp
  case modeSet m =>
    simp only [effectOf]
    split
    · exact .inl rfl
    · exact .inr ⟨m, _, rfl, ‹_›, by rw [setMode_eq]⟩
  case process => 
    simp only [effectOf]
    split
    · simp
    · simp [processBypass, forward]
    · simp [processInventory, returnFrames]
  case regWrite r v =>
    simp only [effectOf]
    split
    · simp
    · rcases regWrite_cases ‹_› with ⟨-, rfl, -⟩ | ⟨-, rfl⟩ | ⟨-, -, -, rfl⟩ <;> simp [writeIrqen]
  all_goals exact .inl rfl

/-- Only a FIFO.FLUSH of a live queue changes the fault condition (R324, R231). -/
theorem effect_fault (i : Instr) (s : State) :
    (effectOf i s).1.fault = s.fault ∨
    ∃ q, i = .fifoFlush q ∧ queueLive s q = true ∧ (effectOf i s).1.fault = some .hazardFlushLive := by
  cases i
  case fifoPut ch p => simp only [effectOf]; split; simp; split <;> simp [putBytes]
  case fifoGet => simp only [effectOf]; split; simp; simp [getEntries]
  case fifoFlush q =>
    simp only [effectOf]
    split
    · exact .inr ⟨q, rfl, ‹_›, rfl⟩
    · simp only [flushQueue]; split <;> simp
  case syncFeed => simp only [effectOf]; split <;> simp [returnFrames]
  case fltCheck => simp only [effectOf]; split <;> simp
  case modeSet => simp only [effectOf]; split; simp; simp [setMode_eq]
  case process =>
    simp only [effectOf]
    split
    · simp
    · simp [processBypass, forward]
    · simp [processInventory, returnFrames]
  case regWrite r v =>
    simp only [effectOf]
    split
    · simp
    · rcases regWrite_cases ‹_› with ⟨-, rfl, -⟩ | ⟨-, rfl⟩ | ⟨-, -, -, rfl⟩ <;> simp [writeIrqen]
  all_goals exact .inl rfl

/-- All that a command can do to the synchronizer (R199). -/
theorem effect_sync (i : Instr) (s : State) :
    (effectOf i s).1.sync = s.sync ∨
    (∃ p, i = .syncFeed p ∧ s.mode ≠ .inventory ∧ (effectOf i s).1.sync = (s.sync.feed s.params.syncTimeout s.now p).1) ∨
    (i = .syncReset ∧ (effectOf i s).1.sync = s.sync.reset) ∨
    (∃ m, i = .modeSet m ∧ (s.mode = .inventory ∨ m = 2#2) ∧ (effectOf i s).1.sync = s.sync.reset) ∨
    (i = .process ∧ s.mode = .inventory ∧ ∃ es, (effectOf i s).1.sync = (s.sync.drain s.params.syncTimeout s.now es).1) := by
  cases i
  case fifoPut ch p => simp only [effectOf]; split; simp; split <;> simp [putBytes]
  case fifoGet => simp only [effectOf]; split; simp; simp [getEntries]
  case fifoFlush q => simp only [effectOf]; split; simp [raiseFault]; simp only [flushQueue]; split <;> simp
  case syncReset => exact .inr (.inr (.inl ⟨rfl, rfl⟩))
  case syncFeed p =>
    simp only [effectOf]; split
    · exact .inl rfl
    · exact .inr (.inl ⟨p, rfl, ‹_›, rfl⟩)
  case fltCheck => simp only [effectOf]; split <;> simp
  case modeSet m =>
    simp only [effectOf]
    split
    · exact .inl rfl
    · rename_i new hnew
      rw [setMode_eq]
      by_cases h : s.mode = .inventory ∨ new = .inventory
      · refine .inr (.inr (.inr (.inl ⟨m, rfl, ?_, by simp [h]⟩)))
        rcases h with h | rfl
        · exact .inl h
        · right; revert hnew; revert m; decide
      · left; simp [h]
  case process =>
    simp only [effectOf]
    split
    · simp
    · simp [processBypass, forward]
    · exact .inr (.inr (.inr (.inr ⟨trivial, ‹_›, _, rfl⟩)))
  case regWrite r v =>
    simp only [effectOf]
    split
    · simp
    · rcases regWrite_cases ‹_› with ⟨-, rfl, -⟩ | ⟨-, rfl⟩ | ⟨-, -, -, rfl⟩ <;> simp [writeIrqen]
  all_goals exact .inl rfl

/-- All that a command can do to the filter. -/
theorem effect_flt (i : Instr) (s : State) :
    (effectOf i s).1.flt = s.flt ∨
    (∃ e, i = .fltCheck e ∧ e ≠ [] ∧ e.length ≤ s.params.epcMax ∧ (effectOf i s).1.flt = (s.flt.check e s.now).1) ∨
    ((effectOf i s).1.flt = s.flt.clear ∧ (i = .fltClear ∨ ∃ m, i = .modeSet m)) ∨
    (∃ v, i = .regWrite 0x05#8 v ∧ (effectOf i s).1.flt = { s.flt with win := v }) ∨
    (∃ v, i = .regWrite 0x06#8 v ∧ 1 ≤ v.toNat ∧ v.toNat ≤ s.params.fltMaxCap ∧
      (effectOf i s).1.flt = TagFilter.clear { s.flt with cap := v.toNat }) := by
  cases i
  case fifoPut ch p => simp only [effectOf]; split; simp; split <;> simp [putBytes]
  case fifoGet => simp only [effectOf]; split; simp; simp [getEntries]
  case fifoFlush q => simp only [effectOf]; split; simp [raiseFault]; simp only [flushQueue]; split <;> simp
  case syncFeed p => simp only [effectOf]; split <;> exact .inl rfl
  case fltCheck e =>
    simp only [effectOf]; split
    · exact .inl rfl
    · rename_i h
      exact .inr (.inl ⟨e, rfl, by rintro rfl; simp at h, by omega, rfl⟩)
  case fltClear => exact .inr (.inr (.inl ⟨rfl, .inl rfl⟩))
  case modeSet m =>
    simp only [effectOf]
    split
    · exact .inl rfl
    · rename_i new hnew
      rw [setMode_eq]
      by_cases h : new = .inventory
      · exact .inr (.inr (.inl ⟨by simp [h], .inr ⟨m, rfl⟩⟩))
      · left; simp [h]
  case process =>
    simp only [effectOf]
    split
    · simp
    · simp [processBypass, forward]
    · exact .inl rfl
  case regWrite r v =>
    simp only [effectOf]
    split
    · simp
    · rcases regWrite_cases ‹_› with ⟨-, rfl, -⟩ | ⟨rfl, rfl⟩ | ⟨rfl, h1, h2, rfl⟩
      · exact .inl rfl
      · exact .inr (.inr (.inr (.inl ⟨v, rfl, rfl⟩)))
      · exact .inr (.inr (.inr (.inr ⟨v, rfl, h1, h2, rfl⟩)))
  all_goals exact .inl rfl

/-- All that a command can do to channel n. -/
theorem effect_chan {s : State} (w : s.Inv) (i : Instr) (n : Chan) :
    (effectOf i s).1.chan n = s.chan n ∨
    (∃ p, i = .fifoPut n p ∧ (effectOf i s).1.chan n = { s.chan n with txerr := (s.chan n).txerr + 1#32 }) ∨
    (∃ p r, i = .fifoPut n p ∧ (effectOf i s).1.chan n =
        { s.chan n with tx := { (s.chan n).tx with ring := r }, txie := (s.chan n).txie || decide (0 < p.length) } ∧
      r.contents (txCap s.params n) = s.txContents n ++ p ∧ r.Wf (txCap s.params n)) ∨
    (∃ m k r, i = .fifoGet n m ∧ (effectOf i s).1.chan n = { s.chan n with rx := { (s.chan n).rx with ring := r } } ∧
      r.contents (rxCap s.params n) = (s.rxContents n).drop k ∧ r.Wf (rxCap s.params n)) ∨
    (∃ q, i = .fifoFlush q ∧ (s.chan n).rxie = false ∧
      (effectOf i s).1.chan n = { s.chan n with rx := (s.chan n).rx.flush }) ∨
    (∃ q, i = .fifoFlush q ∧ (s.chan n).txie = false ∧
      (effectOf i s).1.chan n = { s.chan n with tx := (s.chan n).tx.flush }) ∨
    (∃ m, i = .modeSet m ∧ bracketed s.mode (effectOf i s).1.mode n ∧
      (effectOf i s).1.chan n = (s.chan n).pause.flushBoth.resume) ∨
    (i = .process ∧ s.mode = .bypass ∧ ∃ k k' rx tx added, (effectOf i s).1.chan n =
        { s.chan n with
          rx := { (s.chan n).rx with ring := rx }, tx := { (s.chan n).tx with ring := tx }
          fwd := (s.chan n).fwd + k', txie := (s.chan n).txie || decide (0 < List.length added) } ∧
      rx.contents (rxCap s.params n) = (s.rxContents n).drop k ∧
      tx.contents (txCap s.params n) = s.txContents n ++ added ∧ rx.Wf (rxCap s.params n) ∧ tx.Wf (txCap s.params n)) ∨
    (i = .process ∧ s.mode = .inventory ∧ ∃ k r, (effectOf i s).1.chan n = { s.chan n with rx := { (s.chan n).rx with ring := r } } ∧
      r.contents (rxCap s.params n) = (s.rxContents n).drop k ∧ r.Wf (rxCap s.params n)) ∨
    (∃ v, i = .regWrite 0x01#8 v ∧ (effectOf i s).1.chan n = { s.chan n with
        rxie := v.getLsbD (match n with | .ch0 => 0 | .ch1 => 2)
        txie := v.getLsbD (match n with | .ch0 => 1 | .ch1 => 3) }) := by
  have hw := w.chan n
  cases i
  case fifoPut ch p =>
    simp only [effectOf]
    split
    · exact .inl rfl
    · by_cases hn : n = ch
      · subst hn
        split
        · exact .inr (.inl ⟨p, rfl, by simp⟩)
        · rename_i hr
          have : (s.chan n).tx.ring.count + p.length ≤ txCap s.params n := by
            have := hw.tx.count; simp only [RingBuffer.free] at hr; omega
          obtain ⟨h1, h2, -⟩ := RingBuffer.pushMany_spec hw.tx this
          exact .inr (.inr (.inl ⟨p, _, rfl, by rw [putBytes_eq, State.chan_setChan_self], h1, h2⟩))
      · left
        split
        · exact State.chan_setChan_ne s hn _
        · exact State.chan_setChan_ne s hn _
  case fifoGet ch m =>
    simp only [effectOf]
    split
    · exact .inl rfl
    · by_cases hn : n = ch
      · subst hn
        obtain ⟨-, h2, h3, -⟩ := RingBuffer.popMany_spec hw.rx (Nat.min_le_right m.toNat (s.chan n).rx.ring.count)
        exact .inr (.inr (.inr (.inl ⟨m, _, _, rfl, by simp only [getEntries, State.chan_setChan_self], h2, h3⟩)))
      · exact .inl (State.chan_setChan_ne s hn _)
  case fifoFlush q =>
    simp only [effectOf]
    split
    · exact .inl rfl
    · rename_i h
      cases q <;> cases n <;> simp only [queueLive, queueIsRx, queueChan, if_true] at h
      all_goals first
        | exact .inl rfl
        | exact .inr (.inr (.inr (.inr (.inl ⟨_, rfl, by simpa using h, rfl⟩))))
        | exact .inr (.inr (.inr (.inr (.inr (.inl ⟨_, rfl, by simpa using h, rfl⟩)))))
  case syncFeed => left; simp only [effectOf]; split <;> rfl
  case fltCheck => left; simp only [effectOf]; split <;> rfl
  case modeSet m =>
    simp only [effectOf]
    split
    · exact .inl rfl
    · rename_i new _
      rw [setMode_eq]
      by_cases hb : affected s.mode new n = true
      · refine .inr (.inr (.inr (.inr (.inr (.inr (.inl ⟨m, rfl, ?_, ?_⟩))))))
        · revert hb; simp only; cases s.mode <;> cases new <;> cases n <;> simp [affected, drives, bracketed]
        · cases n <;> simp [State.chan, hb]
      · left; cases n <;> simp [State.chan, hb]
  case process =>
    simp only [effectOf]
    split
    · exact .inl rfl
    · rename_i hm
      obtain ⟨rx0, rx1, tx0, tx1, h, ⟨h1, h2, h3, h4⟩, g1, g2, g3, g4⟩ := processBypass_spec w
      refine .inr (.inr (.inr (.inr (.inr (.inr (.inr (.inl ⟨trivial, hm, ?_⟩)))))))
      rw [h]
      have len : ∀ (l : List RxEntry) k, k ≤ l.length → decide (0 < (List.map RxEntry.byte (l.take k)).length) = decide (0 < k) := by
        intro l k hk; simp only [List.length_map, List.length_take, Nat.min_eq_left hk]
      cases n
      · exact ⟨_, _, rx0, tx0, _, by rw [len _ _ (Nat.min_le_left _ _)]; rfl, h1, h4, g1, g3⟩
      · exact ⟨_, _, rx1, tx1, _, by rw [len _ _ (Nat.min_le_left _ _)]; rfl, h2, h3, g2, g4⟩
    · rename_i hm
      cases n
      · obtain ⟨-, h2, h3, -⟩ := RingBuffer.popMany_spec hw.rx (le_refl (s.chan .ch0).rx.ring.count)
        exact .inr (.inr (.inr (.inr (.inr (.inr (.inr (.inr (.inl ⟨trivial, hm, _, _, rfl, h2, h3⟩))))))))
      · exact .inl rfl
  case regWrite r v =>
    simp only [effectOf]
    split
    · exact .inl rfl
    · rcases regWrite_cases ‹_› with ⟨rfl, rfl, -⟩ | ⟨-, rfl⟩ | ⟨-, -, -, rfl⟩
      · exact .inr (.inr (.inr (.inr (.inr (.inr (.inr (.inr (.inr ⟨v, rfl, by cases n <;> rfl⟩))))))))
      · exact .inl (by cases n <;> rfl)
      · exact .inl (by cases n <;> rfl)
  all_goals exact .inl rfl

end Sys2Proof.Machine
end

