-- ==== Sys2Proof/Laws/PerInstr.lean ====
section
/-! SUPPORT. What holds of every command as syntax, one lemma per constructor: the bytes that follow its word are PLEN of
that word (30_encoding.md R119, R122). -/

open Sys2Proof

/-- A well-formed command carries exactly the payload bytes its own word announces (R122). -/
def Sys2Proof.Laws.PayloadLength.Statement (i : Instr) : Prop :=
  WellFormed i → i.payloadBytes.length = plen (encodeWord i)

theorem Sys2Proof.Laws.PayloadLength.nop : Sys2Proof.Laws.PayloadLength.Statement .nop := by
  intro _
  rw [plen_encodeWord]
  rfl

theorem Sys2Proof.Laws.PayloadLength.crcInit : Sys2Proof.Laws.PayloadLength.Statement .crcInit := by
  intro _
  rw [plen_encodeWord]
  rfl

theorem Sys2Proof.Laws.PayloadLength.crcByte (b : Byte) : Sys2Proof.Laws.PayloadLength.Statement (.crcByte b) := by
  intro _
  rw [plen_encodeWord]
  rfl

theorem Sys2Proof.Laws.PayloadLength.crcUpdate (p : List Byte) : Sys2Proof.Laws.PayloadLength.Statement (.crcUpdate p) := by
  intro h
  rw [plen_encodeWord]
  exact (countImm_low h).symm

theorem Sys2Proof.Laws.PayloadLength.crcCompute (p : List Byte) : Sys2Proof.Laws.PayloadLength.Statement (.crcCompute p) := by
  intro h
  rw [plen_encodeWord]
  exact (countImm_low h).symm

theorem Sys2Proof.Laws.PayloadLength.crcVerify (p : List Byte) : Sys2Proof.Laws.PayloadLength.Statement (.crcVerify p) := by
  intro h
  rw [plen_encodeWord]
  exact (countImm_low h).symm

theorem Sys2Proof.Laws.PayloadLength.crcSeal (p : List Byte) : Sys2Proof.Laws.PayloadLength.Statement (.crcSeal p) := by
  intro h
  rw [plen_encodeWord]
  exact (countImm_low h).symm

theorem Sys2Proof.Laws.PayloadLength.fifoPut (ch : Chan) (p : List Byte) : Sys2Proof.Laws.PayloadLength.Statement (.fifoPut ch p) := by
  intro h
  rw [plen_encodeWord]
  exact (countImm_low h).symm

theorem Sys2Proof.Laws.PayloadLength.fifoGet (ch : Chan) (n : Half) : Sys2Proof.Laws.PayloadLength.Statement (.fifoGet ch n) := by
  intro _
  rw [plen_encodeWord]
  rfl

theorem Sys2Proof.Laws.PayloadLength.fifoFlush (q : QueueSel) : Sys2Proof.Laws.PayloadLength.Statement (.fifoFlush q) := by
  intro _
  rw [plen_encodeWord]
  rfl

theorem Sys2Proof.Laws.PayloadLength.syncFeed (p : List Byte) : Sys2Proof.Laws.PayloadLength.Statement (.syncFeed p) := by
  intro h
  rw [plen_encodeWord]
  exact (countImm_low h).symm

theorem Sys2Proof.Laws.PayloadLength.syncReset : Sys2Proof.Laws.PayloadLength.Statement .syncReset := by
  intro _
  rw [plen_encodeWord]
  rfl

theorem Sys2Proof.Laws.PayloadLength.fltCheck (p : List Byte) : Sys2Proof.Laws.PayloadLength.Statement (.fltCheck p) := by
  intro h
  rw [plen_encodeWord]
  exact (countImm_low h).symm

theorem Sys2Proof.Laws.PayloadLength.fltClear : Sys2Proof.Laws.PayloadLength.Statement .fltClear := by
  intro _
  rw [plen_encodeWord]
  rfl

theorem Sys2Proof.Laws.PayloadLength.modeSet (m : BitVec 2) : Sys2Proof.Laws.PayloadLength.Statement (.modeSet m) := by
  intro _
  rw [plen_encodeWord]
  rfl

theorem Sys2Proof.Laws.PayloadLength.process : Sys2Proof.Laws.PayloadLength.Statement .process := by
  intro _
  rw [plen_encodeWord]
  rfl

theorem Sys2Proof.Laws.PayloadLength.regRead (r : Byte) : Sys2Proof.Laws.PayloadLength.Statement (.regRead r) := by
  intro _
  rw [plen_encodeWord]
  rfl

theorem Sys2Proof.Laws.PayloadLength.regWrite (r : Byte) (v : Word) : Sys2Proof.Laws.PayloadLength.Statement (.regWrite r v) := by
  intro _
  rw [plen_encodeWord]
  rfl
end

