-- ==== Sys2Proof/Tests/Slice0.lean ====
section
/-! SUPPORT. Tests: the checks of WellFormed, the encodings bit by bit, one small step per instruction with the expected
values of 95_test_vectors.md, and a witness for the hypotheses of every statement. -/

namespace Sys2Proof.Machine

/-! ## WellFormed: each payload-carrying command refuses 256 bytes (30_encoding.md R122) -/

/-- One byte more than PAYLOAD_MAX. -/
def tooLong : List Byte := List.replicate 256 0#8

theorem too_long : ¬ payloadFits tooLong := by
  unfold payloadFits tooLong
  rw [List.length_replicate]
  decide

theorem test_wf_crcUpdate : ¬ WellFormed (.crcUpdate tooLong) := too_long
theorem test_wf_crcCompute : ¬ WellFormed (.crcCompute tooLong) := too_long
theorem test_wf_crcVerify : ¬ WellFormed (.crcVerify tooLong) := too_long
theorem test_wf_crcSeal : ¬ WellFormed (.crcSeal tooLong) := too_long
theorem test_wf_fifoPut : ¬ WellFormed (.fifoPut .ch0 tooLong) := too_long
theorem test_wf_syncFeed : ¬ WellFormed (.syncFeed tooLong) := too_long
theorem test_wf_fltCheck : ¬ WellFormed (.fltCheck tooLong) := too_long
theorem test_wf_longest : WellFormed (.crcUpdate (List.replicate 255 0#8)) :=
  Nat.le_of_eq List.length_replicate

/-! ## Encodings, OPC SEL IMM bit by bit from R121 and R125 -/

theorem test_decode_nop : decodeTableWord 32 0b00000000_00000000_0000000000000000 = some .nop := by decide
theorem test_decode_crcInit : decodeTableWord 32 0b00010000_00000000_0000000000000000 = some .crcInit := by decide
theorem test_decode_crcByte : decodeTableWord 32 0b00010001_00000000_0000000010100101 = some (.crcByte 0xA5#8) := by decide
theorem test_decode_crcUpdate :
    decode (serial 0b00010010_00000000_0000000000000010#32 [5#8, 0#8]) = .instr (.crcUpdate [5#8, 0#8]) := by decide
theorem test_decode_crcCompute :
    decode (serial 0b00010011_00000000_0000000000000001#32 [7#8]) = .instr (.crcCompute [7#8]) := by decide
theorem test_decode_crcVerify :
    decode (serial 0b00010100_00000000_0000000000000010#32 [1#8, 2#8]) = .instr (.crcVerify [1#8, 2#8]) := by decide
theorem test_decode_crcSeal :
    decode (serial 0b00010101_00000000_0000000000000010#32 [0#8, 0x51#8]) = .instr (.crcSeal [0#8, 0x51#8]) := by decide
theorem test_decode_fifoPut :
    decode (serial 0b00100000_00000001_0000000000000001#32 [9#8]) = .instr (.fifoPut .ch1 [9#8]) := by decide
theorem test_decode_fifoGet :
    decodeTableWord 32 0b00100001_00000001_1000000000000001 = some (.fifoGet .ch1 0x8001#16) := by decide
theorem test_decode_fifoFlush_tx0 : decodeTableWord 32 0b00100010_00000001_0000000000000000 = some (.fifoFlush .tx0) := by decide
theorem test_decode_fifoFlush_rx1 : decodeTableWord 32 0b00100010_00000010_0000000000000000 = some (.fifoFlush .rx1) := by decide
theorem test_decode_syncFeed :
    decode (serial 0b00110000_00000000_0000000000000001#32 [4#8]) = .instr (.syncFeed [4#8]) := by decide
theorem test_decode_syncReset : decodeTableWord 32 0b00110001_00000000_0000000000000000 = some .syncReset := by decide
theorem test_decode_fltCheck :
    decode (serial 0b01000000_00000000_0000000000000001#32 [0xAA#8]) = .instr (.fltCheck [0xAA#8]) := by decide
theorem test_decode_fltClear : decodeTableWord 32 0b01000001_00000000_0000000000000000 = some .fltClear := by decide
theorem test_decode_modeSet : decodeTableWord 32 0b01010000_00000000_0000000000000010 = some (.modeSet 2#2) := by decide
theorem test_decode_process : decodeTableWord 32 0b01010001_00000000_0000000000000000 = some .process := by decide
theorem test_decode_regRead : decodeTableWord 32 0b01100000_10000001_0000000000000000 = some (.regRead 0x81#8) := by decide
theorem test_decode_regWrite :
    decode (serial 0b01100001_00000101_0000000000000100#32 [0x78#8, 0x56#8, 0x34#8, 0x12#8]) =
      .instr (.regWrite 0x05#8 0x12345678#32) := by decide

/-- V-CRC-9, V-FIFO-13, V-CTL-2, V-CTL-5, V-CTL-7: words that are illegal. -/
theorem test_decode_illegal :
    [0x11000150, 0x10010000, 0x20020000, 0x22040000, 0x21800001, 0x50000004, 0x60010001, 0x00000001, 0x70000012].map
      (decodeTableWord 32) = List.replicate 9 none := by decide

/-! ## One step of each instruction -/

/-- The parameters of the vectors with RB_CAP = 8 for every queue. -/
def eight : Params := { Params.vectors with rbCapRx0 := 8, rbCapTx0 := 8, rbCapRx1 := 8, rbCapTx1 := 8 }

/-- A block with these parameters right after reset. -/
def fresh : State := State.resetWith eight

/-- The state with one command offered at time t. -/
def offer (i : Instr) (t : Word) (s : State) : State := { s with inputs := [.command (encode i) t] }

/-- The state a step answers. -/
def stepped (s : State) : Option State :=
  match step s with
  | .next t => some t
  | .fault _ => none
  | .refused _ => none

/-- The states of commands at their times, one after another. -/
def ran (cs : List (Instr × Word)) (s : State) : Option State :=
  cs.foldl (fun o c => o.bind fun s => stepped (offer c.1 c.2 s)) (some s)

/-- A result code, value and data bytes. -/
def answers (o : Option State) : Option (Code × Word × List Byte) :=
  (o.bind State.reply).map fun r => (r.code, r.value, r.data)

/-- The reset state in a mode, with the bytes received on channel 0. -/
def receiving (m : Mode) (p : List Byte) : State :=
  { fresh with mode := m, ch0 := p.foldl (fun c b => c.receive 8 b) { fresh.ch0 with rxie := true } }

/-- V-CTL-7. -/
theorem test_nop : answers (ran [(.nop, 3#32)] fresh) = some (.ok, 0#32, []) := by decide

/-- P1 row 0. -/
theorem test_crcInit : answers (ran [(.crcInit, 0#32)] fresh) = some (.ok, 0xFFFF#32, []) := by decide

/-- V-CRC-3. -/
theorem test_crcByte : (ran [(.crcByte 0x05#8, 0#32)] fresh).map State.crc = some 0x582A#16 := by decide

/-- V-CRC-4: the catalogue check value of "123456789". -/
theorem test_crcUpdate :
    (ran [(.crcUpdate [0x31#8, 0x32#8, 0x33#8, 0x34#8, 0x35#8, 0x36#8, 0x37#8, 0x38#8, 0x39#8], 0#32)] fresh).map State.crc =
      some 0x6F91#16 := by decide +kernel

/-- V-CRC-2. -/
theorem test_crcCompute :
    answers (ran [(.crcCompute [0x80#8], 0#32)] fresh) = some (.ok, 0x8B8F#32, []) := by decide

/-- V-CRC-6. -/
theorem test_crcVerify_good :
    answers (ran [(.crcVerify [5#8, 0#8, 0x50#8, 0#8, 0x81#8, 0xBE#8], 0#32)] fresh) = some (.ok, 1#32, []) := by decide +kernel
theorem test_crcVerify_bad :
    answers (ran [(.crcVerify [5#8, 0#8, 0x50#8, 1#8, 0x81#8, 0xBE#8], 0#32)] fresh) = some (.ok, 0#32, []) := by decide +kernel

/-- V-CRC-7, W6. -/
theorem test_crcSeal :
    answers (ran [(.crcSeal [0#8, 0x50#8, 0#8], 0#32)] fresh) =
      some (.ok, 6#32, [5#8, 0#8, 0x50#8, 0#8, 0x81#8, 0xBE#8]) := by decide +kernel
theorem test_crcSeal_short : answers (ran [(.crcSeal [0#8], 0#32)] fresh) = some (.invalidParam, 0#32, []) := by decide

/-- V-SYNC-4: Len 00 and Len FF are dropped. -/
theorem test_syncFeed :
    ((ran [(.syncFeed [0#8, 0xFF#8, 5#8, 0#8, 0x50#8, 0#8, 0x81#8, 0xBE#8], 0#32)] fresh).bind State.reply).map Reply.frames =
      some [[5#8, 0#8, 0x50#8, 0#8, 0x81#8, 0xBE#8]] := by decide +kernel

/-- V-SYNC-12. -/
theorem test_syncReset :
    (ran [(.syncFeed [5#8, 1#8], 7#32), (.syncReset, 9#32)] fresh).map (fun s => (syncstWord s.sync, s.sync.last)) =
      some (0#32, 7#32) := by decide

/-- V-FIFO-1: IRQEN = 0x2 afterwards. -/
theorem test_fifoPut :
    (ran [(.fifoPut .ch0 [5#8, 0#8, 0x50#8, 0#8, 0x81#8, 0xBE#8], 0#32)] fresh).map
      (fun s => (s.ch0.tx.ring.count, irqenWord s)) = some (6, 2#32) := by decide

/-- V-FIFO-3: all or nothing, the free room as value. -/
theorem test_fifoPut_overflow :
    answers (ran [(.fifoPut .ch0 [1#8, 2#8, 3#8, 4#8, 5#8, 6#8], 0#32), (.fifoPut .ch0 [1#8, 2#8, 3#8], 0#32)] fresh) =
      some (.bufferOverflow, 2#32, []) := by decide

/-- V-FIFO-6: ten bytes into eight entries, one taken. -/
theorem test_fifoGet :
    answers (ran [(.fifoGet .ch0 1#16, 0#32)]
      (receiving .idle [1#8, 2#8, 3#8, 4#8, 5#8, 6#8, 7#8, 8#8, 9#8, 10#8])) = some (.ok, 1#32, [1#8]) := by decide

/-- V-FIFO-7: a live queue. -/
theorem test_fifoFlush_live :
    (ran [(.fifoFlush .rx0, 0#32)] (receiving .inventory [1#8])).map State.fault = some (some .hazardFlushLive) := by decide

/-- V-FIFO-8: a paused queue. -/
theorem test_fifoFlush :
    (ran [(.regWrite 0x01#8 0#32, 0#32), (.fifoFlush .rx0, 0#32)] (receiving .inventory [1#8, 2#8])).map
      (fun s => s.ch0.rx.ring.count) = some 0 := by decide

/-- V-FLT-1, V-FLT-7. -/
theorem test_fltCheck :
    answers (ran [(.fltCheck [0xE2#8, 0#8], 0#32), (.fltCheck [0xE2#8, 0#8], 10#32)] fresh) = some (.ok, 0#32, []) := by decide
theorem test_fltCheck_empty : answers (ran [(.fltCheck [], 0#32)] fresh) = some (.invalidParam, 0#32, []) := by decide

/-- V-FLT-10. -/
theorem test_fltClear :
    (ran [(.fltCheck [0xE2#8], 0#32), (.fltClear, 0#32)] fresh).map (fun s => s.flt.count) = some 0 := by decide

/-- V-CTL-1: from Inventory to Idle, receive resumed. -/
theorem test_modeSet :
    (ran [(.modeSet 2#2, 0#32), (.modeSet 0#2, 0#32)] fresh).map (fun s => (s.mode, irqenWord s, s.reply)) =
      some (.idle, 1#32, some (Reply.ok 2#32)) := by decide

/-- V-CTL-3, one direction: three bytes forwarded. -/
theorem test_process_bypass :
    (ran [(.process, 0#32)] (receiving .bypass [0x61#8, 0x62#8, 0x63#8])).map (fun s => (s.txContents .ch1, s.ch0.fwd)) =
      some ([0x61#8, 0x62#8, 0x63#8], 3#32) := by decide

/-- V-SYNC-1 through RX0 and PROCESS in Inventory. -/
theorem test_process_inventory :
    ((ran [(.process, 0#32)] (receiving .inventory [5#8, 0#8, 0x50#8, 0#8, 0x81#8, 0xBE#8])).bind State.reply).map
      Reply.frames = some [[5#8, 0#8, 0x50#8, 0#8, 0x81#8, 0xBE#8]] := by decide +kernel

/-- V-CTL-5. -/
theorem test_regRead : answers (ran [(.regRead 0x05#8, 0#32)] fresh) = some (.ok, 1000#32, []) := by decide
theorem test_regWrite : (ran [(.regWrite 0x05#8 500#32, 0#32)] fresh).map (fun s => s.flt.win) = some 500#32 := by decide

/-- V-SYNC-6 step 3: the ninth byte is dropped. -/
theorem test_urx_full :
    readReg (receiving .inventory [9#8, 0xAA#8, 0xAA#8, 0xAA#8, 0xAA#8, 0xAA#8, 0xAA#8, 0xAA#8, 0x77#8]) (.qstat .rx0) =
      0x00010008#32 := by decide

/-- V-FIFO-2: two of the four bytes claimed are sent. -/
theorem test_utx :
    (((ran [(.fifoPut .ch0 [5#8, 0#8, 0x50#8, 0#8, 0x81#8, 0xBE#8], 0#32)] fresh).bind fun s =>
      stepped { s with inputs := [.utx .ch0 4 2] }).map fun s => (s.ch0.wire, s.ch0.tx.ring.count, s.ch0.txie)) =
      some ([5#8, 0#8], 4, true) := by decide

/-- A table word placed for the next step runs (log 17): REG.READ FLTCAP after reset, V-CTL-5. -/
theorem test_withFetchWord :
    answers (stepped (State.reset.withFetchWord 32 0x60060000)) = some (.ok, 32#32, []) := by decide

/-- V-ENC-1: FIFO.GET's result in serial form. -/
theorem test_serialForm :
    Reply.serialForm { code := .ok, value := 2#32, data := [0x41#8, 0x42#8], tags := [false, false], frames := [] } =
      [0#8, 2#8, 0#8, 0#8, 0#8, 2#8, 0#8, 0x41#8, 0x42#8, 0#8, 0#8, 0#8] := by decide

/-! ## Witnesses: concrete states and operands that meet a statement's hypotheses, each clause at its boundaries -/

/-- A step that answers a next state with a property, found by evaluation. -/
theorem step_answers {s : State} (P : State → Prop) [DecidablePred P]
    (h : ((stepped s).any fun t => decide (P t)) = true) : ∃ t, step s = .next t ∧ P t := by
  unfold stepped at h
  cases hs : step s with
  | next t => exact ⟨t, rfl, by simpa [hs] using h⟩
  | fault r => simp [hs] at h
  | refused r => simp [hs] at h

/-- A step that answers a next state, found by evaluation. -/
theorem step_goes {s : State} (h : (stepped s).isSome = true) : ∃ t, step s = .next t := by
  unfold stepped at h
  cases hs : step s with
  | next t => exact ⟨t, rfl⟩
  | fault r => simp [hs] at h
  | refused r => simp [hs] at h

theorem eight_valid : eight.Valid := by simp [Params.Valid, eight, Params.vectors]

/-- The reset state has the invariants of its units. -/
theorem fresh_inv : fresh.Inv where
  params := eight_valid
  ch0 := Channel.wf_fresh (by decide) (by decide)
  ch1 := Channel.wf_fresh (by decide) (by decide)
  sync := Sync.wf_fresh
  flt := TagFilter.wf_fresh (by decide)

/-- Channel 0 enabled, with one byte received. -/
def busyChannel : Channel := { fresh.ch0 with rxie := true, txie := true }.receive 8 0x41#8

/-- A state with a live, non-empty channel 0. -/
def busy : State := fresh.setChan .ch0 busyChannel

theorem busy_inv : busy.Inv :=
  State.inv_setChan fresh_inv .ch0
    (Channel.wf_receive (a := 8) (b := 8) (c := { fresh.ch0 with rxie := true, txie := true })
      (Channel.wf_of_queues (fresh_inv.chan .ch0) rfl rfl) 0x41#8)

/-- The state in a mode. -/
def inMode (m : Mode) (s : State) : State := { s with mode := m }

/-- The state with these offers. -/
def offering (os : List Input) (s : State) : State := { s with inputs := os }

theorem inMode_inv {s : State} (w : s.Inv) (m : Mode) : (inMode m s).Inv := State.inv_of_units w rfl rfl rfl rfl rfl
theorem offering_inv {s : State} (w : s.Inv) (os : List Input) : (offering os s).Inv := State.inv_of_units w rfl rfl rfl rfl rfl

/-- A FAULTED state. -/
def faulted : State := { fresh with fault := some .hazardFlushLive }

/-- Whether a row of the opcode table matches, by evaluation. -/
def matched (w : Word) : Bool := opcodeTable.any fun row => w &&& row.2 == row.1

theorem some_row {w : Word} (h : matched w = true) : ∃ row ∈ opcodeTable, w &&& row.2 = row.1 := by
  simpa only [matched, List.any_eq_true, beq_iff_eq] using h

theorem no_row {w : Word} (h : matched w = false) : ∀ row ∈ opcodeTable, w &&& row.2 ≠ row.1 := by
  simpa only [matched, List.any_eq_false, beq_iff_eq] using h

theorem witness_DecodeInvertsEncode :
    WellFormed (.fifoPut .ch1 (List.replicate 255 0#8)) ∧ WellFormed (.regWrite 0xFF#8 0xFFFFFFFF#32) :=
  ⟨Nat.le_of_eq List.length_replicate, Nat.zero_le _⟩

theorem witness_EncodeInvertsDecode : decode [0x01#8, 0#8, 0x01#8, 0x20#8, 9#8] = .instr (.fifoPut .ch1 [9#8]) := by
  decide

theorem witness_DecoderAgreesWithOpcodeTable :
    (([9#8] : List Byte).length = plen 0x20010001#32 ∧ ∃ row ∈ opcodeTable, 0x20010001#32 &&& row.2 = row.1) ∧
    (([] : List Byte).length = plen 0x70000012#32 ∧ ∀ row ∈ opcodeTable, 0x70000012#32 &&& row.2 ≠ row.1) :=
  ⟨⟨by decide, some_row (by decide)⟩, by decide, no_row (by decide)⟩

theorem witness_StepRunsDecodedCommand :
    ∃ (s : State) (bytes : List Byte) (t : Word) (rest : List Input) (i : Instr),
      s.fault = none ∧ s.inputs = .command bytes t :: rest ∧ decode bytes = .instr i :=
  ⟨offering [.command [0#8, 0#8, 0#8, 0x51#8] 5#32, .reset] busy, _, _, _, .process, rfl, rfl, by decide⟩

/-- An undefined OPC, which has no payload, and a CRC.UPDATE with IMM[15:8] set, whose payload is consumed. -/
theorem witness_IllegalWordAnswersIllegalCommand :
    (fresh.fault = none ∧ ([] : List Byte).length = plen 0x70000012#32 ∧
      ∀ row ∈ opcodeTable, 0x70000012#32 &&& row.2 ≠ row.1) ∧
    (([7#8] : List Byte).length = plen 0x12000101#32 ∧ ∀ row ∈ opcodeTable, 0x12000101#32 &&& row.2 ≠ row.1) :=
  ⟨⟨rfl, by decide, no_row (by decide)⟩, by decide, no_row (by decide)⟩

theorem witness_WrongPayloadLengthIsRefused : fresh.fault = none ∧ ([7#8] : List Byte).length ≠ plen 0x12000002#32 := by
  decide

/-- FAULTED, with an arriving byte offered; and with RESET offered, after which it is not FAULTED. -/
theorem witness_FaultedBlockTakesOnlyReset :
    (offering [.urx .ch0 1#8] faulted).fault ≠ none ∧ (Input.urx .ch0 1#8 ≠ .reset) ∧
    ∃ t, step (offering [.reset] faulted) = .next t ∧ t.fault = none := ⟨by decide, by decide, step_answers _ (by decide)⟩

theorem witness_LegalOfferAlwaysSteps :
    offerLegal busy (.command (serial 0x12000001#32 [7#8]) 0#32) ∧ offerLegal busy (.urx .ch1 7#8) ∧
    offerLegal busy (.utx .ch0 1 0) ∧ offerLegal busy .reset :=
  ⟨⟨_, _, rfl, by decide⟩, trivial, ⟨by decide, by decide⟩, trivial⟩

theorem witness_CommandIndexCountsCommands :
    (∃ t, step (offering [.urx .ch0 7#8] busy) = .next t) ∧ (∃ t, step (offering [.utx .ch0 1 0] busy) = .next t) ∧
    ∃ t, step (offering [.reset] busy) = .next t := 
  ⟨step_goes (by decide), step_goes (by decide), step_goes (by decide)⟩

theorem witness_CrcAlgorithm : ([7#8] : List Byte).length < 2 := by decide

/-- The three payload lengths a command word can have, with a state that holds such an offer. -/
theorem witness_CommandWord :
    (offering [.command (serial (mkWord 0x10#8 0#8 0#16) []) 3#32] fresh).fault = none ∧
    ([] : List Byte).length = noPayload 0#16 ∧ ([7#8, 8#8] : List Byte).length = countOf 0x0102#16 ∧
    ([7#8, 8#8, 9#8, 10#8] : List Byte).length = (fun _ : Half => 4) 4#16 := by decide

/-- Every field condition of a command word is met by some fields and not by others, at the edge. -/
theorem witness_CommandWord_fields :
    bothZero 0#8 0#16 ∧ ¬ bothZero 0#8 1#16 ∧ ¬ bothZero 1#8 0#16 ∧ selZeroImmByte 0#8 0x00FF#16 ∧
    ¬ selZeroImmByte 0#8 0x0100#16 ∧ ¬ selZeroImmByte 1#8 0#16 ∧ (1#8 : Byte).toNat < 2 ∧ ¬ (2#8 : Byte).toNat < 2 ∧
    (3#8 : Byte).toNat < 4 ∧ ¬ (4#8 : Byte).toNat < 4 ∧ (3#16 : Half).toNat < 4 ∧ ¬ (4#16 : Half).toNat < 4 := by
  simp [bothZero, selZeroImmByte]

theorem witness_CrcStreamCommands : fresh.fault = none := rfl
theorem witness_CrcPureCommands : busy.fault = none := rfl

theorem witness_CrcSealBuildsFrame :
    fresh.fault = none ∧ 2 ≤ (List.replicate 2 7#8).length ∧ (List.replicate 252 7#8).length ≤ 252 ∧
    (List.replicate 1 7#8).length < 2 ∧ 252 < (List.replicate 253 7#8).length := by
  simp only [List.length_replicate]
  exact ⟨rfl, by decide⟩

theorem witness_SealedFrameDetectsAnyBitFlip :
    fresh.fault = none ∧ 2 ≤ (List.replicate 252 7#8).length ∧ (List.replicate 252 7#8).length ≤ 252 ∧
    0 < 8 * (([] : List Byte).length + 2) ∧ 15 < 8 * (([] : List Byte).length + 2) := by
  simp only [List.length_replicate]
  exact ⟨rfl, by decide⟩

theorem witness_StreamingEquivalence : busy.fault = none := rfl

/-- A synchronizer in WaitBody after Len 2, and after one of its two body bytes. -/
def syncBody (received : Byte) : Sync :=
  { Sync.fresh with state := .waitBody, expected := 2#8, received := received, last := 10#32 }

theorem witness_SyncByteStep :
    ((syncBody 0#8).state = .waitBody ∧ 50 < ((61#32 : Word) - (syncBody 0#8).last).toNat) ∧
    (Sync.fresh.state = .waitLength ∧ 1 ≤ (1#8 : Byte).toNat ∧ (254#8 : Byte).toNat ≤ 254) ∧
    ((60#32 : Word) - (syncBody 0#8).last).toNat ≤ 50 ∧ (syncBody 0#8).received + 1#8 ≠ (syncBody 0#8).expected ∧
    (syncBody 1#8).received + 1#8 = (syncBody 1#8).expected := by decide

theorem witness_SyncFeedDispatches :
    fresh.fault = none ∧ fresh.mode ≠ .inventory ∧ (inMode .inventory fresh).fault = none ∧
    (inMode .inventory fresh).mode = .inventory := by decide

theorem witness_SyncResetResyncs : busy.fault = none := rfl

/-- Two dropped bytes and the shortest frame, Len 1; and the first byte of the longest, Len 254. -/
theorem witness_SynchronizerDelimitsFrame :
    Sync.fresh.Wf ∧ Sync.fresh.state = .waitLength ∧
    (∀ b ∈ [((0x00#8 : Byte), (0#32 : Word)), (0xFF#8, 900#32)], b.1 = 0x00#8 ∨ b.1 = 0xFF#8) ∧
    [((1#8 : Byte), (5#32 : Word)), (7#8, 55#32)].length = (1#8 : Byte).toNat + 1 ∧
    samplesWithin 50 [(1#8, 5#32), (7#8, 55#32)] ∧ (254#8 : Byte).toNat ≤ 254 :=
  ⟨Sync.wf_fresh, rfl, by simp, rfl, ⟨by decide, trivial⟩, by decide⟩

theorem witness_OnlyTheseStepsChangeSynchronizer :
    ∃ t, step (offering [.command (encode (.syncFeed [5#8])) 7#32] fresh) = .next t ∧ t.sync ≠ fresh.sync :=
  step_answers _ (by decide)

/-- A byte for an enabled channel with room, for a full one, for a disabled one, and in the FAULTED condition. -/
theorem witness_UrxStoresOrCountsByte :
    (offering [.urx .ch0 7#8] busy).Inv ∧ busy.fault = none ∧ busy.ch0.rxie = true ∧ (busy.rxContents .ch0).length < 8 ∧
    ((receiving .idle (List.replicate 8 7#8)).rxContents .ch0).length = 8 ∧
    (receiving .idle (List.replicate 8 7#8)).ch0.rxie = true ∧ busy.ch1.rxie = false ∧ faulted.fault ≠ none :=
  ⟨offering_inv busy_inv _, by decide⟩

theorem witness_UtxSendsOldestBytes :
    (offering [.utx .ch0 1 0] busy).Inv ∧ busy.fault = none ∧ busy.ch0.txie = true ∧
    0 ≤ min 1 (busy.txContents .ch0).length ∧ busy.ch1.txie = false :=
  ⟨offering_inv busy_inv _, by decide⟩

theorem witness_CommitBeyondClaimFaults :
    busy.fault = none ∧ busy.ch0.txie = true ∧ min 1 (busy.chan .ch0).tx.ring.count < 1 := by decide

/-- U3: a byte sent that was not claimed faults the block, the fault is sticky, and RESET leaves it. -/
theorem test_commit_beyond_claim :
    (stepped (offering [.utx .ch0 1 1, .reset] busy)).map State.fault = some (some .commitBeyondClaim) ∧
    (stepped (offering [.reset] { busy with fault := some .commitBeyondClaim })).map State.fault = some none := by decide

theorem witness_FifoPutAllOrNothing :
    busy.Inv ∧ busy.fault = none ∧ (inMode .bypass busy).Inv ∧ (inMode .bypass busy).mode = .bypass ∧
    busy.mode ≠ .bypass ∧ (busy.txContents .ch0).length + (List.replicate 8 7#8).length ≤ 8 ∧
    8 < (busy.txContents .ch0).length + (List.replicate 9 7#8).length :=
  ⟨busy_inv, rfl, inMode_inv busy_inv _, by decide⟩

theorem witness_FifoGetTakesOldest :
    busy.Inv ∧ busy.fault = none ∧ busy.mode = .idle ∧ (inMode .inventory busy).Inv ∧ (inMode .bypass busy).Inv :=
  ⟨busy_inv, rfl, rfl, inMode_inv busy_inv _, inMode_inv busy_inv _⟩

theorem witness_FifoFlushOrHazard :
    busy.fault = none ∧ busy.ch0.rxie = true ∧ busy.ch0.txie = true ∧ busy.ch1.rxie = false ∧ busy.ch1.txie = false := by
  decide

theorem witness_TxBytesLeaveInPushOrder :
    (offering [.utx .ch0 1 0] busy).Inv ∧ ∃ t, step (offering [.utx .ch0 1 0] busy) = .next t :=
  ⟨offering_inv busy_inv _, step_goes (by decide)⟩

theorem witness_RxBytesTakenInArrivalOrder :
    (offering [.urx .ch0 7#8] busy).Inv ∧ ∃ t, step (offering [.urx .ch0 7#8] busy) = .next t :=
  ⟨offering_inv busy_inv _, step_goes (by decide)⟩

/-- A channel 0 that waits to send one byte. -/
def sending : State := fresh.setChan .ch0 { fresh.ch0 with txie := true, tx := { fresh.ch0.tx with ring := fresh.ch0.tx.ring.push 8 7#8 } }

theorem sending_inv : sending.Inv :=
  State.inv_setChan fresh_inv .ch0
    ⟨(fresh_inv.chan .ch0).rx, RingBuffer.wf_push (fresh_inv.chan .ch0).tx (by decide) 7#8, rfl⟩

theorem witness_TxEnableStaysWhileBytesWait :
    (offering [.utx .ch0 1 1] sending).Inv ∧ sending.txContents .ch0 ≠ [] ∧ sending.ch0.txie = true ∧
    ∃ t, step (offering [.utx .ch0 1 1] sending) = .next t ∧ (t.chan .ch0).txie = false :=
  ⟨offering_inv sending_inv _, by decide, rfl, step_answers _ (by decide)⟩

theorem witness_NopOnlyAnswers : (inMode .bypass busy).fault = none := rfl

theorem witness_ModeSetBracket :
    (inMode .inventory busy).fault = none ∧ bracketed .inventory .idle .ch0 ∧ ¬ bracketed .inventory .idle .ch1 ∧
    bracketed .inventory .bypass .ch1 := by simp [bracketed, inMode, busy, fresh, State.resetWith, State.setChan]

theorem witness_ProcessInIdleOnlyAnswers : busy.fault = none ∧ busy.mode = .idle := ⟨rfl, rfl⟩

theorem witness_ProcessInBypassForwards :
    (inMode .bypass busy).Inv ∧ (inMode .bypass busy).fault = none ∧ (inMode .bypass busy).mode = .bypass :=
  ⟨inMode_inv busy_inv _, rfl, rfl⟩

theorem witness_ProcessInInventoryDrains :
    (inMode .inventory busy).Inv ∧ (inMode .inventory busy).fault = none ∧ (inMode .inventory busy).mode = .inventory :=
  ⟨inMode_inv busy_inv _, rfl, rfl⟩

theorem witness_RegReadAnswersRegisterFile :
    busy.Inv ∧ busy.fault = none ∧ (registerFile busy)[(0x19#8 : Byte).toNat]? = some 0 ∧ 0x1A ≤ (0x1A#8 : Byte).toNat :=
  ⟨busy_inv, rfl, by decide, by decide⟩

theorem witness_RegWriteWritesThreeRegisters :
    busy.Inv ∧ busy.fault = none ∧ (15#32 : Word).toNat < 16 ∧ 16 ≤ (16#32 : Word).toNat ∧ 1 ≤ (1#32 : Word).toNat ∧
    (32#32 : Word).toNat ≤ busy.params.fltMaxCap ∧ busy.params.fltMaxCap < (33#32 : Word).toNat :=
  ⟨busy_inv, rfl, by decide⟩

theorem witness_OnlyModeSetAndResetChangeMode :
    ∃ t, step (offering [.command (encode (.modeSet 2#2)) 0#32] busy) = .next t ∧ t.mode ≠ busy.mode :=
  step_answers _ (by decide)

theorem witness_OnlyCrcCommandsChangeCrc :
    ∃ t, step (offering [.command (encode (.crcByte 5#8)) 0#32] busy) = .next t ∧ t.crc ≠ busy.crc :=
  step_answers _ (by decide)

/-- A step that is not RESET and changes a counter. -/
theorem witness_CountersHaveOneWriter :
    ∃ t, step (offering [.command (encode (.fltCheck [1#8])) 0#32] busy) = .next t ∧ t.flt.tagacc ≠ busy.flt.tagacc :=
  step_answers _ (by decide)

/-- Slot 0 holding [7] since sample 0, the others empty. -/
def heldFilter : TagFilter := fresh.flt.insert [7#8] 0#32

/-- A state whose filter holds [7]. -/
def held : State := { fresh with flt := heldFilter }

theorem held_inv : held.Inv where
  params := eight_valid
  ch0 := fresh_inv.ch0
  ch1 := fresh_inv.ch1
  sync := fresh_inv.sync
  flt := TagFilter.wf_insert fresh_inv.flt (by decide) (by decide) (by decide) (by decide) 0#32

/-- A held EPC just inside and just at the end of its window, one not held, and the two illegal lengths. -/
theorem witness_FltCheckVerdict :
    held.Inv ∧ held.fault = none ∧
    ((held.flt.entry[0]?).map fun x => (x.valid, x.key, x.ts)) = some (true, [7#8], 0#32) ∧
    ((999#32 : Word) - 0#32).toNat < held.flt.win.toNat ∧ held.flt.win.toNat ≤ ((1000#32 : Word) - 0#32).toNat ∧
    (∀ x ∈ held.flt.entry, x.valid = true → x.key ≠ [8#8]) ∧ ([8#8] : List Byte) ≠ [] ∧
    (List.replicate 62 7#8).length ≤ held.params.epcMax ∧ held.params.epcMax < (List.replicate 63 7#8).length :=
  ⟨held_inv, rfl, by decide⟩

theorem witness_FltClearEmptiesFilter : held.fault = none := rfl

theorem witness_AcceptedTagIsSuppressedForWindow :
    held.Inv ∧ held.fault = none ∧
    ∃ t, exec (.fltCheck [8#8]) held = .next t ∧ t.reply = some (Reply.ok 1#32) ∧
      ∀ w ∈ ([999#32] : List Word), (w - held.now).toNat < t.flt.win.toNat :=
  ⟨held_inv, rfl, _, exec_live rfl _, by decide, List.forall_mem_singleton.2 (by decide)⟩

theorem witness_InterleavedTagsAreIndependent :
    fresh.Inv ∧ fresh.fault = none ∧ fresh.flt.count = 0 ∧ ([1#8] : List Byte) ≠ [2#8] ∧
    (List.replicate 62 7#8).length ≤ fresh.params.epcMax :=
  ⟨fresh_inv, rfl, rfl, by decide⟩

theorem witness_FilterEvictsOldestInsertion :
    fresh.Inv ∧ fresh.fault = none ∧ fresh.flt.count = 0 ∧
    ((List.range 33).map fun k => [BitVec.ofNat 8 k]).Nodup ∧
    ∀ e ∈ (List.range 33).map (fun k => [BitVec.ofNat 8 k]), e ≠ [] ∧ e.length ≤ fresh.params.epcMax :=
  ⟨fresh_inv, rfl, rfl, by decide⟩

/-- One answer for each of the result codes with a clause. -/
theorem witness_ErrorResultsChangeNothing :
    ((ran [(.crcSeal [], 0#32)] busy).bind State.reply).map Reply.code = some .invalidParam ∧
    ((ran [(.syncFeed [], 0#32)] (inMode .inventory busy)).bind State.reply).map Reply.code = some .wrongMode ∧
    ((ran [(.fifoPut .ch0 (List.replicate 9 0#8), 0#32)] busy).bind State.reply).map Reply.code = some .bufferOverflow ∧
    ((ran [(.fifoFlush .rx0, 0#32)] busy).bind State.reply).map Reply.code = some .hazardFault := by decide

theorem witness_ResultsAreWellFormed : busy.Inv ∧ ∃ t, exec (.fifoGet .ch0 1#16) busy = .next t := ⟨busy_inv, _, exec_live rfl _⟩

theorem witness_ResetRestoresResetState : (offering [.reset] faulted).inputs = [.reset] := rfl

/-- Each of the two ways into the FAULTED condition. -/
theorem witness_OnlyHazardsEnterFaulted :
    busy.fault = none ∧ (stepped (offering [.utx .ch0 1 1] busy)).map State.fault = some (some .commitBeyondClaim) ∧
    (stepped (offering [.command [0#8, 0#8, 0#8, 0x22#8] 0#32] busy)).map State.fault = some (some .hazardFlushLive) := by
  decide

theorem witness_StepKeepsInvariant :
    (offering [.urx .ch0 7#8] busy).Inv ∧ ∃ t, step (offering [.urx .ch0 7#8] busy) = .next t :=
  ⟨offering_inv busy_inv _, step_goes (by decide)⟩

theorem witness_ResetStateHasInvariant : eight.Valid ∧ Params.vectors.Valid := ⟨eight_valid, by simp [Params.Valid, Params.vectors]⟩

/-- Two states that differ in the storage of an empty queue only. -/
theorem witness_UnspecifiedContentsNeverShow :
    fresh.Inv ∧ (fresh.setChan .ch0 (fresh.ch0.receive 8 7#8).reset).view = fresh.view ∧
    fresh.setChan .ch0 (fresh.ch0.receive 8 7#8).reset ≠ fresh ∧
    (fresh.setChan .ch0 (fresh.ch0.receive 8 7#8).reset).Inv :=
  ⟨fresh_inv, by decide, by decide,
    State.inv_setChan fresh_inv .ch0 (Channel.wf_reset (Channel.wf_receive (fresh_inv.chan .ch0) 7#8))⟩

end Sys2Proof.Machine
end

section
/-! PROOFS. Family 10_state.md: what every step keeps and which steps change what. -/

namespace Sys2Proof.Machine

/-! ## The kinds of step, by what they do to the block's units -/

/-- Two states with the same parameters, mode and units: they differ at most in the fault condition, the command index
and the model's own fields. -/
structure State.SameUnits (s t : State) : Prop where
  params : t.params = s.params
  mode : t.mode = s.mode
  ch0 : t.ch0 = s.ch0
  ch1 : t.ch1 = s.ch1
  crc : t.crc = s.crc
  sync : t.sync = s.sync
  flt : t.flt = s.flt

/-- The fault condition, the command index and the model's own fields are no part of the units. -/
theorem State.SameUnits.own (s : State) (fault cmdIndex now reply inputs) :
    s.SameUnits { s with
      fault := fault, cmdIndex := cmdIndex, now := now, reply := reply, inputs := inputs } :=
  ⟨rfl, rfl, rfl, rfl, rfl, rfl, rfl⟩

theorem State.SameUnits.chan {s t : State} (h : s.SameUnits t) (n : Chan) : t.chan n = s.chan n := by
  cases n
  · exact h.ch0
  · exact h.ch1

theorem State.SameUnits.inv {s t : State} (h : s.SameUnits t) (w : s.Inv) : t.Inv :=
  State.inv_of_units w h.params h.ch0 h.ch1 h.sync h.flt

/-- A channel replaced with an offer taken, and with none. -/
theorem State.SameUnits.setChan (s : State) (rest : List Input) (n : Chan) (c : Channel) :
    (s.setChan n c).SameUnits ({ s with inputs := rest }.setChan n c) := by
  cases n <;> exact .own _ _ _ _ _ _

/-- What a step that answers a next state does to the units, said by the agent that took it: nothing; a command's
effect; a byte received; bytes sent; RESET (R329). -/
theorem step_units {s t : State} (h : step s = .next t) :
    s.SameUnits t ∨
    (∃ i u, s.takes = some i ∧ s.SameUnits u ∧ (effectOf i u).1.SameUnits t) ∨
    (∃ n b rest, s.inputs = .urx n b :: rest ∧
      (s.setChan n ((s.chan n).receive (rxCap s.params n) b)).SameUnits t) ∨
    (∃ n k j c, (s.chan n).transmit (txCap s.params n) k j = some c ∧ (s.setChan n c).SameUnits t) ∨
    ∃ rest, s.inputs = .reset :: rest ∧ (resetBlock s).SameUnits t := by
  obtain ⟨-, rfl⟩ | ⟨o, rest, hin, hstep⟩ := step_cases h
  · exact .inl (.own _ _ _ _ _ _)
  obtain ⟨rfl, -⟩ | ⟨_, now, i, -, -, -, hi, rfl⟩ | ⟨_, _, -, -, -, rfl⟩ | ⟨n, b, rfl, -, -, -, rfl⟩ |
    ⟨n, k, j, c, -, -, -, -, -, hc, rfl⟩ | ⟨_, _, _, -, -, -, -, -, -, rfl⟩ | ⟨rfl, -, rfl⟩ := hstep
  · exact .inl (.own s _ _ _ _ _)
  · exact .inr (.inl ⟨i, { s with inputs := rest, now := now }, hi, .own s _ _ _ _ _, .own _ _ _ _ _ _⟩)
  · exact .inl (.own s _ _ _ _ _)
  · exact .inr (.inr (.inl ⟨n, b, rest, hin, .setChan s rest n _⟩))
  · exact .inr (.inr (.inr (.inl ⟨n, k, j, c, hc, .setChan s rest n c⟩)))
  · exact .inl (.own s _ _ _ _ _)
  · exact .inr (.inr (.inr (.inr ⟨rest, hin, .own _ _ _ _ _ _⟩)))

/-! ## The invariants -/

/-- Every command's effect keeps each channel's invariants (R46-R49). -/
theorem effect_wf_chan {s : State} (w : s.Inv) (i : Instr) (n : Chan) :
    ((effectOf i s).1.chan n).Wf (rxCap s.params n) (txCap s.params n) := by
  have wc := w.chan n
  obtain h | ⟨_, -, h⟩ | ⟨_, _, -, h, -, hr⟩ | ⟨_, _, _, -, h, -, hr⟩ | ⟨_, -, -, h⟩ | ⟨_, -, -, h⟩ | ⟨_, -, -, h⟩ |
    ⟨-, -, _, _, _, _, _, h, -, -, hr, ht⟩ | ⟨-, -, _, _, h, -, hr⟩ | ⟨_, -, h⟩ := effect_chan w i n <;> rw [h]
  · exact wc
  · exact Channel.wf_of_queues wc rfl rfl
  · exact ⟨wc.rx, hr, wc.claim⟩
  · exact ⟨hr, wc.tx, wc.claim⟩
  · exact ⟨RingBuffer.wf_flush wc.rx, wc.tx, wc.claim⟩
  · exact ⟨wc.rx, RingBuffer.wf_flush wc.tx, rfl⟩
  · exact Channel.wf_of_queues (Channel.wf_flushBoth wc) rfl rfl
  · exact ⟨hr, ht, wc.claim⟩
  · exact ⟨hr, wc.tx, wc.claim⟩
  · exact Channel.wf_of_queues wc rfl rfl

/-- Every command's effect keeps the synchronizer's invariants (R51). -/
theorem effect_wf_sync {s : State} (w : s.Inv) (i : Instr) : (effectOf i s).1.sync.Wf := by
  obtain h | ⟨_, -, -, h⟩ | ⟨-, h⟩ | ⟨_, -, -, h⟩ | ⟨-, -, _, h⟩ := effect_sync i s <;> rw [h]
  · exact w.sync
  · exact Sync.wf_drain w.sync _ _ _
  · exact Sync.wf_reset w.sync
  · exact Sync.wf_reset w.sync
  · exact Sync.wf_drain w.sync _ _ _

/-- EPC_MAX is at most 255 (R6). -/
theorem Params.Valid.epcMax_le {p : Params} (v : p.Valid) : p.epcMax ≤ 255 :=
  let ⟨_, _, _, _, _, _, h⟩ := v
  h.2

/-- FLT_MAX_CAP is at least FLT_CAP_RESET (R6). -/
theorem Params.Valid.fltCapReset_le {p : Params} (v : p.Valid) : fltCapReset ≤ p.fltMaxCap :=
  let ⟨_, _, _, _, _, h, _⟩ := v
  h.1

/-- Every command's effect keeps the filter's invariants (R53, R296). -/
theorem effect_wf_flt {s : State} (w : s.Inv) (i : Instr) : (effectOf i s).1.flt.Wf s.params := by
  obtain h | ⟨_, -, h1, h2, h⟩ | ⟨h, -⟩ | ⟨_, -, h⟩ | ⟨_, -, h1, h2, h⟩ := effect_flt i s <;> rw [h]
  · exact w.flt
  · exact TagFilter.wf_check w.flt (Params.Valid.epcMax_le w.params) h1 h2 _
  · exact TagFilter.wf_clear w.flt
  · exact TagFilter.wf_retune w.flt _ _ _
  · exact TagFilter.wf_configure w.flt h1 h2 _ _ _

/-- Every command's effect keeps the invariants. -/
theorem effect_inv {s : State} (w : s.Inv) (i : Instr) : (effectOf i s).1.Inv := by
  have hp : (effectOf i s).1.params = s.params := (effect_frame i s).1
  exact ⟨hp ▸ w.params, hp ▸ effect_wf_chan w i .ch0, hp ▸ effect_wf_chan w i .ch1, effect_wf_sync w i,
    hp ▸ effect_wf_flt w i⟩

/-- RESET keeps the invariants (R350). -/
theorem resetBlock_inv {s : State} (w : s.Inv) : (resetBlock s).Inv where
  params := w.params
  ch0 := Channel.wf_reset w.ch0
  ch1 := Channel.wf_reset w.ch1
  sync := Sync.wf_stamp (Sync.wf_reset w.sync) _ _ _
  flt := TagFilter.wf_configure w.flt (by decide) (Params.Valid.fltCapReset_le w.params) _ _ _

/-- Settles O49, by the kinds of step: each unit's own lemma says that the operation done to it keeps its invariants. -/
theorem stepKeepsInvariant : Obligations.StepKeepsInvariant := by
  intro s t w h
  obtain e | ⟨i, u, -, hu, e⟩ | ⟨n, b, _, -, e⟩ | ⟨n, _, _, c, hc, e⟩ | ⟨_, -, e⟩ := step_units h
  · exact e.inv w
  · exact e.inv (effect_inv (hu.inv w) i)
  · exact e.inv (State.inv_setChan w n (Channel.wf_receive (w.chan n) b))
  · exact e.inv (State.inv_setChan w n (Channel.wf_transmit (w.chan n) hc))
  · exact e.inv (resetBlock_inv w)

/-- Settles O50: the fresh queues, synchronizer and filter have their invariants where the parameters are legal. -/
theorem resetStateHasInvariant : Obligations.ResetStateHasInvariant := by
  intro p v
  obtain ⟨rx0, tx0⟩ := Params.Valid.caps v .ch0
  obtain ⟨rx1, tx1⟩ := Params.Valid.caps v .ch1
  exact ⟨v, Channel.wf_fresh rx0 tx0, Channel.wf_fresh rx1 tx1, Sync.wf_fresh, TagFilter.wf_fresh (Params.Valid.fltCapReset_le v)⟩

end Sys2Proof.Machine
end

section
/-! PROOFS. Family 10_state.md: which steps change the command index, MODE, the CRC register and the counters. -/

namespace Sys2Proof.Machine

/-! ## The command index -/

theorem urxStep_cmdIndex {n : Chan} {b : Byte} {s t : State} (h : urxStep n b s = .next t) : t.cmdIndex = s.cmdIndex := by
  unfold urxStep at h
  split at h <;> injection h with h
  · rw [h]
  · rw [← h, State.setChan_cmdIndex]

theorem utxStep_cmdIndex {n : Chan} {k j : Nat} {s t : State} (h : utxStep n k j s = .next t) :
    t.cmdIndex = s.cmdIndex := by
  unfold utxStep at h
  split at h
  · injection h with h
    rw [h]
  · split at h
    · cases h
    · split at h <;> injection h with h
      · rw [← h, State.enterFaulted_cmdIndex]
      · rw [← h, State.setChan_cmdIndex]

/-- Settles O10: a command's shell advances the index that its effect leaves; no agent's step writes it but RESET. -/
theorem commandIndexCountsCommands : Obligations.CommandIndexCountsCommands := by
  refine ⟨fun i s hf => ⟨_, exec_live hf i, ?_⟩, fun s t o rest hin h => ?_⟩
  · obtain ⟨-, hc, -⟩ := effect_frame i s
    rw [State.returns_cmdIndex, hc]
  · rw [step_cons hin] at h
    refine ⟨?_, ?_⟩
    · rintro (⟨n, b, rfl⟩ | ⟨n, k, j, rfl⟩)
      · exact urxStep_cmdIndex (s := { s with inputs := rest }) h
      · exact utxStep_cmdIndex (s := { s with inputs := rest }) h
    · rintro rfl
      injection h with h
      rw [← h, resetBlock_cmdIndex]

/-! ## MODE and the parameters -/

/-- A legal operand's RouterMode (R33). -/
theorem modeOfBits_some {m : BitVec 2} {new : Mode} (h : modeOfBits m = some new) :
    new = if m = 0#2 then .idle else if m = 1#2 then .bypass else .inventory := by
  unfold modeOfBits at h
  split_ifs at h ⊢ <;> injection h with h <;> exact h.symm

/-- No step changes the parameters (R6, R56). -/
theorem step_params {s t : State} (h : step s = .next t) : t.params = s.params := by
  obtain e | ⟨i, u, -, hu, e⟩ | ⟨n, _, _, -, e⟩ | ⟨n, _, _, _, -, e⟩ | ⟨_, -, e⟩ := step_units h
  · exact e.params
  · rw [e.params, (effect_frame i u).1, hu.params]
  · rw [e.params, State.setChan_params]
  · rw [e.params, State.setChan_params]
  · rw [e.params, resetBlock_params]

/-- Settles O38: of the commands only MODE.SET writes MODE, and of the agents only RESET. -/
theorem onlyModeSetAndResetChangeMode : Obligations.OnlyModeSetAndResetChangeMode := by
  intro s t h
  refine ⟨step_params h, fun hne => ?_⟩
  obtain e | ⟨i, u, hi, hu, e⟩ | ⟨n, _, _, -, e⟩ | ⟨n, _, _, _, -, e⟩ | ⟨rest, hr, e⟩ := step_units h
  · exact absurd e.mode hne
  · obtain hm | ⟨m, new, rfl, hb, hm⟩ := effect_mode i u
    · exact absurd (e.mode.trans (hm.trans hu.mode)) hne
    · exact .inr ⟨m, hi, (e.mode.trans hm).trans (modeOfBits_some hb)⟩
  · exact absurd (e.mode.trans (State.setChan_mode s n _)) hne
  · exact absurd (e.mode.trans (State.setChan_mode s n _)) hne
  · exact .inl ⟨rest, hr, e.mode⟩

/-! ## The CRC register -/

/-- Only the three streaming CRC commands change the CRC register (R35). -/
theorem effect_crc (i : Instr) (s : State) :
    (effectOf i s).1.crc = s.crc ∨ i = .crcInit ∨ (∃ b, i = .crcByte b) ∨ ∃ p, i = .crcUpdate p := by
  cases i
  case crcInit => exact .inr (.inl rfl)
  case crcByte b => exact .inr (.inr (.inl ⟨b, rfl⟩))
  case crcUpdate p => exact .inr (.inr (.inr ⟨p, rfl⟩))
  case fifoPut ch p =>
    left; simp only [effectOf]
    split
    · rfl
    · split <;> simp [putBytes]
  case fifoGet ch n => left; simp only [effectOf]; split <;> simp [getEntries]
  case fifoFlush q =>
    left; simp only [effectOf]
    split
    · rfl
    · simp only [flushQueue]; split <;> simp
  case syncFeed p => left; simp only [effectOf]; split <;> rfl
  case fltCheck p => left; simp only [effectOf]; split <;> rfl
  case modeSet m => left; simp only [effectOf]; split <;> simp [setMode_eq]
  case process => left; simp only [effectOf]; split <;> simp [processBypass, forward, processInventory, returnFrames]
  case regWrite r v =>
    left; simp only [effectOf]
    split
    · rfl
    · rcases regWrite_cases ‹_› with ⟨-, rfl, -⟩ | ⟨-, rfl⟩ | ⟨-, -, -, rfl⟩ <;> rfl
  all_goals exact .inl rfl

/-- Settles O39: of the commands only the streaming CRC commands write the register, and of the agents only RESET. -/
theorem onlyCrcCommandsChangeCrc : Obligations.OnlyCrcCommandsChangeCrc := by
  intro s t h hne
  obtain e | ⟨i, u, hi, hu, e⟩ | ⟨n, _, _, -, e⟩ | ⟨n, _, _, _, -, e⟩ | ⟨rest, hr, e⟩ := step_units h
  · exact absurd e.crc hne
  · obtain hc | rfl | ⟨b, rfl⟩ | ⟨p, rfl⟩ := effect_crc i u
    · exact absurd (e.crc.trans (hc.trans hu.crc)) hne
    · exact .inr (.inl hi)
    · exact .inr (.inr (.inl ⟨b, hi⟩))
    · exact .inr (.inr (.inr ⟨p, hi⟩))
  · exact absurd (e.crc.trans (State.setChan_crc s n _)) hne
  · exact absurd (e.crc.trans (State.setChan_crc s n _)) hne
  · exact .inl ⟨rest, hr⟩

/-! ## The counters of a channel -/

/-- Two channels with the same counters. -/
structure Channel.SameCounters (c d : Channel) : Prop where
  fwd : d.fwd = c.fwd
  ovr : d.ovr = c.ovr
  txerr : d.txerr = c.txerr

theorem Channel.SameCounters.refl (c : Channel) : c.SameCounters c := ⟨rfl, rfl, rfl⟩

/-- A channel replaced by one with the same counters: every channel has the counters it had. -/
theorem Channel.SameCounters.setChan {s : State} {m : Chan} {c : Channel} (n : Chan) (h : (s.chan m).SameCounters c) :
    (s.chan n).SameCounters ((s.setChan m c).chan n) := by
  by_cases hn : n = m
  · subst hn
    rw [State.chan_setChan_self]
    exact h
  · rw [State.chan_setChan_ne s hn]
    exact .refl _

/-- A byte received is counted, if at all, in OVRn by one (R226). -/
theorem Channel.receive_counters (cap : Nat) (b : Byte) (c : Channel) :
    (c.receive cap b).fwd = c.fwd ∧ (c.receive cap b).txerr = c.txerr ∧
      ((c.receive cap b).ovr = c.ovr ∨ (c.receive cap b).ovr = c.ovr + 1#32) := by
  unfold Channel.receive
  split
  · exact ⟨rfl, rfl, .inr rfl⟩
  · exact ⟨rfl, rfl, .inl rfl⟩

/-- A transmit event counts nothing (R227). -/
theorem Channel.transmit_counters {cap k j : Nat} {c d : Channel} (h : c.transmit cap k j = some d) : c.SameCounters d := by
  simp only [Channel.transmit, Option.map_eq_some_iff] at h
  obtain ⟨q, -, rfl⟩ := h
  exact ⟨rfl, rfl, rfl⟩

/-- One direction of a Bypass PROCESS writes no counter but FWD (R266). -/
theorem forward_counters (src dst n : Chan) (s : State) :
    ((forward src dst s).1.chan n).ovr = (s.chan n).ovr ∧ ((forward src dst s).1.chan n).txerr = (s.chan n).txerr := by
  cases src <;> cases dst <;> cases n <;> exact ⟨rfl, rfl⟩

/-- All that a command can do to the counters of channel n: nothing; TXERRn by one at a FIFO.PUT to n; FWDn at a Bypass
PROCESS (R43). -/
theorem effect_counters (i : Instr) (s : State) (n : Chan) :
    (s.chan n).SameCounters ((effectOf i s).1.chan n) ∨
    (∃ p, i = .fifoPut n p ∧ (effectOf i s).1.chan n = { s.chan n with txerr := (s.chan n).txerr + 1#32 }) ∨
    (i = .process ∧ s.mode = .bypass ∧ ((effectOf i s).1.chan n).ovr = (s.chan n).ovr ∧
      ((effectOf i s).1.chan n).txerr = (s.chan n).txerr) := by
  cases i
  case fifoPut ch p =>
    simp only [effectOf]
    split
    · exact .inl (.refl _)
    · split
      · by_cases hn : n = ch
        · subst hn
          exact .inr (.inl ⟨p, rfl, State.chan_setChan_self s n _⟩)
        · left
          rw [State.chan_setChan_ne s hn]
          exact .refl _
      · rw [putBytes_eq]
        exact .inl (.setChan n ⟨rfl, rfl, rfl⟩)
  case fifoGet ch m =>
    left; simp only [effectOf]
    split
    · exact .refl _
    · exact .setChan (s := s) (m := ch) n ⟨rfl, rfl, rfl⟩
  case fifoFlush q =>
    left; simp only [effectOf]
    split
    · exact .refl _
    · simp only [flushQueue]
      split <;> exact .setChan n ⟨rfl, rfl, rfl⟩
  case syncFeed p => left; simp only [effectOf]; split <;> exact .refl _
  case fltCheck p => left; simp only [effectOf]; split <;> exact .refl _
  case modeSet m =>
    left; simp only [effectOf]
    split
    · exact .refl _
    · rw [setMode_eq]
      cases n <;> simp only [State.chan] <;> split <;> exact ⟨rfl, rfl, rfl⟩
  case process =>
    simp only [effectOf]
    split
    · exact .inl (.refl _)
    · rename_i hm
      obtain ⟨o0, e0⟩ := forward_counters .ch0 .ch1 n s
      obtain ⟨o1, e1⟩ := forward_counters .ch1 .ch0 n (forward .ch0 .ch1 s).1
      exact .inr (.inr ⟨trivial, hm, o1.trans o0, e1.trans e0⟩)
    · left; cases n <;> exact ⟨rfl, rfl, rfl⟩
  case regWrite r v =>
    left; simp only [effectOf]
    split
    · exact .refl _
    · rcases regWrite_cases ‹_› with ⟨-, rfl, -⟩ | ⟨-, rfl⟩ | ⟨-, -, -, rfl⟩ <;> cases n <;> exact ⟨rfl, rfl, rfl⟩
  all_goals exact .inl (.refl _)

/-- Which steps but RESET write a counter of channel n, and by how much OVRn and TXERRn grow (R43). -/
theorem step_chan_counters {s t : State} (h : step s = .next t) (hr : ∀ rest, s.inputs ≠ .reset :: rest) (n : Chan) :
    ((t.chan n).fwd = (s.chan n).fwd ∨ (s.takes = some .process ∧ s.mode = .bypass)) ∧
    ((t.chan n).ovr = (s.chan n).ovr ∨
      ((t.chan n).ovr = (s.chan n).ovr + 1#32 ∧ ∃ b rest, s.inputs = .urx n b :: rest)) ∧
    ((t.chan n).txerr = (s.chan n).txerr ∨
      ((t.chan n).txerr = (s.chan n).txerr + 1#32 ∧ ∃ p, s.takes = some (.fifoPut n p))) := by
  obtain e | ⟨i, u, hi, hu, e⟩ | ⟨m, b, rest, hin, e⟩ | ⟨m, k, j, c, hc, e⟩ | ⟨rest, hin, -⟩ := step_units h
  · rw [e.chan]
    exact ⟨.inl rfl, .inl rfl, .inl rfl⟩
  · rw [e.chan, ← hu.chan, ← hu.mode]
    obtain hk | ⟨p, rfl, hp⟩ | ⟨rfl, hm, ho, ht⟩ := effect_counters i u n
    · exact ⟨.inl hk.fwd, .inl hk.ovr, .inl hk.txerr⟩
    · rw [hp]
      exact ⟨.inl rfl, .inl rfl, .inr ⟨rfl, p, hi⟩⟩
    · exact ⟨.inr ⟨hi, hm⟩, .inl ho, .inl ht⟩
  · rw [e.chan]
    by_cases hn : n = m
    · subst hn
      rw [State.chan_setChan_self]
      obtain ⟨hf, ht, ho⟩ := Channel.receive_counters (rxCap s.params n) b (s.chan n)
      exact ⟨.inl hf, ho.imp id fun ho => ⟨ho, b, rest, hin⟩, .inl ht⟩
    · rw [State.chan_setChan_ne s hn]
      exact ⟨.inl rfl, .inl rfl, .inl rfl⟩
  · have hk := Channel.SameCounters.setChan n (Channel.transmit_counters hc)
    rw [e.chan]
    exact ⟨.inl hk.fwd, .inl hk.ovr, .inl hk.txerr⟩
  · exact absurd hin (hr rest)

/-! ## The counters of the synchronizer and the filter -/

/-- Which commands write FRAMES or CRCERR (R43). -/
theorem effect_sync_counters (i : Instr) (s : State) :
    ((effectOf i s).1.sync.frames = s.sync.frames ∧ (effectOf i s).1.sync.crcerr = s.sync.crcerr) ∨
    (∃ p, i = .syncFeed p) ∨ (i = .process ∧ s.mode = .inventory) := by
  obtain h | ⟨p, rfl, -, -⟩ | ⟨-, h⟩ | ⟨_, -, -, h⟩ | ⟨rfl, hm, -⟩ := effect_sync i s
  · rw [h]
    exact .inl ⟨rfl, rfl⟩
  · exact .inr (.inl ⟨p, rfl⟩)
  · rw [h]
    exact .inl ⟨rfl, rfl⟩
  · rw [h]
    exact .inl ⟨rfl, rfl⟩
  · exact .inr (.inr ⟨rfl, hm⟩)

/-- Which steps but RESET write FRAMES or CRCERR (R43). -/
theorem step_sync_counters {s t : State} (h : step s = .next t) (hr : ∀ rest, s.inputs ≠ .reset :: rest) :
    (t.sync.frames = s.sync.frames ∧ t.sync.crcerr = s.sync.crcerr) ∨
    (∃ p, s.takes = some (.syncFeed p)) ∨ (s.takes = some .process ∧ s.mode = .inventory) := by
  obtain e | ⟨i, u, hi, hu, e⟩ | ⟨m, _, _, -, e⟩ | ⟨m, _, _, _, -, e⟩ | ⟨rest, hin, -⟩ := step_units h
  · rw [e.sync]
    exact .inl ⟨rfl, rfl⟩
  · rw [e.sync, ← hu.sync, ← hu.mode]
    obtain hk | ⟨p, rfl⟩ | ⟨rfl, hm⟩ := effect_sync_counters i u
    · exact .inl hk
    · exact .inr (.inl ⟨p, hi⟩)
    · exact .inr (.inr ⟨hi, hm⟩)
  · rw [e.sync, State.setChan_sync]
    exact .inl ⟨rfl, rfl⟩
  · rw [e.sync, State.setChan_sync]
    exact .inl ⟨rfl, rfl⟩
  · exact absurd hin (hr rest)

/-- A check counts its verdict: one counter by one, never both (R292). -/
theorem TagFilter.check_counters (E : List Byte) (t : Word) (f : TagFilter) :
    ((f.check E t).1.tagacc = f.tagacc + 1#32 ∧ (f.check E t).1.tagsup = f.tagsup) ∨
    ((f.check E t).1.tagacc = f.tagacc ∧ (f.check E t).1.tagsup = f.tagsup + 1#32) := by
  obtain ⟨_, -, -, h⟩ | ⟨_, -, -, h⟩ | ⟨-, h⟩ := TagFilter.check_cases E t f <;> rw [h]
  · exact .inr ⟨rfl, rfl⟩
  · exact .inl ⟨rfl, rfl⟩
  · exact .inl ⟨rfl, rfl⟩

/-- Which commands write TAGACC or TAGSUP, and how (R43). -/
theorem effect_flt_counters (i : Instr) (s : State) :
    ((effectOf i s).1.flt.tagacc = s.flt.tagacc ∧ (effectOf i s).1.flt.tagsup = s.flt.tagsup) ∨
    (∃ e, i = .fltCheck e) ∧
      (((effectOf i s).1.flt.tagacc = s.flt.tagacc + 1#32 ∧ (effectOf i s).1.flt.tagsup = s.flt.tagsup) ∨
       ((effectOf i s).1.flt.tagacc = s.flt.tagacc ∧ (effectOf i s).1.flt.tagsup = s.flt.tagsup + 1#32)) := by
  obtain h | ⟨e, rfl, -, -, h⟩ | ⟨h, -⟩ | ⟨_, -, h⟩ | ⟨_, -, -, -, h⟩ := effect_flt i s <;> rw [h]
  · exact .inl ⟨rfl, rfl⟩
  · exact .inr ⟨⟨e, rfl⟩, TagFilter.check_counters e s.now s.flt⟩
  · exact .inl ⟨rfl, rfl⟩
  · exact .inl ⟨rfl, rfl⟩
  · exact .inl ⟨rfl, rfl⟩

/-- Which steps but RESET write TAGACC or TAGSUP, and how (R43). -/
theorem step_flt_counters {s t : State} (h : step s = .next t) (hr : ∀ rest, s.inputs ≠ .reset :: rest) :
    (t.flt.tagacc = s.flt.tagacc ∧ t.flt.tagsup = s.flt.tagsup) ∨
    (∃ e, s.takes = some (.fltCheck e)) ∧
      ((t.flt.tagacc = s.flt.tagacc + 1#32 ∧ t.flt.tagsup = s.flt.tagsup) ∨
       (t.flt.tagacc = s.flt.tagacc ∧ t.flt.tagsup = s.flt.tagsup + 1#32)) := by
  obtain e | ⟨i, u, hi, hu, e⟩ | ⟨m, _, _, -, e⟩ | ⟨m, _, _, _, -, e⟩ | ⟨rest, hin, -⟩ := step_units h
  · rw [e.flt]
    exact .inl ⟨rfl, rfl⟩
  · rw [e.flt, ← hu.flt]
    obtain hk | ⟨⟨p, rfl⟩, hk⟩ := effect_flt_counters i u
    · exact .inl hk
    · exact .inr ⟨⟨p, hi⟩, hk⟩
  · rw [e.flt, State.setChan_flt]
    exact .inl ⟨rfl, rfl⟩
  · rw [e.flt, State.setChan_flt]
    exact .inl ⟨rfl, rfl⟩
  · exact absurd hin (hr rest)

/-- Settles O40, unit by unit: a step that is not RESET keeps a counter or is the one its rule names. -/
theorem countersHaveOneWriter : Obligations.CountersHaveOneWriter := by
  intro s t n h hr
  obtain ⟨hfwd, hovr, htxerr⟩ := step_chan_counters h hr n
  refine ⟨hfwd.resolve_left, hovr.resolve_left, htxerr.resolve_left, fun hne => ?_, fun hne => ?_⟩
  · exact (step_sync_counters h hr).resolve_left fun ⟨h1, h2⟩ => hne.elim (· h1) (· h2)
  · exact (step_flt_counters h hr).resolve_left fun ⟨h1, h2⟩ => hne.elim (· h1) (· h2)

end Sys2Proof.Machine
end

section
/-! PROOFS. Family 10_state.md: no step depends on what a command cannot see (R49, R55, R57). Each operation of the model
is given its effect on views, or shown to answer alike on units with one view; the commands and the agents follow. -/

namespace Sys2Proof.Machine

/-! ## Queues: equal contents -/

section
variable {α : Type} [Inhabited α] {cap : Nat} {r q : RingBuffer α}

/-- Queues of one content have one count. -/
theorem RingBuffer.count_eq_of_contents (h : r.contents cap = q.contents cap) : r.count = q.count := by
  rw [← RingBuffer.length_contents cap r, h, RingBuffer.length_contents]

/-- Queues of one content give up the same entries, and keep one content (R221). -/
theorem RingBuffer.popMany_congr {n : Nat} (wr : r.Wf cap) (wq : q.Wf cap) (h : r.contents cap = q.contents cap)
    (hn : n ≤ r.count) :
    (r.popMany cap n).1 = (q.popMany cap n).1 ∧ (r.popMany cap n).2.contents cap = (q.popMany cap n).2.contents cap := by
  obtain ⟨hr, hr', -⟩ := RingBuffer.popMany_spec wr hn
  obtain ⟨hq, hq', -⟩ := RingBuffer.popMany_spec wq (RingBuffer.count_eq_of_contents h ▸ hn)
  rw [hr, hr', hq, hq', h]
  exact ⟨rfl, rfl⟩

/-- Queues of one content keep one content when the same entries, which fit, are pushed (R220). -/
theorem RingBuffer.contents_pushMany_congr {es : List α} (wr : r.Wf cap) (wq : q.Wf cap)
    (h : r.contents cap = q.contents cap) (room : r.count + es.length ≤ cap) :
    (r.pushMany cap es).contents cap = (q.pushMany cap es).contents cap := by
  rw [(RingBuffer.pushMany_spec wr room).1, (RingBuffer.pushMany_spec wq (RingBuffer.count_eq_of_contents h ▸ room)).1, h]

end

/-! ## Channels -/

section
variable {a b : Nat} {c d : Channel}

/-- What channels of one view have in common. -/
theorem Channel.view_eq_iff : c.view a b = d.view a b ↔
    c.rxie = d.rxie ∧ c.txie = d.txie ∧ c.rx.ring.contents a = d.rx.ring.contents a ∧ c.rx.gapPending = d.rx.gapPending ∧
    c.tx.ring.contents b = d.tx.ring.contents b ∧ c.tx.claimLen = d.tx.claimLen ∧ c.wire = d.wire ∧ c.fwd = d.fwd ∧
    c.ovr = d.ovr ∧ c.txerr = d.txerr := by
  simp only [Channel.view, ChannelView.mk.injEq]

/-- RESET of a channel, seen (R350). -/
theorem Channel.view_reset_congr (h : c.view a b = d.view a b) : c.reset.view a b = d.reset.view a b := by
  obtain ⟨-, -, -, -, -, -, hwire, -⟩ := Channel.view_eq_iff.1 h
  simp [Channel.view_eq_iff, hwire]

/-- MODE.SET's bracket of a channel, seen (R262). -/
theorem Channel.view_bracket_congr (h : c.view a b = d.view a b) :
    c.pause.flushBoth.resume.view a b = d.pause.flushBoth.resume.view a b := by
  obtain ⟨-, -, -, -, -, -, hwire, hfwd, hovr, htxerr⟩ := Channel.view_eq_iff.1 h
  simp [Channel.view_eq_iff, hwire, hfwd, hovr, htxerr]

/-- The RX ring replaced by a ring of one content, seen. -/
theorem Channel.view_setRxRing_congr (h : c.view a b = d.view a b) {r q : RingBuffer RxEntry}
    (hr : r.contents a = q.contents a) :
    ({ c with rx := { c.rx with ring := r } } : Channel).view a b =
      ({ d with rx := { d.rx with ring := q } } : Channel).view a b :=
  congrArg₂ (fun (v : ChannelView) es => { v with rx := es }) h hr

/-- The TX ring replaced by a ring of one content, seen; TXIE set where there is something to send. -/
theorem Channel.view_setTxRing_congr (h : c.view a b = d.view a b) {r q : RingBuffer Byte}
    (hr : r.contents b = q.contents b) (sends : Bool) :
    ({ c with tx := { c.tx with ring := r }, txie := c.txie || sends } : Channel).view a b =
      ({ d with tx := { d.tx with ring := q }, txie := d.txie || sends } : Channel).view a b :=
  congrArg₂ (fun (v : ChannelView) p => { v with tx := p, txie := v.txie || sends }) h hr

/-- A Bypass PROCESS of a channel, seen: its two rings replaced by rings of one content (R266). -/
theorem Channel.view_forward_congr (h : c.view a b = d.view a b) {r r' : RingBuffer RxEntry} {q q' : RingBuffer Byte}
    (hr : r.contents a = r'.contents a) (hq : q.contents b = q'.contents b) (moved : Word) (sends : Bool) :
    ({ c with rx := { c.rx with ring := r }, tx := { c.tx with ring := q }, fwd := c.fwd + moved
              txie := c.txie || sends } : Channel).view a b =
      ({ d with rx := { d.rx with ring := r' }, tx := { d.tx with ring := q' }, fwd := d.fwd + moved
                txie := d.txie || sends } : Channel).view a b :=
  congrArg (fun v : ChannelView => { v with fwd := v.fwd + moved })
    (Channel.view_setTxRing_congr (Channel.view_setRxRing_congr h hr) hq sends)

/-- A byte received, seen (R226). -/
theorem Channel.view_receive_congr (wc : c.Wf a b) (wd : d.Wf a b) (h : c.view a b = d.view a b) (x : Byte) :
    (c.receive a x).view a b = (d.receive a x).view a b := by
  obtain ⟨hrxie, htxie, hrx, hgap, htx, hclaim, hwire, hfwd, hovr, htxerr⟩ := Channel.view_eq_iff.1 h
  have hcount := RingBuffer.count_eq_of_contents hrx
  have hc := wc.rx.count
  unfold Channel.receive
  rw [← hcount]
  split
  · exact Channel.view_eq_iff.2 ⟨hrxie, htxie, hrx, rfl, htx, hclaim, hwire, hfwd, by rw [hovr], htxerr⟩
  · refine Channel.view_eq_iff.2 ⟨hrxie, htxie, ?_, rfl, htx, hclaim, hwire, hfwd, hovr, htxerr⟩
    rw [RingBuffer.contents_push wc.rx (by omega), RingBuffer.contents_push wd.rx (by omega), hrx, hgap]

/-- A transmit event, seen: beyond the claim in both or in neither, and then one view (R227). -/
theorem Channel.view_transmit_congr (wc : c.Wf a b) (wd : d.Wf a b) (h : c.view a b = d.view a b) (k j : Nat) :
    (c.transmit b k j).map (Channel.view a b) = (d.transmit b k j).map (Channel.view a b) := by
  obtain ⟨hrxie, htxie, hrx, hgap, htx, hclaim, hwire, hfwd, hovr, htxerr⟩ := Channel.view_eq_iff.1 h
  have hcount := RingBuffer.count_eq_of_contents htx
  by_cases hj : j ≤ min k c.tx.ring.count
  · obtain ⟨r, hr, rc, -, rn⟩ := Channel.transmit_spec wc hj
    obtain ⟨q, hq, qc, -, qn⟩ := Channel.transmit_spec wd (hcount ▸ hj)
    rw [hr, hq]
    refine congrArg some (Channel.view_eq_iff.2 ⟨hrxie, ?_, hrx, hgap, ?_, rfl, ?_, hfwd, hovr, htxerr⟩)
    · simp only [htxie, rn, qn, hcount]
    · simp only [rc, qc, htx]
    · simp only [hwire, htx]
  · rw [Channel.transmit_none.2 (by omega), Channel.transmit_none.2 (by omega)]

end

/-! ## The synchronizer -/

/-- The bytes stored below an index, when one more is stored there. -/
theorem take_set_succ (l : List Byte) (n : Nat) (x : Byte) (h : n < l.length) : (l.set n x).take (n + 1) = l.take n ++ [x] := by
  rw [List.take_add_one, List.take_set_of_le (le_refl n), List.getElem?_set_self h]
  rfl

/-- The bytes a synchronizer in WaitBody holds once it has stored one more (R191). -/
theorem Sync.held_store {y : Sync} (w : y.Wf) (hs : y.state = .waitBody) (x : Byte) :
    (y.buf.set (1 + y.received.toNat) x).take (1 + (y.received + 1#8).toNat) =
      y.buf.take (1 + y.received.toNat) ++ [x] := by
  obtain ⟨-, hle, hlt, -⟩ := w.body hs
  have hl : y.buf.length = 255 := w.length
  rw [Sync.received_succ w hs, ← Nat.add_assoc, take_set_succ _ _ _ (by omega)]

/-- What synchronizers of one view have in common. -/
theorem Sync.view_eq_iff {y z : Sync} : y.view = z.view ↔
    y.state = z.state ∧ (y.state = .waitBody → y.buf.take (1 + y.received.toNat) = z.buf.take (1 + z.received.toNat)) ∧
    y.expected = z.expected ∧ y.received = z.received ∧ y.last = z.last ∧ y.frames = z.frames ∧ y.crcerr = z.crcerr := by
  simp only [Sync.view, SyncView.mk.injEq]
  refine and_congr_right fun hs => and_congr_left' ?_
  rw [← hs]
  by_cases hb : y.state = .waitBody <;> simp [hb]

/-- sync_reset(), seen (R190). -/
theorem Sync.view_reset_congr {y z : Sync} (h : y.view = z.view) : y.reset.view = z.reset.view := by
  obtain ⟨-, -, -, -, hlast, hframes, hcrcerr⟩ := Sync.view_eq_iff.1 h
  simp [Sync.view_eq_iff, hlast, hframes, hcrcerr]

/-- The time stamp, seen. -/
theorem Sync.view_last_congr {y z : Sync} (h : y.view = z.view) (t : Word) :
    ({ y with last := t } : Sync).view = ({ z with last := t } : Sync).view := by
  obtain ⟨hs, hb, he, hr, -, hframes, hcrcerr⟩ := Sync.view_eq_iff.1 h
  exact Sync.view_eq_iff.2 ⟨hs, hb, he, hr, rfl, hframes, hcrcerr⟩

/-- The counters, seen. -/
theorem Sync.view_withCounters_congr {y z : Sync} (h : y.view = z.view) (m n : Word) :
    (y.withCounters m n).view = (z.withCounters m n).view := by
  obtain ⟨hs, hb, he, hr, hlast, -⟩ := Sync.view_eq_iff.1 h
  exact Sync.view_eq_iff.2 ⟨hs, hb, he, hr, hlast, rfl, rfl⟩

/-- The timeout check, seen (R191). -/
theorem Sync.view_expire_congr {y z : Sync} (h : y.view = z.view) (timeout : Nat) (t : Word) :
    (y.expire timeout t).view = (z.expire timeout t).view := by
  obtain ⟨hs, -, -, -, hlast, -⟩ := Sync.view_eq_iff.1 h
  unfold Sync.expire
  rw [← hs, ← hlast]
  split
  · exact Sync.view_reset_congr h
  · exact h

/-- sync_byte's state step, seen: the same frame, if any, and one view (R191). -/
theorem Sync.view_accept_congr {y z : Sync} (wy : y.Wf) (wz : z.Wf) (h : y.view = z.view) (x : Byte) :
    (Sync.accept x y).1.view = (Sync.accept x z).1.view ∧ (Sync.accept x y).2 = (Sync.accept x z).2 := by
  obtain ⟨hs, hb, he, hr, hlast, hframes, hcrcerr⟩ := Sync.view_eq_iff.1 h
  cases ys : y.state with
  | waitLength =>
    simp only [Sync.accept, ← hs, ys]
    split
    · have hy : 0 < y.buf.length := by rw [wy.length]; decide
      have hz : 0 < z.buf.length := by rw [wz.length]; decide
      have hstore : (y.buf.set 0 x).take 1 = (z.buf.set 0 x).take 1 :=
        (take_set_succ y.buf 0 x hy).trans (take_set_succ z.buf 0 x hz).symm
      exact ⟨Sync.view_eq_iff.2 ⟨rfl, fun _ => hstore, rfl, rfl, hlast, hframes, hcrcerr⟩, rfl⟩
    · exact ⟨h, rfl⟩
  | waitBody =>
    have hstore := (Sync.held_store wy ys x).trans ((hb ys) ▸ (Sync.held_store wz (hs ▸ ys) x).symm)
    rw [← hr] at hstore
    simp only [Sync.accept, ← hs, ys, ← hr, ← he]
    split
    · rename_i hfull
      refine ⟨Sync.view_eq_iff.2 ⟨rfl, by simp, rfl, rfl, hlast, hframes, hcrcerr⟩, ?_⟩
      rw [← hfull, hstore]
    · exact ⟨Sync.view_eq_iff.2 ⟨rfl, fun _ => hstore, rfl, rfl, hlast, hframes, hcrcerr⟩, rfl⟩

/-- sync_byte, seen: the same frame, if any, and one view (R191). -/
theorem Sync.view_byte_congr {y z : Sync} (wy : y.Wf) (wz : z.Wf) (h : y.view = z.view) (timeout : Nat) (x : Byte)
    (t : Word) : (y.byte timeout x t).1.view = (z.byte timeout x t).1.view ∧
      (y.byte timeout x t).2 = (z.byte timeout x t).2 :=
  Sync.view_accept_congr (Sync.wf_stamp (Sync.wf_expire wy timeout t) t _ _)
    (Sync.wf_stamp (Sync.wf_expire wz timeout t) t _ _) (Sync.view_last_congr (Sync.view_expire_congr h timeout t) t) x

/-- Entries presented, seen: the same frames completed and one view (R267). -/
theorem Sync.view_runEntries_congr {y z : Sync} (wy : y.Wf) (wz : z.Wf) (h : y.view = z.view) (timeout : Nat) (t : Word)
    (es : List RxEntry) : (Sync.runEntries timeout t es y).1.view = (Sync.runEntries timeout t es z).1.view ∧
      (Sync.runEntries timeout t es y).2 = (Sync.runEntries timeout t es z).2 := by
  induction es generalizing y z with
  | nil => exact ⟨h, rfl⟩
  | cons e es ih =>
    have wf : ∀ {x : Sync}, x.Wf → (if e.gap then x.reset else x).Wf := fun w => by
      split
      · exact Sync.wf_reset w
      · exact w
    have hgap : (if e.gap then y.reset else y).view = (if e.gap then z.reset else z).view := by
      split
      · exact Sync.view_reset_congr h
      · exact h
    obtain ⟨hbyte, hframe⟩ := Sync.view_byte_congr (wf wy) (wf wz) hgap timeout e.byte t
    obtain ⟨hrest, hframes⟩ :=
      ih (Sync.byte_spec (wf wy) timeout e.byte t).1 (Sync.byte_spec (wf wz) timeout e.byte t).1 hbyte
    exact ⟨hrest, congrArg₂ (fun o fs => o.toList ++ fs) hframe hframes⟩

/-- A drain, seen: the same frames returned and one view (R192, R267). -/
theorem Sync.view_drain_congr {y z : Sync} (wy : y.Wf) (wz : z.Wf) (h : y.view = z.view) (timeout : Nat) (t : Word)
    (es : List RxEntry) : (Sync.drain timeout t es y).1.view = (Sync.drain timeout t es z).1.view ∧
      (Sync.drain timeout t es y).2 = (Sync.drain timeout t es z).2 := by
  obtain ⟨-, -, -, -, -, hframes, hcrcerr⟩ := Sync.view_eq_iff.1 h
  obtain ⟨hv, hfs⟩ := Sync.view_runEntries_congr wy wz h timeout t es
  rw [Sync.drain_eq, Sync.drain_eq, hfs, hframes, hcrcerr]
  exact ⟨Sync.view_withCounters_congr hv _ _, rfl⟩

/-! ## The filter -/

/-- What a filter's slots show of a held EPC: a lookup's answer is determined by the view (R290). -/
theorem TagFilter.lookup_iff_view {p : Params} {f : TagFilter} (w : f.Wf p) {E : List Byte} {i : Nat} :
    f.lookup E = some i ↔ ∃ ts, f.view.entry[i]? = some (some (E, ts)) := by
  rw [TagFilter.lookup_some w]
  simp only [TagFilter.view, List.getElem?_map, Option.map_eq_some_iff]
  constructor
  · rintro ⟨x, hx, hv, rfl⟩
    exact ⟨x.ts, x, hx, by simp [Slot.view, hv]⟩
  · rintro ⟨ts, x, hx, hv⟩
    unfold Slot.view at hv
    split at hv
    · injection hv with hv
      exact ⟨x, hx, ‹_›, congrArg Prod.fst hv⟩
    · cases hv

/-- The last time a held EPC was seen, from the view. -/
theorem TagFilter.tsAt_of_view {f : TagFilter} {E : List Byte} {i : Nat} {ts : Word}
    (h : f.view.entry[i]? = some (some (E, ts))) : f.tsAt i = ts := by
  simp only [TagFilter.view, List.getElem?_map, Option.map_eq_some_iff] at h
  obtain ⟨x, hx, hv⟩ := h
  unfold Slot.view at hv
  split at hv
  · injection hv with hv
    rw [TagFilter.tsAt, hx]
    exact congrArg Prod.snd hv
  · cases hv

/-- filter_clear(), seen (R291). -/
theorem TagFilter.view_clear (f : TagFilter) :
    f.clear.view = { f.view with entry := f.view.entry.map fun _ => none, next := 0, count := 0 } := by
  simp only [TagFilter.view, TagFilter.clear, List.map_map]
  rfl

theorem TagFilter.view_clear_congr {f g : TagFilter} (h : f.view = g.view) : f.clear.view = g.clear.view := by
  rw [TagFilter.view_clear, TagFilter.view_clear, h]

/-- An insertion, seen: the next slot shows the EPC, and no byte above it (R292). -/
theorem TagFilter.view_insert (f : TagFilter) {E : List Byte} (hE : E.length ≤ 255) (t : Word) :
    (f.insert E t).view = { f.view with
      entry := f.view.entry.modify f.view.next fun _ => some (E, t)
      next := (f.view.next + 1) % f.view.cap, count := min (f.view.count + 1) f.view.cap
      tagacc := f.view.tagacc + 1#32 } := by
  have hfill : ∀ x, (Slot.fill E t x).view = some (E, t) := by
    intro x
    obtain ⟨hv, -, hk, ht⟩ := Slot.fill_spec E t x hE
    simp [Slot.view, hv, hk, ht]
  simp only [TagFilter.view, TagFilter.insert, FilterView.mk.injEq, and_true]
  apply List.ext_getElem?
  intro i
  simp only [List.getElem?_map, List.getElem?_modify]
  cases f.entry[i]? with
  | none => rfl
  | some x => by_cases hi : f.next = i <;> simp [hi, hfill]

/-- A refresh, seen: the slot shows the new time stamp, if it is valid (R292). -/
theorem TagFilter.view_refresh (f : TagFilter) (i : Nat) (t : Word) :
    (f.refresh i t).view = { f.view with
      entry := f.view.entry.modify i (Option.map fun held => (held.1, t)), tagacc := f.view.tagacc + 1#32 } := by
  have hslot : ∀ x : Slot, ({ x with ts := t } : Slot).view = x.view.map fun held => (held.1, t) := by
    intro x
    unfold Slot.view
    split <;> rfl
  simp only [TagFilter.view, TagFilter.refresh, FilterView.mk.injEq, and_true]
  apply List.ext_getElem?
  intro j
  simp only [List.getElem?_map, List.getElem?_modify]
  cases f.entry[j]? with
  | none => rfl
  | some x => by_cases hi : i = j <;> simp [hi, hslot]

/-- FLT.CHECK's verdict, seen: the same verdict and one view (R292). -/
theorem TagFilter.view_check_congr {p : Params} {f g : TagFilter} (wf : f.Wf p) (wg : g.Wf p) (h : f.view = g.view)
    {E : List Byte} (hE : E.length ≤ 255) (t : Word) :
    (f.check E t).1.view = (g.check E t).1.view ∧ (f.check E t).2 = (g.check E t).2 := by
  have hlookup : f.lookup E = g.lookup E := by
    apply Option.ext
    intro i
    rw [TagFilter.lookup_iff_view wf, TagFilter.lookup_iff_view wg, h]
  have hwin : f.win = g.win := congrArg FilterView.win h
  unfold TagFilter.check
  rw [← hlookup, ← hwin]
  cases hl : f.lookup E with
  | none =>
    refine ⟨?_, rfl⟩
    simp only [TagFilter.view_insert _ hE, h]
  | some i =>
    obtain ⟨ts, hts⟩ := (TagFilter.lookup_iff_view wf).1 hl
    simp only [TagFilter.tsAt_of_view hts, TagFilter.tsAt_of_view (h ▸ hts)]
    split
    · exact ⟨congrArg (fun v : FilterView => { v with win := f.win, tagsup := v.tagsup + 1#32 }) h, rfl⟩
    · refine ⟨?_, rfl⟩
      simp only [TagFilter.view_refresh, h]

end Sys2Proof.Machine
end

section
/-! PROOFS. Family 10_state.md: commands and steps on states of one view (R49, R55, R57). -/

namespace Sys2Proof.Machine

/-! ## States of one view -/

/-- What states of one view have in common. -/
theorem State.view_eq_iff {s t : State} : s.view = t.view ↔
    s.params = t.params ∧ s.mode = t.mode ∧
    (∀ n, (s.chan n).view (rxCap s.params n) (txCap s.params n) = (t.chan n).view (rxCap s.params n) (txCap s.params n)) ∧
    s.crc = t.crc ∧ s.sync.view = t.sync.view ∧ s.flt.view = t.flt.view ∧ s.fault = t.fault ∧
    s.cmdIndex = t.cmdIndex ∧ s.now = t.now ∧ s.reply = t.reply ∧ s.inputs = t.inputs := by
  simp only [State.view, View.mk.injEq]
  constructor
  · rintro ⟨hp, hm, h0, h1, rest⟩
    refine ⟨hp, hm, fun n => ?_, rest⟩
    rw [← hp] at h0 h1
    cases n
    · exact h0
    · exact h1
  · rintro ⟨hp, hm, hc, rest⟩
    rw [← hp]
    exact ⟨rfl, hm, hc .ch0, hc .ch1, rest⟩

/-- A channel replaced in both, by channels of one view. -/
theorem State.view_setChan_congr {s t : State} (hv : s.view = t.view) {n : Chan} {c d : Channel}
    (h : c.view (rxCap s.params n) (txCap s.params n) = d.view (rxCap s.params n) (txCap s.params n)) :
    (s.setChan n c).view = (t.setChan n d).view := by
  obtain ⟨hp, hm, hc, hrest⟩ := State.view_eq_iff.1 hv
  simp only [State.view_eq_iff, State.setChan_params, State.setChan_mode, State.setChan_crc, State.setChan_sync,
    State.setChan_flt, State.setChan_fault, State.setChan_cmdIndex, State.setChan_now, State.setChan_reply,
    State.setChan_inputs]
  refine ⟨hp, hm, fun m => ?_, hrest⟩
  by_cases hn : m = n
  · subst hn
    rw [State.chan_setChan_self, State.chan_setChan_self]
    exact h
  · rw [State.chan_setChan_ne s hn, State.chan_setChan_ne t hn]
    exact hc m

/-- The synchronizer replaced in both, by synchronizers of one view. -/
theorem State.view_setSync_congr {s t : State} (hv : s.view = t.view) {y z : Sync} (h : y.view = z.view) :
    ({ s with sync := y } : State).view = ({ t with sync := z } : State).view :=
  congrArg₂ (fun (v : View) w => { v with sync := w }) hv h

/-- The filter replaced in both, by filters of one view. -/
theorem State.view_setFlt_congr {s t : State} (hv : s.view = t.view) {f g : TagFilter} (h : f.view = g.view) :
    ({ s with flt := f } : State).view = ({ t with flt := g } : State).view :=
  congrArg₂ (fun (v : View) w => { v with flt := w }) hv h

/-- Two sound states of one view, and what they have in common: what a proof about a step of both starts from. -/
structure State.Alike (s t : State) : Prop where
  inv : s.Inv
  inv' : t.Inv
  view : s.view = t.view

section
variable {s t : State} (a : s.Alike t)
include a

theorem State.Alike.params : s.params = t.params := congrArg View.params a.view
theorem State.Alike.mode : s.mode = t.mode := congrArg View.mode a.view
theorem State.Alike.crc : s.crc = t.crc := congrArg View.crc a.view
theorem State.Alike.fault : s.fault = t.fault := congrArg View.fault a.view
theorem State.Alike.now : s.now = t.now := congrArg View.now a.view
theorem State.Alike.inputs : s.inputs = t.inputs := congrArg View.inputs a.view
theorem State.Alike.sync : s.sync.view = t.sync.view := congrArg View.sync a.view
theorem State.Alike.flt : s.flt.view = t.flt.view := congrArg View.flt a.view

theorem State.Alike.chan (n : Chan) :
    (s.chan n).view (rxCap s.params n) (txCap s.params n) = (t.chan n).view (rxCap s.params n) (txCap s.params n) :=
  let ⟨_, _, h, _⟩ := State.view_eq_iff.1 a.view
  h n

theorem State.Alike.wf (n : Chan) : (t.chan n).Wf (rxCap s.params n) (txCap s.params n) := a.params ▸ a.inv'.chan n

theorem State.Alike.rxContents (n : Chan) : s.rxContents n = t.rxContents n := by
  unfold State.rxContents
  rw [← a.params]
  exact congrArg ChannelView.rx (a.chan n)

theorem State.Alike.txContents (n : Chan) : s.txContents n = t.txContents n := by
  unfold State.txContents
  rw [← a.params]
  exact congrArg ChannelView.tx (a.chan n)

theorem State.Alike.rxCount (n : Chan) : (s.chan n).rx.ring.count = (t.chan n).rx.ring.count :=
  RingBuffer.count_eq_of_contents (congrArg ChannelView.rx (a.chan n))

theorem State.Alike.txCount (n : Chan) : (s.chan n).tx.ring.count = (t.chan n).tx.ring.count :=
  RingBuffer.count_eq_of_contents (congrArg ChannelView.tx (a.chan n))

end

/-! ## The parts of commands -/

/-- A command's effect and result, with the state seen through its view. -/
def seen (e : State × Reply) : View × Reply := (e.1.view, e.2)

theorem seen_eq {e f : State × Reply} (hv : e.1.view = f.1.view) (hr : e.2 = f.2) : seen e = seen f := Prod.ext hv hr

/-- A feed's or a drain's frames returned, where they and the synchronizers' views agree (R195, R267). -/
theorem seen_returnFrames {s t : State} (hs : s.view = t.view) {r q : Sync × List (List Byte)}
    (hv : r.1.view = q.1.view) (hf : r.2 = q.2) : seen (returnFrames s r) = seen (returnFrames t q) := by
  refine seen_eq (State.view_setSync_congr hs hv) ?_
  simp only [returnFrames, hf]

section
variable {s t : State} (a : s.Alike t)
include a

/-- FIFO.PUT's store (R229). -/
theorem putBytes_alike {ch : Chan} {p : List Byte}
    (room : ¬ (s.chan ch).tx.ring.free (txCap s.params ch) < p.length) : (putBytes ch p s).view = (putBytes ch p t).view := by
  have ws := a.inv.chan ch
  have fits : (s.chan ch).tx.ring.count + p.length ≤ txCap s.params ch := by
    have := ws.tx.count
    unfold RingBuffer.free at room
    omega
  rw [putBytes_eq, putBytes_eq, ← a.params]
  exact State.view_setChan_congr a.view (Channel.view_setTxRing_congr (a.chan ch)
    (RingBuffer.contents_pushMany_congr ws.tx (a.wf ch).tx (congrArg ChannelView.tx (a.chan ch)) fits) _)

/-- FIFO.GET's entries (R230). -/
theorem getEntries_alike {ch : Chan} {k : Nat} (h : k ≤ (s.chan ch).rx.ring.count) :
    seen (getEntries ch k s) = seen (getEntries ch k t) := by
  obtain ⟨hes, hleft⟩ :=
    RingBuffer.popMany_congr (a.inv.chan ch).rx (a.wf ch).rx (congrArg ChannelView.rx (a.chan ch)) h
  unfold getEntries
  rw [← a.params]
  refine seen_eq (State.view_setChan_congr a.view (Channel.view_setRxRing_congr (a.chan ch) hleft)) ?_
  simp only [hes]

/-- Whether a queue's interrupt-side agent is live (R231). -/
theorem queueLive_alike (q : QueueSel) : queueLive s q = queueLive t q := by
  obtain ⟨hrxie, htxie, -⟩ := Channel.view_eq_iff.1 (a.chan (queueChan q))
  simp only [queueLive, hrxie, htxie]

/-- flush(q) (R222). -/
theorem flushQueue_alike (q : QueueSel) : (flushQueue s q).view = (flushQueue t q).view := by
  obtain ⟨hrxie, htxie, hrx, hgap, htx, hclaim, hrest⟩ := Channel.view_eq_iff.1 (a.chan (queueChan q))
  unfold flushQueue
  split
  · exact State.view_setChan_congr a.view (Channel.view_eq_iff.2 ⟨hrxie, htxie, rfl, rfl, htx, hclaim, hrest⟩)
  · exact State.view_setChan_congr a.view (Channel.view_eq_iff.2 ⟨hrxie, htxie, hrx, hgap, rfl, rfl, hrest⟩)

/-- A drain of the same entries: the same frames, and synchronizers of one view (R192, R267). -/
theorem drain_alike {es es' : List RxEntry} (h : es = es') :
    (s.sync.drain s.params.syncTimeout s.now es).1.view = (t.sync.drain t.params.syncTimeout t.now es').1.view ∧
      (s.sync.drain s.params.syncTimeout s.now es).2 = (t.sync.drain t.params.syncTimeout t.now es').2 := by
  rw [← h, ← a.params, ← a.now]
  exact Sync.view_drain_congr a.inv.sync a.inv'.sync a.sync _ _ es

/-- A check of an EPC that fits: the same verdict, and filters of one view (R292). -/
theorem check_alike {E : List Byte} (hE : E.length ≤ s.params.epcMax) :
    (s.flt.check E s.now).1.view = (t.flt.check E t.now).1.view ∧
      (s.flt.check E s.now).2 = (t.flt.check E t.now).2 := by
  rw [← a.now]
  exact TagFilter.view_check_congr a.inv.flt (a.params ▸ a.inv'.flt) a.flt
    (hE.trans (Params.Valid.epcMax_le a.inv.params)) s.now

/-- MODE.SET's bracket (R262). -/
theorem setMode_alike (new : Mode) : (setMode new s).view = (setMode new t).view := by
  have hchan : ∀ n, (if affected s.mode new n then (s.chan n).pause.flushBoth.resume else s.chan n).view
      (rxCap s.params n) (txCap s.params n) = (if affected s.mode new n then (t.chan n).pause.flushBoth.resume
        else t.chan n).view (rxCap s.params n) (txCap s.params n) := by
    intro n
    split
    · exact Channel.view_bracket_congr (a.chan n)
    · exact a.chan n
  obtain ⟨hp, -, -, hcrc, hsync, hflt, hrest⟩ := State.view_eq_iff.1 a.view
  rw [setMode_eq, setMode_eq, ← a.mode, State.view_eq_iff]
  refine ⟨hp, rfl, fun n => ?_, hcrc, ?_, ?_, hrest⟩
  · cases n
    · exact hchan .ch0
    · exact hchan .ch1
  · simp only
    split
    · exact Sync.view_reset_congr hsync
    · exact hsync
  · simp only
    split
    · exact TagFilter.view_clear_congr hflt
    · exact hflt

/-- PROCESS in Bypass (R266). -/
theorem processBypass_alike : seen (processBypass s) = seen (processBypass t) := by
  obtain ⟨rx0, rx1, tx0, tx1, hs, ⟨s1, s2, s3, s4⟩, -⟩ := processBypass_spec a.inv
  obtain ⟨rx0', rx1', tx0', tx1', ht, ⟨t1, t2, t3, t4⟩, -⟩ := processBypass_spec a.inv'
  simp only [← a.rxContents, ← a.txContents, ← a.params] at ht t1 t2 t3 t4
  obtain ⟨hp, hm, hchan, hrest⟩ := State.view_eq_iff.1 a.view
  rw [hs, ht]
  refine seen_eq (State.view_eq_iff.2 ⟨rfl, hm, fun n => ?_, hrest⟩) rfl
  cases n
  · exact Channel.view_forward_congr (hchan .ch0) (s1.trans t1.symm) (s4.trans t4.symm) _ _
  · exact Channel.view_forward_congr (hchan .ch1) (s2.trans t2.symm) (s3.trans t3.symm) _ _

/-- PROCESS in Inventory (R267). -/
theorem processInventory_alike : seen (processInventory s) = seen (processInventory t) := by
  have hchan : s.ch0.view _ _ = t.ch0.view _ _ := a.chan .ch0
  have hcap : rxCap t.params .ch0 = rxCap s.params .ch0 := congrArg (rxCap · .ch0) a.params.symm
  have hcount : t.ch0.rx.ring.count = s.ch0.rx.ring.count := (a.rxCount .ch0).symm
  obtain ⟨hes, hleft⟩ :=
    RingBuffer.popMany_congr a.inv.ch0.rx (a.wf .ch0).rx (congrArg ChannelView.rx hchan) (le_refl s.ch0.rx.ring.count)
  obtain ⟨hv, hf⟩ := drain_alike a hes
  unfold processInventory
  simp only [hcap, hcount]
  exact seen_returnFrames
    (State.view_setChan_congr (n := .ch0) a.view (Channel.view_setRxRing_congr hchan hleft)) hv hf

/-- reg[r] (R32-R43). -/
theorem readReg_alike (g : Reg) : readReg s g = readReg t g := by
  have hchan := fun n => Channel.view_eq_iff.1 (a.chan n)
  obtain ⟨hs, -, hexp, hrec, hlast, hframes, hcrcerr⟩ := Sync.view_eq_iff.1 a.sync
  have hflt := a.flt
  simp only [TagFilter.view, FilterView.mk.injEq] at hflt
  obtain ⟨-, -, hcount, hcap, hwin, htagacc, htagsup⟩ := hflt
  cases g
  case mode => exact congrArg modeWord a.mode
  case irqen =>
    obtain ⟨hrx0, htx0, -⟩ := hchan .ch0
    obtain ⟨hrx1, htx1, -⟩ := hchan .ch1
    simp only [State.chan] at hrx0 htx0 hrx1 htx1
    simp only [readReg, irqenWord, hrx0, htx0, hrx1, htx1]
  case crc => exact congrArg (BitVec.setWidth 32) a.crc
  case syncst => simp only [readReg, syncstWord, hs, hexp, hrec]
  case synclast => exact hlast
  case fltwin => exact hwin
  case fltcap => exact congrArg sizeWord hcap
  case fltcnt => exact congrArg sizeWord hcount
  case qstat q =>
    obtain ⟨-, -, -, hgap, -⟩ := hchan (queueChan q)
    simp only [readReg, readQstat, a.rxCount, a.txCount, hgap]
  case qcap q => exact congrArg (fun p => qcapWord (queueCap p q)) a.params
  case fwd n => obtain ⟨-, -, -, -, -, -, -, h, -, -⟩ := hchan n; exact h
  case frames => exact hframes
  case crcerr => exact hcrcerr
  case ovr n => obtain ⟨-, -, -, -, -, -, -, -, h, -⟩ := hchan n; exact h
  case txerr n => obtain ⟨-, -, -, -, -, -, -, -, -, h⟩ := hchan n; exact h
  case tagacc => exact htagacc
  case tagsup => exact htagsup

/-- IRQEN written (R34). -/
theorem writeIrqen_alike (v : Word) : (writeIrqen s v).view = (writeIrqen t v).view :=
  congrArg (fun w : View => { w with
    ch0 := { w.ch0 with rxie := v.getLsbD 0, txie := v.getLsbD 1 }
    ch1 := { w.ch1 with rxie := v.getLsbD 2, txie := v.getLsbD 3 } }) a.view

/-- REG.WRITE: refused in both or in neither, and then one view (R269). -/
theorem writeReg_alike (g : Reg) (v : Word) : (writeReg s v g).map State.view = (writeReg t v g).map State.view := by
  cases g
  case irqen =>
    simp only [writeReg]
    split
    · exact congrArg some (writeIrqen_alike a v)
    · rfl
  case fltwin => exact congrArg some (State.view_setFlt_congr a.view (congrArg (fun f : FilterView => { f with win := v }) a.flt))
  case fltcap =>
    simp only [writeReg]
    rw [show t.params.fltMaxCap = s.params.fltMaxCap from congrArg Params.fltMaxCap a.params.symm]
    split
    · rfl
    · exact congrArg some (State.view_setFlt_congr a.view (TagFilter.view_clear_congr
        (congrArg (fun f : FilterView => { f with cap := v.toNat }) a.flt)))
  all_goals rfl

end

/-! ## Commands -/

/-- Every command's effect and result on states of one view. -/
theorem effect_alike {s t : State} (a : s.Alike t) (i : Instr) : seen (effectOf i s) = seen (effectOf i t) := by
  cases i
  case crcInit => exact seen_eq (congrArg (fun v : View => { v with crc := 0xFFFF#16 }) a.view) rfl
  case crcByte b =>
    simp only [effectOf, writeCrc, a.crc]
    exact seen_eq (congrArg (fun v : View => { v with crc := crcStep t.crc b }) a.view) rfl
  case crcUpdate p =>
    simp only [effectOf, writeCrc, a.crc]
    exact seen_eq (congrArg (fun v : View => { v with crc := crcFold t.crc p }) a.view) rfl
  case fifoPut ch p =>
    have hroom : (s.chan ch).tx.ring.free (txCap s.params ch) = (t.chan ch).tx.ring.free (txCap t.params ch) := by
      simp only [RingBuffer.free, a.txCount, a.params]
    simp only [effectOf]
    rw [← hroom, ← a.mode]
    split
    · exact seen_eq a.view rfl
    · split
      · obtain ⟨hrxie, htxie, hrx, hgap, htx, hclaim, hwire, hfwd, hovr, htxerr⟩ := Channel.view_eq_iff.1 (a.chan ch)
        exact seen_eq (State.view_setChan_congr a.view (Channel.view_eq_iff.2
          ⟨hrxie, htxie, hrx, hgap, htx, hclaim, hwire, hfwd, hovr, by simp only [htxerr]⟩)) rfl
      · exact seen_eq (putBytes_alike a ‹_›) rfl
  case fifoGet ch n =>
    simp only [effectOf]
    rw [← a.rxCount, ← a.mode]
    split
    · exact seen_eq a.view rfl
    · exact getEntries_alike a (Nat.min_le_right _ _)
  case fifoFlush q =>
    simp only [effectOf]
    rw [← queueLive_alike a]
    split
    · exact seen_eq (congrArg (fun v : View => { v with fault := some .hazardFlushLive }) a.view) rfl
    · exact seen_eq (flushQueue_alike a q) rfl
  case syncFeed p =>
    simp only [effectOf]
    rw [← a.mode]
    split
    · exact seen_eq a.view rfl
    · obtain ⟨hv, hf⟩ := drain_alike a (rfl : p.map RxEntry.plain = _)
      exact seen_returnFrames a.view hv hf
  case syncReset => exact seen_eq (State.view_setSync_congr a.view (Sync.view_reset_congr a.sync)) rfl
  case fltCheck p =>
    simp only [effectOf]
    rw [show t.params.epcMax = s.params.epcMax from congrArg Params.epcMax a.params.symm]
    split
    · exact seen_eq a.view rfl
    · obtain ⟨hv, hr⟩ := check_alike a (show p.length ≤ s.params.epcMax by omega)
      exact seen_eq (State.view_setFlt_congr a.view hv) (by simp only [hr])
  case fltClear => exact seen_eq (State.view_setFlt_congr a.view (TagFilter.view_clear_congr a.flt)) rfl
  case modeSet m =>
    simp only [effectOf]
    rw [← a.mode]
    split
    · exact seen_eq a.view rfl
    · exact seen_eq (setMode_alike a _) rfl
  case process =>
    simp only [effectOf]
    rw [← a.mode]
    split
    · exact seen_eq a.view rfl
    · exact processBypass_alike a
    · exact processInventory_alike a
  case regRead r =>
    refine seen_eq a.view ?_
    simp only [effectOf, readReg_alike a]
  case regWrite r v =>
    have h : ((regOfIndex r).bind (writeReg s v)).map State.view = ((regOfIndex r).bind (writeReg t v)).map State.view := by
      cases regOfIndex r with
      | none => rfl
      | some g => exact writeReg_alike a g v
    simp only [effectOf]
    generalize (regOfIndex r).bind (writeReg s v) = x at h ⊢
    generalize (regOfIndex r).bind (writeReg t v) = y at h ⊢
    cases x <;> cases y
    · exact seen_eq a.view rfl
    · cases h
    · cases h
    · exact seen_eq (Option.some.inj h) rfl
  all_goals exact seen_eq a.view rfl

/-- The shell of a command shows its effect's view and its result. -/
theorem viewOutcome_asCommand {s t : State} {e f : State × Reply} (hf : s.fault = t.fault) (h : seen e = seen f) :
    viewOutcome (asCommand s e) = viewOutcome (asCommand t f) := by
  unfold asCommand
  rw [← hf]
  split
  · rfl
  · exact congrArg (fun w : View × Reply => Host.Outcome.next
      { w.1 with reply := some w.2, cmdIndex := w.1.cmdIndex + 1 }) h

/-! ## Steps -/

section
variable {s t : State} (a : s.Alike t)
include a

/-- URXn's step on states of one view (R226). -/
theorem urxStep_alike (n : Chan) (b : Byte) : viewOutcome (urxStep n b s) = viewOutcome (urxStep n b t) := by
  obtain ⟨hrxie, -⟩ := Channel.view_eq_iff.1 (a.chan n)
  unfold urxStep
  rw [← a.fault, ← hrxie, ← a.params]
  split
  · exact congrArg Host.Outcome.next a.view
  · exact congrArg Host.Outcome.next
      (State.view_setChan_congr a.view (Channel.view_receive_congr (a.inv.chan n) (a.wf n) (a.chan n) b))

/-- UTXn's step on states of one view (R227). -/
theorem utxStep_alike (n : Chan) (k j : Nat) : viewOutcome (utxStep n k j s) = viewOutcome (utxStep n k j t) := by
  obtain ⟨-, htxie, -⟩ := Channel.view_eq_iff.1 (a.chan n)
  have h := Channel.view_transmit_congr (a.inv.chan n) (a.wf n) (a.chan n) k j
  unfold utxStep
  rw [← a.fault, ← htxie, ← a.params]
  split
  · exact congrArg Host.Outcome.next a.view
  · split
    · rfl
    · generalize (s.chan n).transmit (txCap s.params n) k j = x at h ⊢
      generalize (t.chan n).transmit (txCap s.params n) k j = y at h ⊢
      cases x <;> cases y
      · exact congrArg (fun v : View => Host.Outcome.next { v with fault := some .commitBeyondClaim }) a.view
      · cases h
      · cases h
      · exact congrArg Host.Outcome.next (State.view_setChan_congr a.view (Option.some.inj h))

/-- RESET on states of one view (R350). -/
theorem resetBlock_alike : (resetBlock s).view = (resetBlock t).view := by
  obtain ⟨hp, -, hchan, -, hsync, hflt, -, -, hown⟩ := State.view_eq_iff.1 a.view
  refine State.view_eq_iff.2 ⟨hp, rfl, fun n => ?_, rfl, ?_, ?_, rfl, rfl, hown⟩
  · cases n
    · exact Channel.view_reset_congr (hchan .ch0)
    · exact Channel.view_reset_congr (hchan .ch1)
  · exact Sync.view_withCounters_congr (Sync.view_last_congr (Sync.view_reset_congr hsync) 0#32) 0#32 0#32
  · exact congrArg₂ (fun (f : FilterView) (p : Params) => { f with
      cap := fltCapReset, win := p.fltWindowReset, tagacc := 0#32, tagsup := 0#32 }) (TagFilter.view_clear_congr hflt) hp

/-- A host command on states of one view (R119). -/
theorem hostStep_alike (bytes : List Byte) (now : Word) :
    viewOutcome (hostStep bytes now s) = viewOutcome (hostStep bytes now t) := by
  have b : State.Alike { s with now := now } { t with now := now } :=
    ⟨State.inv_of_units a.inv rfl rfl rfl rfl rfl, State.inv_of_units a.inv' rfl rfl rfl rfl rfl,
      congrArg (fun v : View => { v with now := now }) a.view⟩
  unfold hostStep
  rw [show t.fault.isSome = s.fault.isSome from congrArg Option.isSome a.fault.symm]
  split
  · exact congrArg Host.Outcome.next a.view
  · split
    · rw [exec_eq, exec_eq]
      exact viewOutcome_asCommand b.fault (effect_alike b _)
    · exact viewOutcome_asCommand b.fault (seen_eq b.view rfl)
    · rfl

/-- Any offer on states of one view (R329). -/
theorem offered_alike (o : Input) : viewOutcome (offered o s) = viewOutcome (offered o t) := by
  cases o with
  | command bytes now => exact hostStep_alike a bytes now
  | urx n b => exact urxStep_alike a n b
  | utx n k j => exact utxStep_alike a n k j
  | reset => exact congrArg Host.Outcome.next (resetBlock_alike a)

end

/-- Settles O51: each agent's step, on states of one view, by what its operations do to views. -/
theorem unspecifiedContentsNeverShow : Obligations.UnspecifiedContentsNeverShow := by
  intro s t ws wt h
  have a : s.Alike t := ⟨ws, wt, h⟩
  unfold step takeOffer
  rw [← a.inputs]
  split
  · exact congrArg Host.Outcome.next h
  · next o rest _ =>
    exact offered_alike (s := { s with inputs := rest }) (t := { t with inputs := rest })
      ⟨State.inv_of_units ws rfl rfl rfl rfl rfl, State.inv_of_units wt rfl rfl rfl rfl rfl,
        congrArg (fun v : View => { v with inputs := rest }) h⟩ o

end Sys2Proof.Machine
end

section
/-! PROOFS. Family 30_encoding.md: the decoder and the encoder are inverse, and the opcode map is the opcode table. Both
rest on one notion, the words an operation's row matches (R125). -/

namespace Sys2Proof

/-! ## Operands: the fields say them, and they say the fields (R126) -/

@[simp] theorem chanOfSel_selOfChan (ch : Chan) : chanOfSel (selOfChan ch) = ch := by cases ch <;> decide

@[simp] theorem queueOfSel_selOfQueue (q : QueueSel) : queueOfSel (selOfQueue q) = q := by cases q <;> decide

@[simp] theorem byteOfImm_setWidth (b : Byte) : byteOfImm (b.setWidth 16) = b := by
  apply BitVec.eq_of_toNat_eq
  have := b.isLt
  simp only [byteOfImm, BitVec.extractLsb'_toNat, BitVec.toNat_setWidth, Nat.shiftRight_zero]
  omega

@[simp] theorem modeOfImm_setWidth (m : BitVec 2) : modeOfImm (m.setWidth 16) = m := by revert m; decide

@[simp] theorem valueOfPayload_wordBytes (v : Word) : valueOfPayload (wordBytes v) = v := wordOfBytes_wordByte v

/-- Four payload bytes are the bytes of the value they say (R83). -/
theorem wordBytes_valueOfPayload {p : List Byte} (h : p.length = 4) : wordBytes (valueOfPayload p) = p := by
  match p, h with
  | [b0, b1, b2, b3], _ => exact wordBytes_wordOfBytes b0 b1 b2 b3

/-- The low k bits of IMM, widened again, are IMM where no other bit is set. -/
theorem setWidth_extractLsb'_of_lt {k : Nat} {imm : Half} (h : imm.toNat < 2 ^ k) :
    (imm.extractLsb' 0 k).setWidth 16 = imm := by
  apply BitVec.eq_of_toNat_eq
  rw [BitVec.toNat_setWidth, BitVec.extractLsb'_toNat, Nat.shiftRight_zero, Nat.mod_eq_of_lt h, Nat.mod_eq_of_lt imm.isLt]

/-! ## Legal fields of a row (R125, R127) -/

theorem OpRow.selLegal_iff {r : OpRow} {sel : Byte} : r.selLegal sel = true ↔ sel &&& ~~~r.selFree = 0#8 := beq_iff_eq

theorem OpRow.immLegal_iff {r : OpRow} {imm : Half} : r.immLegal imm = true ↔ imm &&& ~~~r.immFree = r.immFixed :=
  beq_iff_eq

/-- Where a row has no operand bit in a field, all of the field's bits are fixed. -/
theorem and_not_zero {n : Nat} (x : BitVec n) : x &&& ~~~0#n = x := by simp

/-- A channel's SEL has no bit above SEL[0]. -/
theorem selOfChan_and_not (ch : Chan) : selOfChan ch &&& ~~~0x01#8 = 0#8 := by cases ch <;> decide

/-- A queue's SEL has no bit above SEL[1]. -/
theorem selOfQueue_and_not (q : QueueSel) : selOfQueue q &&& ~~~0x03#8 = 0#8 := by cases q <;> decide

/-- A SEL with no bit above SEL[0] is the channel's it says. -/
theorem selOfChan_chanOfSel : ∀ sel : Byte, sel &&& ~~~0x01#8 = 0#8 → selOfChan (chanOfSel sel) = sel := by decide

/-- A SEL with no bit above SEL[1] is the queue's it says. -/
theorem selOfQueue_queueOfSel : ∀ sel : Byte, sel &&& ~~~0x03#8 = 0#8 → selOfQueue (queueOfSel sel) = sel := by decide

/-! ## The encoder's fields are legal, and say the command -/

/-- A command's SEL is legal in its row. -/
theorem Instr.selLegal_sel (i : Instr) : i.op.row.selLegal i.sel = true := by
  rw [OpRow.selLegal_iff]
  cases i
  case fifoPut ch p => exact selOfChan_and_not ch
  case fifoGet ch n => exact selOfChan_and_not ch
  case fifoFlush q => exact selOfQueue_and_not q
  case regRead r => exact (outsideZero_iff 8 r).2 r.isLt
  case regWrite r v => exact (outsideZero_iff 8 r).2 r.isLt
  all_goals exact BitVec.zero_and

/-- A well-formed command's IMM is legal in its row. -/
theorem Instr.immLegal_imm {i : Instr} (h : WellFormed i) : i.op.row.immLegal i.imm = true := by
  rw [OpRow.immLegal_iff]
  cases i
  case crcByte b =>
    refine (highByteZero_iff _).2 ?_
    rw [Instr.imm, BitVec.toNat_setWidth]
    exact lt_of_le_of_lt (Nat.mod_le _ _) b.isLt
  case crcUpdate | crcCompute | crcVerify | crcSeal | fifoPut | syncFeed | fltCheck =>
    exact (highByteZero_iff _).2 (countImm_lt h)
  case fifoGet ch n => exact (outsideZero_iff 16 n).2 n.isLt
  case modeSet m => revert m; decide
  all_goals exact and_not_zero _

/-- A command's operation, on the command's own fields and payload bytes, is the command. -/
@[simp] theorem Instr.instr_op (i : Instr) : i.op.instr i.sel i.imm i.payloadBytes = i := by
  cases i <;> simp [Instr.op, Instr.sel, Instr.imm, Instr.payloadBytes, Instr.payload, Op.instr]

/-- A well-formed command's payload bytes are PLEN of its word (R122). -/
theorem Instr.length_payloadBytes {i : Instr} (h : WellFormed i) : i.payloadBytes.length = plen (encodeWord i) := by
  revert h
  change Laws.PayloadLength.Statement i
  cases i
  case nop => exact Laws.PayloadLength.nop
  case crcInit => exact Laws.PayloadLength.crcInit
  case crcByte b => exact Laws.PayloadLength.crcByte b
  case crcUpdate p => exact Laws.PayloadLength.crcUpdate p
  case crcCompute p => exact Laws.PayloadLength.crcCompute p
  case crcVerify p => exact Laws.PayloadLength.crcVerify p
  case crcSeal p => exact Laws.PayloadLength.crcSeal p
  case fifoPut ch p => exact Laws.PayloadLength.fifoPut ch p
  case fifoGet ch n => exact Laws.PayloadLength.fifoGet ch n
  case fifoFlush q => exact Laws.PayloadLength.fifoFlush q
  case syncFeed p => exact Laws.PayloadLength.syncFeed p
  case syncReset => exact Laws.PayloadLength.syncReset
  case fltCheck p => exact Laws.PayloadLength.fltCheck p
  case fltClear => exact Laws.PayloadLength.fltClear
  case modeSet m => exact Laws.PayloadLength.modeSet m
  case process => exact Laws.PayloadLength.process
  case regRead r => exact Laws.PayloadLength.regRead r
  case regWrite r v => exact Laws.PayloadLength.regWrite r v

/-! ## The decoder's commands have legal fields, and encode to them -/

/-- The operation of a decoded command. -/
@[simp] theorem Op.op_instr (o : Op) (sel : Byte) (imm : Half) (p : List Byte) : (o.instr sel imm p).op = o := by
  cases o <;> rfl

/-- A decoded command's SEL is the one it was decoded from. -/
theorem Op.sel_instr {o : Op} {sel : Byte} (h : o.row.selLegal sel = true) (imm : Half) (p : List Byte) :
    (o.instr sel imm p).sel = sel := by
  rw [OpRow.selLegal_iff] at h
  cases o
  case fifoPut | fifoGet => exact selOfChan_chanOfSel sel h
  case fifoFlush => exact selOfQueue_queueOfSel sel h
  case regRead | regWrite => rfl
  all_goals exact ((and_not_zero sel).symm.trans h).symm

/-- A decoded command is well-formed, and its IMM and its payload bytes are those it was decoded from. -/
theorem Op.imm_payload_instr {o : Op} {imm : Half} {p : List Byte} (sel : Byte) (h : o.row.immLegal imm = true)
    (hp : p.length = plen (mkWord o.row.code sel imm)) :
    WellFormed (o.instr sel imm p) ∧ (o.instr sel imm p).imm = imm ∧ (o.instr sel imm p).payloadBytes = p := by
  rw [OpRow.immLegal_iff] at h
  rw [plen_mkWord] at hp
  have nil : p.length = 0 → p = [] := List.length_eq_zero_iff.1
  cases o
  case crcUpdate | crcCompute | crcVerify | crcSeal | fifoPut | syncFeed | fltCheck =>
    obtain ⟨hw, hc⟩ := countImm_of_length ((highByteZero_iff imm).1 h) hp
    exact ⟨hw, hc, rfl⟩
  case crcByte =>
    exact ⟨Nat.zero_le _, setWidth_extractLsb'_of_lt (k := 8) ((highByteZero_iff imm).1 h), (nil hp).symm⟩
  case modeSet => exact ⟨Nat.zero_le _, setWidth_extractLsb'_of_lt ((outsideZero_iff 2 imm).1 h), (nil hp).symm⟩
  case fifoGet => exact ⟨Nat.zero_le _, rfl, (nil hp).symm⟩
  case regWrite => exact ⟨Nat.zero_le _, ((and_not_zero imm).symm.trans h).symm, wordBytes_valueOfPayload hp⟩
  all_goals exact ⟨Nat.zero_le _, ((and_not_zero imm).symm.trans h).symm, (nil hp).symm⟩

/-! ## The words an operation's row matches -/

/-- Word w has operation o's code, and SEL and IMM legal in o's row (R125). -/
structure Op.Matches (o : Op) (w : Word) : Prop where
  code : o.row.code = opcField w
  sel : o.row.selLegal (selField w) = true
  imm : o.row.immLegal (immField w) = true

/-- A word with an operation's code is that code, its SEL and its IMM. -/
theorem Op.mkWord_of_code {o : Op} {w : Word} (h : o.row.code = opcField w) :
    mkWord o.row.code (selField w) (immField w) = w := by rw [h, mkWord_fields]

/-- A word is a command exactly where an operation's row matches it: that operation's command. -/
theorem decodeWord_eq_instr_iff {w : Word} {p : List Byte} {i : Instr} :
    decodeWord w p = .instr i ↔ ∃ o : Op, o.Matches w ∧ i = o.instr (selField w) (immField w) p := by
  constructor
  · intro h
    cases ho : Op.ofCode (opcField w) with
    | none => simp [decodeWord, ho] at h
    | some o =>
      have hc := Op.code_of_ofCode ho
      rw [← Op.mkWord_of_code hc, decodeWord_mkWord] at h
      split at h
      · split at h
        · injection h with h
          exact ⟨o, ⟨hc, ‹_›, ‹_›⟩, h.symm⟩
        · cases h
      · cases h
  · rintro ⟨o, ⟨hc, hs, hi⟩, rfl⟩
    have h := decodeWord_mkWord o (selField w) (immField w) p
    rwa [Op.mkWord_of_code hc, if_pos hs, if_pos hi] at h

/-- A word with its payload is a command or illegal. -/
theorem decodeWord_ne_notCommand (w : Word) (p : List Byte) (why : NotCommand) : decodeWord w p ≠ .notCommand why := by
  cases ho : Op.ofCode (opcField w) with
  | none => simp [decodeWord, ho]
  | some o =>
    rw [← Op.mkWord_of_code (Op.code_of_ofCode ho), decodeWord_mkWord]
    split
    · split <;> simp
    · simp

/-- A word is a command exactly where some row matches it. -/
theorem exists_decodeWord_eq_instr_iff {w : Word} {p : List Byte} :
    (∃ i, decodeWord w p = .instr i) ↔ ∃ o : Op, o.Matches w := by
  simp only [decodeWord_eq_instr_iff]
  exact ⟨fun ⟨_, o, h, _⟩ => ⟨o, h⟩, fun ⟨o, h⟩ => ⟨_, o, h, rfl⟩⟩

/-- A word is illegal exactly where no row matches it (R127). -/
theorem exists_decodeWord_eq_illegal_iff {w : Word} {p : List Byte} :
    (∃ why, decodeWord w p = .illegal why) ↔ ¬ ∃ o : Op, o.Matches w := by
  rw [← exists_decodeWord_eq_instr_iff (p := p)]
  cases h : decodeWord w p with
  | instr i => simp
  | illegal why => simp
  | notCommand why => exact absurd h (decodeWord_ne_notCommand w p why)

/-- A word with its PLEN(w) payload bytes decodes by the word (R119). -/
theorem decode_serial_of_length {w : Word} {p : List Byte} (h : p.length = plen w) :
    decode (serial w p) = decodeWord w p := by
  rw [decode_serial, decodeCommand, if_neg (not_not_intro h)]

/-- Bytes that decode to a command are a word that an operation's row matches, with its payload. -/
theorem Op.matches_of_decode {bytes : List Byte} {i : Instr} (h : decode bytes = .instr i) :
    ∃ (w : Word) (p : List Byte) (o : Op), bytes = serial w p ∧ p.length = plen w ∧ o.Matches w ∧
      i = o.instr (selField w) (immField w) p := by
  obtain ⟨w, p, hb, hp, hd⟩ := serial_of_decode (bytes := bytes) (by simp [h])
  obtain ⟨o, hm, hi⟩ := decodeWord_eq_instr_iff.1 (hd.symm.trans h)
  exact ⟨w, p, o, hb, hp, hm, hi⟩

/-! ## The opcode table -/

/-- A word masked by a word is its fields masked. -/
theorem mkWord_and (a b : Byte) (c : Half) (a' b' : Byte) (c' : Half) :
    mkWord a b c &&& mkWord a' b' c' = mkWord (a &&& a') (b &&& b') (c &&& c') := by
  calc mkWord a b c &&& mkWord a' b' c'
      = ((a ++ b) &&& (a' ++ b')) ++ (c &&& c') := BitVec.and_append
    _ = mkWord (a &&& a') (b &&& b') (c &&& c') := by rw [BitVec.and_append, mkWord]

theorem mkWord_inj {a b a' b' : Byte} {c c' : Half} : mkWord a b c = mkWord a' b' c' ↔ a = a' ∧ b = b' ∧ c = c' := by
  constructor
  · intro h
    exact ⟨by simpa using congrArg opcField h, by simpa using congrArg selField h, by simpa using congrArg immField h⟩
  · rintro ⟨rfl, rfl, rfl⟩
    rfl

/-- A row of the opcode map in the opcode table's form: the fixed bits' values, and which bits are fixed. -/
def OpRow.matchMask (r : OpRow) : Word × Word :=
  (mkWord r.code 0#8 r.immFixed, mkWord 0xFF#8 (~~~r.selFree) (~~~r.immFree))

/-- A row matches a word in the table's form exactly where it does in the map's. -/
theorem Op.matches_iff {o : Op} {w : Word} :
    o.Matches w ↔ w &&& o.row.matchMask.2 = o.row.matchMask.1 := by
  have hopc : opcField w &&& 0xFF#8 = opcField w := BitVec.and_allOnes
  have hw : w &&& o.row.matchMask.2 =
      mkWord (opcField w) (selField w &&& ~~~o.row.selFree) (immField w &&& ~~~o.row.immFree) := by
    conv_lhs => rw [← mkWord_fields w]
    rw [OpRow.matchMask, mkWord_and, hopc]
  rw [hw, OpRow.matchMask, mkWord_inj, ← OpRow.selLegal_iff, ← OpRow.immLegal_iff]
  exact ⟨fun ⟨hc, hs, hi⟩ => ⟨hc.symm, hs, hi⟩, fun ⟨hc, hs, hi⟩ => ⟨hc.symm, hs, hi⟩⟩

theorem Op.mem_all (o : Op) : o ∈ Op.all := by cases o <;> decide

/-- The opcode table is the opcode map, row by row. -/
theorem opcodeTable_eq : Machine.opcodeTable = Op.all.map fun o => o.row.matchMask := by decide

/-- Whatever holds of every row of the opcode table holds of every operation's row, and the other way round. -/
theorem forall_opcodeTable_iff {P : Word × Word → Prop} :
    (∀ row ∈ Machine.opcodeTable, P row) ↔ ∀ o : Op, P o.row.matchMask := by
  simp [opcodeTable_eq, Op.mem_all]

/-- Some operation's row matches a word exactly where some row of the opcode table does. -/
theorem exists_matches_iff_table {w : Word} :
    (∃ o : Op, o.Matches w) ↔ ∃ row ∈ Machine.opcodeTable, w &&& row.2 = row.1 := by
  simp [opcodeTable_eq, Op.mem_all, Op.matches_iff]

/-- No operation's row matches a word exactly where no row of the opcode table does. -/
theorem not_exists_matches_iff_table {w : Word} :
    (¬ ∃ o : Op, o.Matches w) ↔ ∀ row ∈ Machine.opcodeTable, w &&& row.2 ≠ row.1 := by
  rw [exists_matches_iff_table]
  simp only [not_exists, not_and, ne_eq]

/-- OPC as a number (R121). -/
theorem toNat_opcField (w : Word) : (opcField w).toNat = w.toNat / 2 ^ 24 := by
  have := w.isLt
  simp only [opcField, BitVec.extractLsb'_toNat, Nat.shiftRight_eq_div_pow]
  omega

/-- A word whose OPC no row of the table has, has no payload (R127). -/
theorem plen_of_undefined_opc {w : Word}
    (h : ∀ row ∈ Machine.opcodeTable, w.toNat / 2 ^ 24 ≠ row.1.toNat / 2 ^ 24) : plen w = 0 := by
  rw [forall_opcodeTable_iff] at h
  cases ho : Op.ofCode (opcField w) with
  | none => simp [plen, ho]
  | some o =>
    refine absurd ?_ (h o)
    rw [← toNat_opcField, ← toNat_opcField, OpRow.matchMask, opcField_mkWord, Op.code_of_ofCode ho]

/-! ## Obligations -/

/-- Settles O1: a well-formed command's fields are legal in its operation's row, and its operation on them is the
command. -/
theorem decodeInvertsEncode : Obligations.DecodeInvertsEncode := by
  intro i h
  calc decode (encode i)
      = decodeWord (encodeWord i) i.payloadBytes := decode_serial_of_length (Instr.length_payloadBytes h)
    _ = .instr (i.op.instr i.sel i.imm i.payloadBytes) := by
        rw [encodeWord, decodeWord_mkWord, if_pos (Instr.selLegal_sel i), if_pos (Instr.immLegal_imm h)]
    _ = .instr i := by rw [Instr.instr_op]

/-- Settles O2: the bytes are a word that an operation's row matches, and the operation's command has the word's fields
and payload. -/
theorem encodeInvertsDecode : Obligations.EncodeInvertsDecode := by
  intro bytes i h
  obtain ⟨w, p, o, rfl, hp, hm, rfl⟩ := Op.matches_of_decode h
  have hw := Op.mkWord_of_code hm.code
  obtain ⟨hwf, himm, hpay⟩ := Op.imm_payload_instr (selField w) hm.imm (hw.symm ▸ hp)
  refine ⟨hwf, ?_⟩
  rw [encode, encodeWord, Op.op_instr, Op.sel_instr hm.sel, himm, hpay, hw]

/-- Settles O3: the decoder takes the words the rows of the opcode map match, and the table's rows are those. -/
theorem decoderAgreesWithOpcodeTable : Obligations.DecoderAgreesWithOpcodeTable := by
  intro w p hp
  rw [decode_serial_of_length hp]
  exact ⟨exists_decodeWord_eq_instr_iff.trans exists_matches_iff_table,
    exists_decodeWord_eq_illegal_iff.trans not_exists_matches_iff_table⟩

/-- Settles O4: the decoder evaluated on each word. -/
theorem knownSerialBytesDecode : Obligations.KnownSerialBytesDecode := by
  unfold Obligations.KnownSerialBytesDecode
  decide

end Sys2Proof
end

section
/-! PROOFS. Family 30_encoding.md: what a step does with an offer, by what its bytes decode to (R119, R127, R329). -/

namespace Sys2Proof.Machine

/-! ## A command offered to a block that is not FAULTED -/

section
variable {s : State} {bytes : List Byte} {t : Word} {rest : List Input}

/-- An illegal word is answered IllegalCommand; the offer is taken, the index advances and nothing else changes (R127). -/
theorem step_of_decode_illegal (hf : s.fault = none) (hin : s.inputs = .command bytes t :: rest) {why : Illegal}
    (hd : decode bytes = .illegal why) :
    step s = .next (State.returns { s with inputs := rest, now := t } (Reply.error .illegalCommand)) := by
  rw [step_cons hin, offered, hostStep, if_neg (by simp [hf]), hd]
  exact asCommand_live (s := { s with inputs := rest, now := t }) hf _

/-- Bytes that are no command are refused (U12). -/
theorem step_of_decode_notCommand (hf : s.fault = none) (hin : s.inputs = .command bytes t :: rest) {why : NotCommand}
    (hd : decode bytes = .notCommand why) : step s = .refused .notACommand := by
  rw [step_cons hin]
  simp [offered, hostStep, hf, hd]

end

/-- Settles O5: the step is the host's, which runs the command decoded. -/
theorem stepRunsDecodedCommand : Obligations.StepRunsDecodedCommand := by
  intro s bytes t rest i hf hin hd
  rw [step_cons hin]
  simp [offered, hostStep, hf, hd]

/-- Settles O6: no row of the opcode map matches the word, so it decodes as illegal; an undefined OPC has PLEN 0. -/
theorem illegalWordAnswersIllegalCommand : Obligations.IllegalWordAnswersIllegalCommand := by
  intro s w p t rest hf hin hp hrow
  obtain ⟨why, hd⟩ := exists_decodeWord_eq_illegal_iff (p := p) |>.2 (not_exists_matches_iff_table.2 hrow)
  refine ⟨step_of_decode_illegal hf hin ((decode_serial_of_length hp).trans hd), fun hopc => ?_⟩
  exact List.length_eq_zero_iff.1 (hp.trans (plen_of_undefined_opc hopc))

/-- Settles O7: the decoder reads no command, and the step refuses it. -/
theorem wrongPayloadLengthIsRefused : Obligations.WrongPayloadLengthIsRefused := by
  intro s w p t rest hf hin hp
  exact step_of_decode_notCommand hf hin (by rw [decode_serial, decodeCommand, if_pos hp])

/-! ## Offers that are answered -/

/-- A word with its PLEN(w) payload bytes is answered: by its command, by IllegalCommand, or untaken in FAULTED. -/
theorem hostStep_serial_next {w : Word} {p : List Byte} (hp : p.length = plen w) (t : Word) (s : State) :
    ∃ u, hostStep (serial w p) t s = .next u := by
  unfold hostStep
  split
  · exact ⟨_, rfl⟩
  · next hlive =>
    have hf : s.fault = none := by simpa using hlive
    rw [decode_serial_of_length hp]
    split
    · exact ⟨_, exec_live (s := { s with now := t }) hf _⟩
    · exact ⟨_, asCommand_live (s := { s with now := t }) hf _⟩
    · exact absurd ‹_› (decodeWord_ne_notCommand w p _)

/-- An arriving byte is answered (R226). -/
theorem urxStep_next (n : Chan) (b : Byte) (s : State) : ∃ u, urxStep n b s = .next u := by
  unfold urxStep
  split <;> exact ⟨_, rfl⟩

/-- A transmit event with room for a byte is answered (R227). -/
theorem utxStep_next {k : Nat} (hk : 1 ≤ k) (n : Chan) (j : Nat) (s : State) : ∃ u, utxStep n k j s = .next u := by
  unfold utxStep
  split
  · exact ⟨_, rfl⟩
  · rw [if_neg (by omega)]
    split <;> exact ⟨_, rfl⟩

/-- Settles O9, by the kinds of offer. -/
theorem legalOfferAlwaysSteps : Obligations.LegalOfferAlwaysSteps := by
  intro s o rest hin hlegal
  rw [step_cons hin]
  cases o with
  | command bytes t =>
    obtain ⟨w, p, rfl, hp⟩ := hlegal
    exact hostStep_serial_next hp t _
  | urx n b => exact urxStep_next n b _
  | utx n k j => exact utxStep_next hlegal.1 n j _
  | reset => exact ⟨_, rfl⟩

/-! ## Results (R124) -/

/-- A result with no sequence in it. -/
structure Reply.Plain (r : Reply) : Prop where
  data : r.data = []
  tags : r.tags = []
  frames : r.frames = []

/-- As many entries are popped as asked for. -/
@[simp] theorem RingBuffer.length_popMany {α : Type} [Inhabited α] (cap n : Nat) (r : RingBuffer α) :
    (r.popMany cap n).1.length = n := by
  induction n generalizing r with
  | zero => rfl
  | succ n ih => simp [RingBuffer.popMany, ih]

/-- All that a command's result can hold: no sequence; a sealed frame; a FIFO.GET's entries; or the frames of a drain. -/
theorem effect_reply_cases (i : Instr) (s : State) :
    ((effectOf i s).2.Plain ∧ ∀ p, i = .crcSeal p → (effectOf i s).2.code = .invalidParam) ∨
    (∃ p, i = .crcSeal p ∧ 2 ≤ p.length ∧ p.length ≤ 252 ∧
      (effectOf i s).2 = { Reply.ok (natValue (p.length + 3)) with data := sealFrame p }) ∨
    (∃ ch n k, i = .fifoGet ch n ∧ k ≤ (s.chan ch).rx.ring.count ∧ (effectOf i s).2 = (getEntries ch k s).2) ∨
    (((∃ p, i = .syncFeed p) ∨ i = .process) ∧ ∃ es u,
      (effectOf i s).2 = (returnFrames u (s.sync.drain s.params.syncTimeout s.now es)).2) := by
  cases i
  case crcSeal p =>
    by_cases hp : p.length < 2 ∨ maxFrame < p.length + 3
    · simp only [effectOf, if_pos hp]
      exact .inl ⟨⟨rfl, rfl, rfl⟩, fun _ _ => rfl⟩
    · simp only [effectOf, if_neg hp]
      rw [maxFrame] at hp
      exact .inr (.inl ⟨p, rfl, by omega, by omega, rfl⟩)
  case fifoGet ch n =>
    simp only [effectOf]
    split
    · exact .inl ⟨⟨rfl, rfl, rfl⟩, by simp⟩
    · exact .inr (.inr (.inl ⟨ch, n, _, rfl, Nat.min_le_right _ _, rfl⟩))
  case syncFeed p =>
    simp only [effectOf]
    split
    · exact .inl ⟨⟨rfl, rfl, rfl⟩, by simp⟩
    · exact .inr (.inr (.inr ⟨.inl ⟨p, rfl⟩, _, s, rfl⟩))
  case process =>
    simp only [effectOf]
    split
    · exact .inl ⟨⟨rfl, rfl, rfl⟩, by simp⟩
    · exact .inl ⟨⟨rfl, rfl, rfl⟩, by simp⟩
    · exact .inr (.inr (.inr ⟨.inr trivial, _, _, rfl⟩))
  case fifoPut ch p =>
    left; simp only [effectOf]
    split
    · exact ⟨⟨rfl, rfl, rfl⟩, by simp⟩
    · split <;> exact ⟨⟨rfl, rfl, rfl⟩, by simp⟩
  case fifoFlush | fltCheck | modeSet | regRead | regWrite =>
    left; simp only [effectOf]
    split <;> exact ⟨⟨rfl, rfl, rfl⟩, by simp⟩
  all_goals exact .inl ⟨⟨rfl, rfl, rfl⟩, by simp⟩

/-- A frame sealed around at most 252 bytes is legal (R168, R112). -/
theorem frameLegal_sealFrame {p : List Byte} (h : p.length ≤ 252) : frameLegal (sealFrame p) = true := by
  have hlen : ((sealFrame p).getD 0 0#8).toNat = p.length + 2 := by
    rw [sealFrame_eq, List.cons_append, List.getD_cons_zero, BitVec.toNat_ofNat, Nat.mod_eq_of_lt (by omega)]
  simp only [frameLegal, hlen, length_sealFrame, crcVerify_sealFrame, Bool.and_true, Bool.and_eq_true, decide_eq_true_eq]
  exact ⟨⟨by omega, by omega⟩, trivial⟩

/-- Settles O47, by what a command's result can hold. -/
theorem resultsAreWellFormed : Obligations.ResultsAreWellFormed := by
  intro i s t w h
  obtain ⟨-, rfl⟩ := exec_next h
  refine ⟨_, rfl, ?_⟩
  obtain ⟨⟨hd, ht, hf⟩, hseal⟩ | ⟨p, rfl, h2, h252, hr⟩ | ⟨ch, n, k, rfl, hk, hr⟩ | ⟨hi, es, u, hr⟩ :=
    effect_reply_cases i s
  · rw [hd, ht, hf]
    refine ⟨by simp, by simp, by simp, by simp, by simp, fun p hi hok => ?_⟩
    rw [hseal p hi] at hok
    cases hok
  · rw [hr]
    refine ⟨?_, by simp, fun _ => rfl, fun _ _ => rfl, by simp [Reply.ok], fun _ _ _ => frameLegal_sealFrame h252⟩
    show (sealFrame p).length ≤ 65535
    rw [length_sealFrame]
    omega
  · have hcount := (w.chan ch).rx.count
    have hcap := (Params.Valid.caps_le w.params ch).1
    rw [hr]
    refine ⟨?_, by simp [getEntries], fun hne => absurd rfl (hne ch n), fun _ _ => rfl, by simp [getEntries, Reply.ok],
      by simp⟩
    simp only [getEntries, List.length_map, RingBuffer.length_popMany]
    omega
  · rw [hr]
    refine ⟨Nat.zero_le _, fun _ _ _ => rfl, fun _ => rfl, fun hs hp => ?_, ?_, ?_⟩
    · obtain ⟨p, hi⟩ | hi := hi
      · exact absurd hi (hs p)
      · exact absurd hi hp
    · exact Sync.drain_frames_legal w.sync _ _ es
    · rintro p rfl
      simp at hi

end Sys2Proof.Machine
end

section
/-! PROOFS. The words of the port's commands (30_encoding.md R119-R127): a statement `CommandWord` follows from a row of
the opcode map, which says the word's legal fields, payload length and operation. -/

namespace Sys2Proof

/-- IMM[7:0] as the low byte of IMM (R126). -/
theorem byteOfImm_eq_setWidth (imm : Half) : byteOfImm imm = imm.setWidth 8 := by
  apply BitVec.eq_of_toNat_eq
  rw [byteOfImm, BitVec.extractLsb'_toNat, Nat.shiftRight_zero, BitVec.toNat_setWidth]

/-! ## What a row takes -/

/-- A row with no operand bit in SEL takes SEL = 0 alone (R125). -/
theorem OpRow.selLegal_of_noOperand {r : OpRow} (h : r.selFree = 0#8) (sel : Byte) :
    r.selLegal sel = true ↔ sel = 0#8 := by
  rw [OpRow.selLegal_iff, h, and_not_zero]

/-- A row with no operand bit in IMM takes its fixed IMM alone (R125). -/
theorem OpRow.immLegal_of_noOperand {r : OpRow} (h : r.immFree = 0#16) (imm : Half) :
    r.immLegal imm = true ↔ imm = r.immFixed := by
  rw [OpRow.immLegal_iff, h, and_not_zero]

/-- A row with the operand IMM[7:0] takes the IMM fields below 256 (R125). -/
theorem OpRow.immLegal_of_byteOperand {r : OpRow} (hfree : r.immFree = 0x00FF#16) (hfixed : r.immFixed = 0#16)
    (imm : Half) : r.immLegal imm = true ↔ imm.toNat < 256 := by
  rw [OpRow.immLegal_iff, hfree, hfixed, highByteZero_iff]

/-- A row without payload has PLEN 0 (R122). -/
theorem Op.plen_of_noPayload {o : Op} (h : o.row.payload = .none) (sel : Byte) (imm : Half) :
    plen (mkWord o.row.code sel imm) = Machine.noPayload imm := by
  rw [plen_mkWord, h, Machine.noPayload]

/-- A "P" row has PLEN IMM[7:0] (R122). -/
theorem Op.plen_of_counted {o : Op} (h : o.row.payload = .counted) (sel : Byte) (imm : Half) :
    plen (mkWord o.row.code sel imm) = Machine.countOf imm := by
  rw [plen_mkWord, h, Machine.countOf]

end Sys2Proof

namespace Sys2Proof.Machine

/-! ## A row's command words -/

/-- The words of operation o's code run its commands where the fields are legal in its row, and are answered
IllegalCommand where they are not. -/
theorem commandWord_of_op (o : Op) {len : Half → Nat} {legal : Byte → Half → Prop}
    {cmd : Byte → Half → List Byte → Instr}
    (hlen : ∀ sel imm, plen (mkWord o.row.code sel imm) = len imm)
    (hlegal : ∀ sel imm, legal sel imm ↔ o.row.selLegal sel = true ∧ o.row.immLegal imm = true)
    (hcmd : ∀ sel imm p, legal sel imm → o.instr sel imm p = cmd sel imm p) :
    CommandWord o.row.code len legal cmd := by
  intro s sel imm p t rest hf hin hp
  have hd := (decode_serial_of_length (hp.trans (hlen sel imm).symm)).trans (decodeWord_mkWord o sel imm p)
  refine ⟨fun hl => ?_, fun hl => ?_⟩
  · obtain ⟨hsel, himm⟩ := (hlegal sel imm).1 hl
    rw [if_pos hsel, if_pos himm, hcmd sel imm p hl] at hd
    exact stepRunsDecodedCommand s _ t rest _ hf hin hd
  · rw [hlegal] at hl
    by_cases hsel : o.row.selLegal sel = true
    · rw [if_pos hsel, if_neg fun himm => hl ⟨hsel, himm⟩] at hd
      exact step_of_decode_illegal hf hin hd
    · rw [if_neg hsel] at hd
      exact step_of_decode_illegal hf hin hd

/-- The words of a "P" row whose command takes its payload and no other operand. -/
theorem commandWord_of_payload (o : Op) {c : Byte} {cmd : List Byte → Instr}
    (hrow : o.row = ⟨c, 0x00#8, 0x00FF#16, 0x0000#16, .counted⟩) (hcmd : ∀ sel imm p, o.instr sel imm p = cmd p) :
    CommandWord c countOf selZeroImmByte (fun _ _ p => cmd p) := by
  obtain rfl : o.row.code = c := congrArg OpRow.code hrow
  refine commandWord_of_op o (Op.plen_of_counted (congrArg OpRow.payload hrow)) (fun sel imm => ?_)
    fun sel imm p _ => hcmd sel imm p
  rw [OpRow.selLegal_of_noOperand (congrArg OpRow.selFree hrow),
    OpRow.immLegal_of_byteOperand (congrArg OpRow.immFree hrow) (congrArg OpRow.immFixed hrow), selZeroImmByte]

/-- The words of a row without operand. -/
theorem commandWord_of_noOperand (o : Op) {c : Byte} {cmd : Instr}
    (hrow : o.row = ⟨c, 0x00#8, 0x0000#16, 0x0000#16, .none⟩) (hcmd : ∀ sel imm p, o.instr sel imm p = cmd) :
    CommandWord c noPayload bothZero (fun _ _ _ => cmd) := by
  obtain rfl : o.row.code = c := congrArg OpRow.code hrow
  refine commandWord_of_op o (Op.plen_of_noPayload (congrArg OpRow.payload hrow)) (fun sel imm => ?_)
    fun sel imm p _ => hcmd sel imm p
  rw [OpRow.selLegal_of_noOperand (congrArg OpRow.selFree hrow),
    OpRow.immLegal_of_noOperand (congrArg OpRow.immFree hrow), hrow, bothZero]

end Sys2Proof.Machine
end

section
/-! PROOFS. Family 40_crc.md: the CRC algorithm, the CRC unit's commands, and that no changed byte passes the check. -/

namespace Sys2Proof.Machine

/-! ## The algorithm (R160-R162) -/

/-- A shift, with its low bit read off the register's number (R160). -/
theorem crcShift_eq (c : Half) :
    crcShift c = if c.toNat % 2 = 1 then (c >>> 1) ^^^ 0x8408#16 else c >>> 1 := by
  rw [crcShift, BitVec.getLsbD, Nat.testBit_zero]
  simp only [decide_eq_true_eq]

theorem crcShifts_eq_iterate (n : Nat) (c : Half) : crcShifts n c = crcShift^[n] c := by
  induction n generalizing c with
  | zero => rfl
  | succ n ih => exact ih (crcShift c)

theorem crcVerify_of_short {f : List Byte} (h : f.length < 2) : crcVerify f = false := if_pos h

/-- The check of a sequence with two bytes after it, in numbers (R162). -/
theorem crcVerify_append_iff (s : List Byte) (lo hi : Byte) :
    crcVerify (s ++ [lo, hi]) = true ↔ (crcOf s).toNat = lo.toNat + 256 * hi.toNat := by
  rw [crcVerify_append, beq_iff_eq, ← toNat_leHalf, BitVec.toNat_inj]

/-- Settles O11: the model's shift is the rule's, and its check the one on numbers. -/
theorem crcAlgorithm : Obligations.CrcAlgorithm := by
  refine ⟨fun c b => ?_, rfl, fun s b => crcOf_append s [b], fun f => crcVerify_of_short, crcVerify_append_iff⟩
  rw [crcStep, crcShifts_eq_iterate, funext crcShift_eq]

/-! ## The commands' words and results (R163-R168) -/

/-- CRC.BYTE's words: its operand is IMM[7:0] (R164). -/
theorem crcByte_commandWord :
    CommandWord 0x11#8 noPayload selZeroImmByte (fun _ imm _ => .crcByte (imm.setWidth 8)) := by
  refine commandWord_of_op .crcByte (Op.plen_of_noPayload rfl) (fun sel imm => ?_) fun _ imm _ _ =>
    congrArg Instr.crcByte (byteOfImm_eq_setWidth imm)
  rw [OpRow.selLegal_of_noOperand rfl, OpRow.immLegal_of_byteOperand rfl rfl, selZeroImmByte]

/-- Settles O12: the three rows' words, and the effects of their commands, which write the CRC register alone. -/
theorem crcStreamCommands : Obligations.CrcStreamCommands :=
  ⟨commandWord_of_noOperand .crcInit rfl fun _ _ _ => rfl, crcByte_commandWord,
    commandWord_of_payload .crcUpdate rfl fun _ _ _ => rfl,
    fun _ hf => ⟨exec_live hf .crcInit, fun b => exec_live hf (.crcByte b), fun p => exec_live hf (.crcUpdate p)⟩⟩

/-- Settles O13: the two rows' words, and the effects of their commands, which write nothing. -/
theorem crcPureCommands : Obligations.CrcPureCommands :=
  ⟨commandWord_of_payload .crcCompute rfl fun _ _ _ => rfl, commandWord_of_payload .crcVerify rfl fun _ _ _ => rfl,
    fun _ hf p => ⟨exec_live hf (.crcCompute p), exec_live hf (.crcVerify p)⟩⟩

/-- CRC.SEAL of 2 to 252 bytes returns the sealed frame (R168). -/
theorem exec_crcSeal_of_fits {s : State} {p : List Byte} (hf : s.fault = none) (h2 : 2 ≤ p.length)
    (h252 : p.length ≤ 252) :
    exec (.crcSeal p) s = .next (s.returns { Reply.ok (natValue (p.length + 3)) with data := sealFrame p }) := by
  have hfits : ¬ (p.length < 2 ∨ maxFrame < p.length + 3) := by rw [maxFrame]; omega
  rw [exec_live hf, effectOf, if_neg hfits]

/-- CRC.SEAL of any other number of bytes answers InvalidParam (R168). -/
theorem exec_crcSeal_of_not_fits {s : State} {p : List Byte} (hf : s.fault = none) (h : p.length < 2 ∨ 252 < p.length) :
    exec (.crcSeal p) s = .next (s.returns (Reply.error .invalidParam)) := by
  have hbad : p.length < 2 ∨ maxFrame < p.length + 3 := by rw [maxFrame]; omega
  rw [exec_live hf, effectOf, if_pos hbad]

/-- The Len byte of a sealed frame of at most 252 payload bytes (R168). -/
theorem toNat_sealFrame_len {p : List Byte} (h : p.length ≤ 252) :
    (BitVec.ofNat 8 (p.length + 2)).toNat = p.length + 2 := by
  rw [BitVec.toNat_ofNat, Nat.mod_eq_of_lt (by omega)]

/-- Settles O14: the frame returned is the sealed one, whose last two bytes are the CRC's, low byte first. -/
theorem crcSealBuildsFrame : Obligations.CrcSealBuildsFrame := by
  refine ⟨commandWord_of_payload .crcSeal rfl fun _ _ _ => rfl, fun s p hf => ⟨?_, exec_crcSeal_of_not_fits hf⟩⟩
  rintro ⟨h2, h252⟩
  refine ⟨_, _, _, toNat_sealFrame_len h252, ?_, exec_crcSeal_of_fits hf h2 h252⟩
  rw [← toNat_leHalf, leHalf_bytes]

/-! ## A changed byte fails the check (R169)

A sequence followed by its own CRC leaves the register at zero, and two sequences that differ in one byte never leave it
at the same value; so of the two at most one verifies. -/

/-- Shifts that push out zero bits alone only divide (R160). -/
theorem toNat_crcShifts_of_dvd {n : Nat} {c : Half} (h : 2 ^ n ∣ c.toNat) : (crcShifts n c).toNat = c.toNat / 2 ^ n := by
  induction n generalizing c with
  | zero => rw [crcShifts, Nat.pow_zero, Nat.div_one]
  | succ n ih =>
    have heven : ¬ c.toNat % 2 = 1 := by
      have := (Dvd.intro_left (2 ^ n) rfl).trans h
      omega
    have hshift : (crcShift c).toNat = c.toNat / 2 := by
      rw [crcShift_eq, if_neg heven, BitVec.toNat_ushiftRight, Nat.shiftRight_eq_div_pow, Nat.pow_one]
    rw [crcShifts, ih, hshift, Nat.div_div_eq_div_mul, Nat.pow_succ']
    rw [hshift]
    exact Nat.dvd_div_of_mul_dvd (Nat.pow_succ' ▸ h)

/-- A register that is the byte after it steps to zero. -/
theorem crcStep_self (b : Byte) : crcStep (b.setWidth 16) b = 0#16 := by
  rw [crcStep, BitVec.xor_self]
  rfl

/-- A half-word, exclusive-or its low byte, is its high byte alone, in place. -/
theorem leHalf_xor_low (lo hi : Byte) : leHalf lo hi ^^^ lo.setWidth 16 = hi.setWidth 16 <<< 8 := by
  apply BitVec.eq_of_getLsbD_eq
  intro i hi16
  simp only [leHalf, BitVec.getLsbD_xor, BitVec.getLsbD_or, BitVec.getLsbD_shiftLeft, BitVec.getLsbD_setWidth]
  by_cases h8 : i < 8
  · simp [h8]
  · simp [h8, BitVec.getLsbD_of_ge lo i (by omega)]

/-- A register whose low byte is the byte after it steps to its high byte. -/
theorem crcStep_low (lo hi : Byte) : crcStep (leHalf lo hi) lo = hi.setWidth 16 := by
  have hval : (hi.setWidth 16 <<< 8).toNat = hi.toNat * 2 ^ 8 := by
    have := hi.isLt
    rw [BitVec.toNat_shiftLeft, BitVec.toNat_setWidth, Nat.shiftLeft_eq]
    omega
  have := hi.isLt
  apply BitVec.eq_of_toNat_eq
  rw [crcStep, leHalf_xor_low, toNat_crcShifts_of_dvd (hval ▸ Nat.dvd_mul_left _ _), hval, BitVec.toNat_setWidth]
  omega

/-- The register over the two bytes that it is (R162). -/
theorem crcFold_own_bytes (lo hi : Byte) : crcFold (leHalf lo hi) [lo, hi] = 0#16 := by
  rw [crcFold_cons, crcFold_cons, crcFold_nil, crcStep_low, crcStep_self]

/-- A sequence that verifies leaves the CRC register at zero. -/
theorem crcOf_of_crcVerify {f : List Byte} (h : crcVerify f = true) : crcOf f = 0#16 := by
  have hlen : ¬ f.length < 2 := fun hs => by simp [crcVerify_of_short hs] at h
  have htail : (f.drop (f.length - 2)).length = 2 := by
    rw [List.length_drop]
    omega
  obtain ⟨lo, hi, htail⟩ := List.length_eq_two.1 htail
  rw [← List.take_append_drop (f.length - 2) f, htail] at h ⊢
  rw [crcVerify_append, beq_iff_eq] at h
  rw [crcOf_append, h, crcFold_own_bytes]

section
variable {g : Byte → Byte} (hg : ∀ b, g b ≠ b)
include hg

/-- A changed byte changes the CRC: the register differs after that byte, and no later step loses the difference. -/
theorem crcFold_modify_ne {s : List Byte} {i : Nat} (hi : i < s.length) (c : Half) :
    crcFold c (s.modify i g) ≠ crcFold c s := by
  induction s generalizing i c with
  | nil => cases hi
  | cons b s ih =>
    cases i with
    | zero => exact fun h => hg b (crcStep_injective_byte (crcFold_injective s h))
    | succ i => exact ih (Nat.lt_of_succ_lt_succ hi) (crcStep c b)

/-- A sequence that verifies fails the check with any one byte changed. -/
theorem crcVerify_modify {f : List Byte} (hf : crcVerify f = true) {i : Nat} (hi : i < f.length) :
    crcVerify (f.modify i g) = false := by
  rw [← Bool.not_eq_true]
  exact fun h => crcFold_modify_ne hg hi _ ((crcOf_of_crcVerify h).trans (crcOf_of_crcVerify hf).symm)

end

/-- Inverting a bit of a byte changes it. -/
theorem xor_bit_ne (k : Nat) (b : Byte) : b ^^^ (1#8 <<< (k % 8)) ≠ b := by
  have bit : ∀ j, j < 8 → 1#8 <<< j ≠ 0#8 := by decide
  conv_rhs => rw [← BitVec.xor_zero (x := b)]
  rw [ne_eq, BitVec.xor_right_inj]
  exact bit _ (Nat.mod_lt k (by decide))

/-- A sequence that verifies fails the check with any one bit inverted. -/
theorem crcVerify_flipBit {f : List Byte} (hf : crcVerify f = true) {k : Nat} (hk : k < 8 * f.length) :
    crcVerify (flipBit k f) = false :=
  crcVerify_modify (xor_bit_ne k) hf (by omega)

/-- A sequence with its CRC appended verifies (R169). -/
theorem crcVerify_append_crcBytes (s : List Byte) : crcVerify (s ++ crcBytes (crcOf s)) = true := by
  rw [crcBytes, crcVerify_append, leHalf_bytes, beq_self_eq_true]

/-- Settles O15: both sequences verify, and one that verifies fails with a bit inverted. -/
theorem sealedFrameDetectsAnyBitFlip : Obligations.SealedFrameDetectsAnyBitFlip := by
  refine ⟨fun s p hf h2 h252 => ?_, fun s => ?_⟩
  · have hlen : ((sealFrame p).getD 0 0#8).toNat = (sealFrame p).length - 1 := by
      rw [length_sealFrame]
      exact toNat_sealFrame_len h252
    have hv := crcVerify_sealFrame p
    exact ⟨_, _, exec_crcSeal_of_fits hf h2 h252, rfl, hv, hlen, fun k => crcVerify_flipBit hv⟩
  · have hlen : (s ++ crcBytes (crcOf s)).length = s.length + 2 := List.length_append
    have hv := crcVerify_append_crcBytes s
    exact ⟨hv, fun k hk => crcVerify_flipBit hv (hlen ▸ hk)⟩

/-! ## Streaming (R170) -/

/-- The command of a piece: CRC.BYTE or CRC.UPDATE. -/
abbrev streamCommand : Byte ⊕ List Byte → Instr := Sum.elim Instr.crcByte Instr.crcUpdate

/-- The bytes of a piece. -/
abbrev streamBytes : Byte ⊕ List Byte → List Byte := Sum.elim (fun b => [b]) id

/-- A piece's command runs the CRC register over the piece's bytes. -/
theorem effectOf_streamCommand (x : Byte ⊕ List Byte) (s : State) :
    effectOf (streamCommand x) s = writeCrc s (crcFold s.crc (streamBytes x)) := by
  cases x <;> rfl

/-- A list of commands whose first the block takes goes on with the rest. -/
theorem execAll_cons {i : Instr} {s t : State} (h : exec i s = .next t) (is : List Instr) :
    execAll (i :: is) s = execAll is t := by
  rw [execAll, h]

/-- Pieces run the CRC register over their bytes, from whatever it holds. -/
theorem execAll_streamCommands (pieces : List (Byte ⊕ List Byte)) {s : State} (hf : s.fault = none) :
    ∃ t, execAll (pieces.map streamCommand) s = .next t ∧ t.crc = crcFold s.crc (pieces.map streamBytes).flatten := by
  induction pieces generalizing s with
  | nil => exact ⟨s, rfl, rfl⟩
  | cons x xs ih =>
    have hx := exec_live hf (streamCommand x)
    rw [effectOf_streamCommand] at hx
    obtain ⟨t, ht, hcrc⟩ := ih (s := (writeCrc s (crcFold s.crc (streamBytes x))).1.returns _) hf
    refine ⟨t, (execAll_cons hx _).trans ht, hcrc.trans ?_⟩
    rw [List.map_cons, List.flatten_cons, crcFold_append]
    rfl

/-- Settles O16: CRC.INIT leaves the start value in the register, and the pieces run it over their bytes. -/
theorem streamingEquivalence : Obligations.StreamingEquivalence := by
  intro pieces s hf
  have hinit := exec_live hf .crcInit
  obtain ⟨t, ht, hcrc⟩ := execAll_streamCommands pieces
    (s := (writeCrc s 0xFFFF#16).1.returns (writeCrc s 0xFFFF#16).2) hf
  exact ⟨t, (execAll_cons hinit _).trans ht, hcrc⟩

end Sys2Proof.Machine
end

section
/-! PROOFS. Family 41_sync.md: sync_byte case by case, the commands over it, the delimiting law, and which steps change the
synchronizer. -/

namespace Sys2Proof.Machine

/-! ## sync_byte (R191, R193, R194) -/

/-- The timeout check resets a WaitBody synchronizer at a late byte (R193). -/
theorem Sync.expire_of_late {timeout : Nat} {t : Word} {y : Sync} (hs : y.state = .waitBody)
    (h : timeout < (t - y.last).toNat) : y.expire timeout t = y.reset := if_pos ⟨hs, h⟩

/-- The timeout check leaves a WaitLength synchronizer (R193). -/
theorem Sync.expire_of_waitLength {y : Sync} (hs : y.state = .waitLength) (timeout : Nat) (t : Word) :
    y.expire timeout t = y := if_neg fun h => by simp [hs] at h

/-- The timeout check leaves a synchronizer at a byte within the timeout (R193). -/
theorem Sync.expire_of_inTime {timeout : Nat} {t : Word} {y : Sync} (h : (t - y.last).toNat ≤ timeout) :
    y.expire timeout t = y := if_neg fun hlate => absurd hlate.2 (Nat.not_lt.2 h)

/-- Where the timeout check leaves the synchronizer, sync_byte is its time stamp and its state step (R191). -/
theorem Sync.byte_of_expire_eq {timeout : Nat} {t : Word} {y : Sync} (h : y.expire timeout t = y) (b : Byte) :
    y.byte timeout b t = Sync.accept b { y with last := t } := by rw [Sync.byte, h]

/-- A late byte is read as by a freshly reset synchronizer (R191). -/
theorem Sync.byte_of_late {timeout : Nat} {t : Word} {y : Sync} (hs : y.state = .waitBody)
    (h : timeout < (t - y.last).toNat) (b : Byte) : y.byte timeout b t = y.reset.byte timeout b t := by
  rw [Sync.byte, Sync.expire_of_late hs h, Sync.byte_of_expire_eq (Sync.expire_of_waitLength rfl timeout t)]

section
variable {y : Sync} {b : Byte}

/-- A WaitLength synchronizer takes 1 to 254 as Len (R194). -/
theorem Sync.byte_len (hs : y.state = .waitLength) (h1 : 1 ≤ b.toNat) (h254 : b.toNat ≤ 254) (timeout : Nat) (t : Word) :
    y.byte timeout b t =
      ({ y with last := t, buf := y.buf.set 0 b, expected := b, received := 0#8, state := .waitBody }, none) := by
  have hb : lenAccepted b = true := lenAccepted_iff.2 ⟨h1, h254⟩
  rw [Sync.byte_of_expire_eq (Sync.expire_of_waitLength hs timeout t)]
  simp [Sync.accept, hs, hb]

/-- A WaitLength synchronizer drops 0 and 255 (R194). -/
theorem Sync.byte_dropped (hs : y.state = .waitLength) (h : b = 0#8 ∨ b = 255#8) (timeout : Nat) (t : Word) :
    y.byte timeout b t = ({ y with last := t }, none) := by
  have hb : lenAccepted b = false := lenAccepted_eq_false_iff.2 h
  rw [Sync.byte_of_expire_eq (Sync.expire_of_waitLength hs timeout t)]
  simp [Sync.accept, hs, hb]

variable {timeout : Nat} {t : Word}

/-- A body byte that is not the last is stored (R191). -/
theorem Sync.byte_stored (hs : y.state = .waitBody) (ht : (t - y.last).toNat ≤ timeout)
    (hr : y.received + 1#8 ≠ y.expected) (b : Byte) :
    y.byte timeout b t =
      ({ y with last := t, buf := y.buf.set (1 + y.received.toNat) b, received := y.received + 1#8 }, none) := by
  rw [Sync.byte_of_expire_eq (Sync.expire_of_inTime ht)]
  simp [Sync.accept, hs, hr]

/-- The last body byte completes the frame, and the synchronizer is reset (R191). -/
theorem Sync.byte_completes (hs : y.state = .waitBody) (ht : (t - y.last).toNat ≤ timeout)
    (hr : y.received + 1#8 = y.expected) (b : Byte) :
    y.byte timeout b t =
      ({ y with last := t, buf := y.buf.set (1 + y.received.toNat) b, expected := 0#8, received := 0#8
                state := .waitLength },
       some ((y.buf.set (1 + y.received.toNat) b).take (1 + y.expected.toNat))) := by
  rw [Sync.byte_of_expire_eq (Sync.expire_of_inTime ht)]
  simp [Sync.accept, hs, hr, Sync.reset]

end

/-- Settles O17, a case of sync_byte each. -/
theorem syncByteStep : Obligations.SyncByteStep := fun timeout _ b t =>
  ⟨fun hs hlate => Sync.byte_of_late hs hlate b, fun hs h1 h254 => Sync.byte_len hs h1 h254 timeout t,
    fun hs hb => Sync.byte_dropped hs hb timeout t, fun hs ht hr => Sync.byte_stored hs ht hr b,
    fun hs ht hr => Sync.byte_completes hs ht hr b⟩

/-! ## The commands (R195, R196) -/

/-- Settles O18: the row's words, and the command's effect: outside Inventory a drain of untagged bytes. -/
theorem syncFeedDispatches : Obligations.SyncFeedDispatches := by
  refine ⟨commandWord_of_payload .syncFeed rfl fun _ _ _ => rfl, fun s p hf => ⟨fun hm => ?_, fun hm => ?_⟩⟩
  · rw [exec_live hf, effectOf, if_neg hm, Sync.feed, Sync.drain_eq, Sync.runEntries_plain]
    rfl
  · rw [exec_live hf, effectOf, if_pos hm]
    rfl

/-- Settles O19: the row's words, and the command's effect, sync_reset(). -/
theorem syncResetResyncs : Obligations.SyncResetResyncs :=
  ⟨commandWord_of_noOperand .syncReset rfl fun _ _ _ => rfl, fun _ hf => exec_live hf .syncReset⟩

/-! ## The delimiting law (R200) -/

theorem Sync.run_append (timeout : Nat) (xs zs : List (Byte × Word)) (y : Sync) :
    Sync.run timeout (xs ++ zs) y =
      ((Sync.run timeout zs (Sync.run timeout xs y).1).1,
        (Sync.run timeout xs y).2 ++ (Sync.run timeout zs (Sync.run timeout xs y).1).2) := by
  induction xs generalizing y with
  | nil => rfl
  | cons x xs ih => simp only [List.cons_append, Sync.run, ih, List.append_assoc]

/-- Bytes 0 and 255 leave a WaitLength synchronizer as it is but for its time stamp (R194). -/
theorem Sync.run_dropped (timeout : Nat) {junk : List (Byte × Word)} {y : Sync} (hs : y.state = .waitLength)
    (hj : ∀ b ∈ junk, b.1 = 0#8 ∨ b.1 = 255#8) : ∃ t, Sync.run timeout junk y = ({ y with last := t }, []) := by
  induction junk generalizing y with
  | nil => exact ⟨y.last, rfl⟩
  | cons b junk ih =>
    obtain ⟨hb, hj⟩ := List.forall_mem_cons.1 hj
    obtain ⟨t, ht⟩ := ih (y := { y with last := b.2 }) hs hj
    refine ⟨t, ?_⟩
    rw [Sync.run, Sync.byte_dropped hs hb]
    simp only [ht, Option.toList_none, List.nil_append]

/-- The body bytes still missing, within the timeout, complete the frame at the last of them, and not before. -/
theorem Sync.run_body {timeout : Nat} {body : List (Byte × Word)} {y : Sync} {a : Byte} (w : y.Wf)
    (hs : y.state = .waitBody) (hlen : y.received.toNat + body.length = y.expected.toNat)
    (hsamples : samplesWithin timeout ((a, y.last) :: body)) :
    (Sync.run timeout body.dropLast y).2 = [] ∧
    (Sync.run timeout body y).2 = [y.buf.take (1 + y.received.toNat) ++ body.map Prod.fst] ∧
    (Sync.run timeout body y).1.state = .waitLength := by
  induction body generalizing y a with
  | nil =>
    obtain ⟨-, -, hlt, -⟩ := w.body hs
    exact absurd hlen (Nat.ne_of_lt hlt)
  | cons x rest ih =>
    obtain ⟨htime, hsamples⟩ := hsamples
    have hsucc := Sync.received_succ w hs
    have hheld := Sync.held_store w hs x.1
    rw [List.length_cons] at hlen
    by_cases hrest : rest = []
    · subst hrest
      have hlast : y.received + 1#8 = y.expected := BitVec.eq_of_toNat_eq (hsucc.trans hlen)
      rw [hlast] at hheld
      simp [Sync.run, Sync.byte_completes hs htime hlast, hheld]
    · have hpos : 0 < rest.length := List.length_pos_iff.2 hrest
      have hmore : y.received + 1#8 ≠ y.expected := fun h => by rw [← h] at hlen; omega
      have hbyte := Sync.byte_stored hs htime hmore x.1
      have w' := (Sync.byte_spec w timeout x.1 x.2).1
      rw [hbyte] at w'
      obtain ⟨hnone, hframe, hstate⟩ := ih w' hs (by simp only [hsucc]; omega) (a := x.1) hsamples
      rw [List.dropLast_cons_of_ne_nil hrest]
      simp only [Sync.run, hbyte]
      refine ⟨hnone, ?_, hstate⟩
      rw [hframe, hheld]
      simp

/-- A Len byte and its body, within the timeout, complete the frame at the last byte, and not before. -/
theorem Sync.run_frame {timeout : Nat} {len : Byte × Word} {body : List (Byte × Word)} {y : Sync} (w : y.Wf)
    (hs : y.state = .waitLength) (h1 : 1 ≤ len.1.toNat) (h254 : len.1.toNat ≤ 254) (hbody : body.length = len.1.toNat)
    (hsamples : samplesWithin timeout (len :: body)) :
    (Sync.run timeout (len :: body).dropLast y).2 = [] ∧
    (Sync.run timeout (len :: body) y).2 = [(len :: body).map Prod.fst] ∧
    (Sync.run timeout (len :: body) y).1.state = .waitLength := by
  have hne : body ≠ [] := by
    rintro rfl
    rw [← hbody] at h1
    cases h1
  have hbyte := Sync.byte_len hs h1 h254 timeout len.2
  have w' := (Sync.byte_spec w timeout len.1 len.2).1
  rw [hbyte] at w'
  have hheld : (y.buf.set 0 len.1).take 1 = [len.1] :=
    take_set_succ y.buf 0 len.1 (w.length ▸ Nat.zero_lt_succ 254)
  obtain ⟨hnone, hframe, hstate⟩ := Sync.run_body w' rfl (by simpa using hbody) (a := len.1) hsamples
  rw [List.dropLast_cons_of_ne_nil hne]
  simp only [Sync.run, hbyte]
  refine ⟨hnone, ?_, hstate⟩
  rw [hframe]
  simp [hheld]

/-- Settles O20: the bytes before the frame leave the synchronizer in WaitLength, and from there its bytes are the frame. -/
theorem synchronizerDelimitsFrame : Obligations.SynchronizerDelimitsFrame := by
  intro timeout y junk frame w hs hj h1 h254 hlen hsamples
  obtain ⟨t, hjunk⟩ := Sync.run_dropped timeout hs hj
  cases frame with
  | nil => cases hlen
  | cons len body =>
    have wt : ({ y with last := t } : Sync).Wf := Sync.wf_stamp w t _ _
    simp only [Sync.run_append, hjunk, List.nil_append]
    exact Sync.run_frame wt hs h1 h254 (Nat.succ.inj hlen) hsamples

/-! ## Which steps change the synchronizer (R199, R359) -/

/-- Settles O21: of the commands only the four named change it, and of the agents only RESET. -/
theorem onlyTheseStepsChangeSynchronizer : Obligations.OnlyTheseStepsChangeSynchronizer := by
  intro s t h hne
  obtain e | ⟨i, u, hi, hu, e⟩ | ⟨n, _, _, -, e⟩ | ⟨n, _, _, _, -, e⟩ | ⟨rest, hin, -⟩ := step_units h
  · exact absurd e.sync hne
  · rw [← hu.mode]
    obtain hk | ⟨p, rfl, hm, -⟩ | ⟨rfl, -⟩ | ⟨m, rfl, hm, -⟩ | ⟨rfl, hm, -⟩ := effect_sync i u
    · exact absurd (e.sync.trans (hk.trans hu.sync)) hne
    · exact .inr (.inl ⟨p, hi, hm⟩)
    · exact .inr (.inr (.inl hi))
    · exact .inr (.inr (.inr (.inr ⟨m, hi, hm⟩)))
    · exact .inr (.inr (.inr (.inl ⟨hi, hm⟩)))
  · exact absurd (e.sync.trans (State.setChan_sync s n _)) hne
  · exact absurd (e.sync.trans (State.setChan_sync s n _)) hne
  · exact .inl ⟨rest, hin⟩

end Sys2Proof.Machine
end

section
/-! PROOFS. The words of the commands whose SEL names a channel or a queue (30_encoding.md R125, R126). -/

namespace Sys2Proof

/-- A row whose operand bits in SEL are the low k takes the SEL fields below 2^k (R125). -/
theorem OpRow.selLegal_of_lowBits {r : OpRow} (k : Nat) (h : r.selFree = BitVec.ofNat 8 (2 ^ k - 1)) (sel : Byte) :
    r.selLegal sel = true ↔ sel.toNat < 2 ^ k := by
  rw [OpRow.selLegal_iff, h, outsideZero_iff]

/-- A row with the operand IMM[15:0] takes every IMM (R125). -/
theorem OpRow.immLegal_of_allOperand {r : OpRow} (hfree : r.immFree = 0xFFFF#16) (hfixed : r.immFixed = 0#16)
    (imm : Half) : r.immLegal imm = true := by
  rw [OpRow.immLegal_iff, hfree, hfixed]
  exact (outsideZero_iff 16 imm).2 imm.isLt

/-- The channel a one-bit SEL says is the one of its number (R126). -/
theorem chanOfSel_eq_chanNumbered : ∀ sel : Byte, sel.toNat < 2 → chanOfSel sel = Machine.chanNumbered sel := by decide

/-- The queue a two-bit SEL says is the one of its number (R126). -/
theorem queueOfSel_eq_queueNumbered : ∀ sel : Byte, sel.toNat < 4 → queueOfSel sel = Machine.queueNumbered sel := by
  decide

end Sys2Proof

namespace Sys2Proof.Machine

/-- FIFO.PUT's words: the channel in SEL[0], the payload's length in IMM[7:0] (R229). -/
theorem fifoPut_commandWord :
    CommandWord 0x20#8 countOf (fun sel imm => sel.toNat < 2 ∧ imm.toNat < 256)
      (fun sel _ p => .fifoPut (chanNumbered sel) p) := by
  refine commandWord_of_op .fifoPut (Op.plen_of_counted rfl) (fun sel imm => ?_) fun sel _ p hl =>
    congrArg (Instr.fifoPut · p) (chanOfSel_eq_chanNumbered sel hl.1)
  rw [OpRow.selLegal_of_lowBits 1 rfl, OpRow.immLegal_of_byteOperand rfl rfl, pow_one]

/-- FIFO.GET's words: the channel in SEL[0], the number of entries in IMM (R230). -/
theorem fifoGet_commandWord :
    CommandWord 0x21#8 noPayload (fun sel _ => sel.toNat < 2) (fun sel imm _ => .fifoGet (chanNumbered sel) imm) := by
  refine commandWord_of_op .fifoGet (Op.plen_of_noPayload rfl) (fun sel imm => ?_) fun sel imm _ hl =>
    congrArg (Instr.fifoGet · imm) (chanOfSel_eq_chanNumbered sel hl)
  rw [OpRow.selLegal_of_lowBits 1 rfl, pow_one, and_iff_left (OpRow.immLegal_of_allOperand rfl rfl imm)]

/-- FIFO.FLUSH's words: the queue in SEL[1:0] (R231). -/
theorem fifoFlush_commandWord :
    CommandWord 0x22#8 noPayload (fun sel imm => sel.toNat < 4 ∧ imm = 0#16)
      (fun sel _ _ => .fifoFlush (queueNumbered sel)) := by
  refine commandWord_of_op .fifoFlush (Op.plen_of_noPayload rfl) (fun sel imm => ?_) fun sel _ _ hl =>
    congrArg Instr.fifoFlush (queueOfSel_eq_queueNumbered sel hl.1)
  rw [OpRow.selLegal_of_lowBits 2 rfl, OpRow.immLegal_of_noOperand rfl]
  rfl

end Sys2Proof.Machine
end

section
/-! PROOFS. Family 42_fifo.md: the agents and the commands of the FIFO unit, and the order in which bytes pass the queues. -/

namespace Sys2Proof.Machine

/-! ## Queue contents -/

/-- As many entries popped as there are, up to n: the oldest n, where the others stay (R230). -/
theorem RingBuffer.popMany_min {α : Type} [Inhabited α] {cap : Nat} {r : RingBuffer α} (w : r.Wf cap) (n : Nat) :
    (r.popMany cap (min n r.count)).1 = (r.contents cap).take n ∧
      (r.popMany cap (min n r.count)).2.contents cap = (r.contents cap).drop n := by
  obtain ⟨htaken, hleft, -⟩ := RingBuffer.popMany_spec w (Nat.min_le_right n r.count)
  rw [htaken, hleft]
  exact ⟨List.take_eq_take_iff.2 (by simp), List.drop_eq_drop_iff.2 (by simp)⟩

@[simp] theorem State.length_rxContents (s : State) (n : Chan) : (s.rxContents n).length = (s.chan n).rx.ring.count :=
  RingBuffer.length_contents _ _

@[simp] theorem State.length_txContents (s : State) (n : Chan) : (s.txContents n).length = (s.chan n).tx.ring.count :=
  RingBuffer.length_contents _ _

/-- The offers are no part of a channel. -/
theorem State.chan_withInputs (s : State) (rest : List Input) (n : Chan) :
    ({ s with inputs := rest } : State).chan n = s.chan n := (State.SameUnits.own s _ _ _ _ rest).chan n

theorem State.SameUnits.rxContents {s t : State} (h : s.SameUnits t) (n : Chan) : t.rxContents n = s.rxContents n :=
  State.rxContents_of_chan h.params (h.chan n)

theorem State.SameUnits.txContents {s t : State} (h : s.SameUnits t) (n : Chan) : t.txContents n = s.txContents n :=
  State.txContents_of_chan h.params (h.chan n)

/-! ## The agents' steps (R224, R226, R227) -/

/-- A byte for a full RX queue is dropped and counted (R226). -/
theorem Channel.receive_of_full {cap : Nat} {c : Channel} (h : c.rx.ring.count = cap) (b : Byte) :
    c.receive cap b = { c with ovr := c.ovr + 1#32, rx := { c.rx with gapPending := true } } := if_pos h

/-- A byte for an RX queue with room is stored at its end, with the tag due (R226). -/
theorem Channel.receive_of_room {cap : Nat} {c : Channel} (w : c.rx.ring.Wf cap) (h : c.rx.ring.count < cap) (b : Byte) :
    ∃ r : RingBuffer RxEntry, c.receive cap b = { c with rx := { ring := r, gapPending := false } } ∧
      r.contents cap = c.rx.ring.contents cap ++ [{ byte := b, gap := c.rx.gapPending }] :=
  ⟨_, if_neg (Nat.ne_of_lt h), RingBuffer.contents_push w h _⟩

section
variable {s : State} {n : Chan} {rest : List Input}

/-- A byte for an enabled channel is received (R226). -/
theorem step_urx_live {b : Byte} (hin : s.inputs = .urx n b :: rest) (hf : s.fault = none)
    (hrx : (s.chan n).rxie = true) :
    step s = .next ({ s with inputs := rest }.setChan n ((s.chan n).receive (rxCap s.params n) b)) := by
  have hon : ¬ (s.fault.isSome || !(s.chan n).rxie) = true := by simp [hf, hrx]
  rw [step_cons hin, offered, urxStep, State.chan_withInputs, if_neg hon]

/-- A byte for a disabled channel or a FAULTED block is withdrawn (log 5). -/
theorem step_urx_withdrawn {b : Byte} (hin : s.inputs = .urx n b :: rest)
    (h : s.fault ≠ none ∨ (s.chan n).rxie = false) : step s = .next { s with inputs := rest } := by
  have hoff : (s.fault.isSome || !(s.chan n).rxie) = true := by
    simpa [Option.isSome_iff_ne_none] using h
  rw [step_cons hin, offered, urxStep, State.chan_withInputs, if_pos hoff]

/-- A transmit-ready event of an enabled channel within its claim sends (R227). -/
theorem step_utx_sends {k j : Nat} {c : Channel} (hin : s.inputs = .utx n k j :: rest) (hf : s.fault = none)
    (htx : (s.chan n).txie = true) (hk : 1 ≤ k) (hc : (s.chan n).transmit (txCap s.params n) k j = some c) :
    step s = .next ({ s with inputs := rest }.setChan n c) := by
  have hon : ¬ (s.fault.isSome || !(s.chan n).txie) = true := by simp [hf, htx]
  rw [step_cons hin, offered, utxStep, State.chan_withInputs, if_neg hon, if_neg (Nat.ne_of_gt hk), hc]

/-- A transmit-ready event of an enabled channel past its claim enters FAULTED (R224, U3). -/
theorem step_utx_faults {k j : Nat} (hin : s.inputs = .utx n k j :: rest) (hf : s.fault = none)
    (htx : (s.chan n).txie = true) (hk : 1 ≤ k) (hj : min k (s.chan n).tx.ring.count < j) :
    step s = .next (State.enterFaulted .commitBeyondClaim { s with inputs := rest }) := by
  have hon : ¬ (s.fault.isSome || !(s.chan n).txie) = true := by simp [hf, htx]
  rw [step_cons hin, offered, utxStep, State.chan_withInputs, if_neg hon, if_neg (Nat.ne_of_gt hk),
    Channel.transmit_none.2 hj]

/-- A transmit-ready event of a disabled channel or a FAULTED block is withdrawn (log 5). -/
theorem step_utx_withdrawn {k j : Nat} (hin : s.inputs = .utx n k j :: rest)
    (h : s.fault ≠ none ∨ (s.chan n).txie = false) : step s = .next { s with inputs := rest } := by
  have hoff : (s.fault.isSome || !(s.chan n).txie) = true := by
    simpa [Option.isSome_iff_ne_none] using h
  rw [step_cons hin, offered, utxStep, State.chan_withInputs, if_pos hoff]

end

/-- Settles O22, by whether the byte is taken and whether the queue has room for it. -/
theorem urxStoresOrCountsByte : Obligations.UrxStoresOrCountsByte := by
  intro s n b rest w hin
  refine ⟨fun hf hrx hroom => ?_, fun hf hrx hfull => ?_, step_urx_withdrawn hin⟩
  · rw [State.length_rxContents] at hroom
    obtain ⟨r, hr, hc⟩ := Channel.receive_of_room (w.chan n).rx hroom b
    exact ⟨r, by rw [step_urx_live hin hf hrx, hr], hc⟩
  · rw [State.length_rxContents] at hfull
    rw [step_urx_live hin hf hrx, Channel.receive_of_full hfull]

/-- Settles O23: within the claim the event is `Channel.transmit`, and TXIE stays set where a byte is left. -/
theorem utxSendsOldestBytes : Obligations.UtxSendsOldestBytes := by
  intro s n k j rest w hin
  refine ⟨fun hf htx hk hj => ?_, step_utx_withdrawn hin⟩
  rw [State.length_txContents] at hj ⊢
  obtain ⟨r, hr, hc, -, hcount⟩ := Channel.transmit_spec (w.chan n) hj
  have hleft : ((s.chan n).txie && !(r.count == 0)) = decide (j < (s.chan n).tx.ring.count) := by
    rw [htx, hcount, Bool.eq_iff_iff]
    simp only [Bool.true_and, Bool.not_eq_true', beq_eq_false_iff_ne, decide_eq_true_eq]
    omega
  exact ⟨r, by rw [step_utx_sends hin hf htx hk hr, hleft]; rfl, hc⟩

/-- Settles O24: past the claim there is no transmission, and the step enters the FAULTED condition. -/
theorem commitBeyondClaimFaults : Obligations.CommitBeyondClaimFaults := by
  intro s n k j rest hin hf htx hk hj
  exact step_utx_faults hin hf htx hk hj

/-! ## The commands (R229-R231) -/

/-- A command that replaced a channel returns its result. -/
theorem State.returns_setChan (s : State) (n : Chan) (c : Channel) (r : Reply) :
    (s.setChan n c).returns r = { s.setChan n c with reply := some r, cmdIndex := s.cmdIndex + 1 } := by
  rw [State.returns_eq, State.setChan_cmdIndex]

/-- Settles O25: the row's words, and the command's effect by the mode and the room. -/
theorem fifoPutAllOrNothing : Obligations.FifoPutAllOrNothing := by
  refine ⟨fifoPut_commandWord, fun s ch p w hf => ⟨fun hm => ?_, fun hm hfits => ?_, fun hm hfull => ?_⟩⟩
  · rw [exec_live hf, effectOf, if_pos hm]
    rfl
  · rw [State.length_txContents] at hfits
    have hroom : ¬ (s.chan ch).tx.ring.free (txCap s.params ch) < p.length := by rw [RingBuffer.free]; omega
    obtain ⟨hc, -⟩ := RingBuffer.pushMany_spec (w.chan ch).tx hfits
    have hne : decide (0 < p.length) = !p.isEmpty := by cases p <;> rfl
    refine ⟨_, ?_, hc⟩
    rw [exec_live hf, effectOf, if_neg hm, if_neg hroom, putBytes_eq, hne, State.returns_setChan]
    rfl
  · rw [State.length_txContents] at hfull ⊢
    have hcount := (w.chan ch).tx.count
    have hroom : (s.chan ch).tx.ring.free (txCap s.params ch) < p.length := by rw [RingBuffer.free]; omega
    rw [exec_live hf, effectOf, if_neg hm, if_pos hroom, State.returns_setChan]
    rfl

/-- PROCESS owns both RX queues in Bypass and RX0 in Inventory (R230, R232). -/
theorem rxOwnedByProcess_iff {m : Mode} {ch : Chan} :
    rxOwnedByProcess m ch = true ↔ m = .bypass ∨ (m = .inventory ∧ ch = .ch0) := by
  simp [rxOwnedByProcess]

/-- Settles O26: the row's words, and the command's effect by whether PROCESS owns the queue. -/
theorem fifoGetTakesOldest : Obligations.FifoGetTakesOldest := by
  refine ⟨fifoGet_commandWord, fun s ch n w hf => ⟨fun hm => ?_, fun hm => ?_⟩⟩
  · rw [exec_live hf, effectOf, if_pos (rxOwnedByProcess_iff.2 hm)]
    rfl
  · have hfree : ¬ rxOwnedByProcess s.mode ch = true := by
      rw [rxOwnedByProcess_iff]
      rintro (h | ⟨h, rfl⟩) <;> simp [h] at hm
    obtain ⟨htaken, hleft⟩ := RingBuffer.popMany_min (w.chan ch).rx n.toNat
    refine ⟨_, ?_, hleft⟩
    rw [exec_live hf, effectOf, if_neg hfree, getEntries, State.returns_setChan, htaken, State.length_rxContents]
    rfl

/-- RX(n) by its number. -/
def rxQueueOf (n : Chan) : QueueSel := if n = .ch0 then .rx0 else .rx1

/-- TX(n) by its number. -/
def txQueueOf (n : Chan) : QueueSel := if n = .ch0 then .tx0 else .tx1

theorem queueLive_rxQueueOf (s : State) (n : Chan) : queueLive s (rxQueueOf n) = (s.chan n).rxie := by cases n <;> rfl

theorem queueLive_txQueueOf (s : State) (n : Chan) : queueLive s (txQueueOf n) = (s.chan n).txie := by cases n <;> rfl

theorem flushQueue_rxQueueOf (s : State) (n : Chan) :
    flushQueue s (rxQueueOf n) = s.setChan n { s.chan n with rx := (s.chan n).rx.flush } := by cases n <;> rfl

theorem flushQueue_txQueueOf (s : State) (n : Chan) :
    flushQueue s (txQueueOf n) = s.setChan n { s.chan n with tx := (s.chan n).tx.flush } := by cases n <;> rfl

/-- FIFO.FLUSH of a live queue is the hazard (R231, R324). -/
theorem exec_fifoFlush_live {s : State} {q : QueueSel} (hf : s.fault = none) (h : queueLive s q = true) :
    exec (.fifoFlush q) s = .next { s with
      fault := some .hazardFlushLive, reply := some (Reply.error .hazardFault), cmdIndex := s.cmdIndex + 1 } := by
  rw [exec_live hf, effectOf, if_pos h]
  rfl

/-- FIFO.FLUSH of a paused queue empties it (R231, R222). -/
theorem exec_fifoFlush_paused {s : State} {q : QueueSel} (hf : s.fault = none) (h : queueLive s q = false) :
    exec (.fifoFlush q) s = .next ((flushQueue s q).returns (Reply.ok 0#32)) := by
  rw [exec_live hf, effectOf, if_neg (Bool.eq_false_iff.1 h)]

/-- Settles O27: the row's words, and the command's effect by the queue's side and whether its agent is live. -/
theorem fifoFlushOrHazard : Obligations.FifoFlushOrHazard := by
  refine ⟨fifoFlush_commandWord, fun s n hf => ⟨fun hrx => ?_, fun htx => ?_, fun hrx => ?_, fun htx => ?_⟩⟩
  · exact exec_fifoFlush_live hf ((queueLive_rxQueueOf s n).trans hrx)
  · exact exec_fifoFlush_live hf ((queueLive_txQueueOf s n).trans htx)
  · refine ⟨(s.chan n).rx.ring.flush, RingBuffer.contents_flush _ _, rfl, rfl, rfl, ?_⟩
    refine (exec_fifoFlush_paused hf ((queueLive_rxQueueOf s n).trans hrx)).trans ?_
    rw [flushQueue_rxQueueOf, State.returns_setChan]
    rfl
  · refine ⟨(s.chan n).tx.ring.flush, RingBuffer.contents_flush _ _, rfl, rfl, rfl, ?_⟩
    refine (exec_fifoFlush_paused hf ((queueLive_txQueueOf s n).trans htx)).trans ?_
    rw [flushQueue_txQueueOf, State.returns_setChan]
    rfl

/-! ## What a command can do to one side of a channel -/

theorem effect_rxContents_eq (i : Instr) (s : State) (n : Chan) :
    (effectOf i s).1.rxContents n = ((effectOf i s).1.chan n).rx.ring.contents (rxCap s.params n) := by
  rw [State.rxContents, (effect_frame i s).1]

theorem effect_txContents_eq (i : Instr) (s : State) (n : Chan) :
    (effectOf i s).1.txContents n = ((effectOf i s).1.chan n).tx.ring.contents (txCap s.params n) := by
  rw [State.txContents, (effect_frame i s).1]

/-- A list kept is a list with nothing appended. -/
theorem exists_append_nil {α : Type} {xs ys : List α} {P : List α → Prop} (h : xs = ys) :
    ∃ added, xs = ys ++ added ∧ (added ≠ [] → P added) :=
  ⟨[], by rw [h, List.append_nil], fun hne => absurd rfl hne⟩

/-- All that a command can do to TX(n) and wire_n: bytes pushed at the queue's end, or the queue emptied (R233 (b)). -/
theorem effect_tx {s : State} (w : s.Inv) (i : Instr) (n : Chan) :
    ((effectOf i s).1.chan n).wire = (s.chan n).wire ∧
    ((∃ pushed, (effectOf i s).1.txContents n = s.txContents n ++ pushed ∧
        (pushed ≠ [] → i = .fifoPut n pushed ∨ (i = .process ∧ s.mode = .bypass))) ∨
      ((effectOf i s).1.txContents n = [] ∧ ((∃ q, i = .fifoFlush q) ∨ ∃ m, i = .modeSet m))) := by
  rw [effect_txContents_eq]
  obtain h | ⟨_, -, h⟩ | ⟨p, _, hi, h, hr, -⟩ | ⟨_, _, _, -, h, -⟩ | ⟨_, -, -, h⟩ | ⟨q, hi, -, h⟩ | ⟨m, hi, -, h⟩ |
    ⟨hi, hm, _, _, _, _, added, h, -, ht, -⟩ | ⟨-, -, _, _, h, -⟩ | ⟨_, -, h⟩ := effect_chan w i n <;> rw [h]
  · exact ⟨rfl, .inl (exists_append_nil rfl)⟩
  · exact ⟨rfl, .inl (exists_append_nil rfl)⟩
  · exact ⟨rfl, .inl ⟨p, hr, fun _ => .inl hi⟩⟩
  · exact ⟨rfl, .inl (exists_append_nil rfl)⟩
  · exact ⟨rfl, .inl (exists_append_nil rfl)⟩
  · exact ⟨rfl, .inr ⟨rfl, .inl ⟨q, hi⟩⟩⟩
  · exact ⟨rfl, .inr ⟨rfl, .inr ⟨m, hi⟩⟩⟩
  · exact ⟨rfl, .inl ⟨added, ht, fun _ => .inr ⟨hi, hm⟩⟩⟩
  · exact ⟨rfl, .inl (exists_append_nil rfl)⟩
  · exact ⟨rfl, .inl (exists_append_nil rfl)⟩

/-- All that a command can do to RX(n): entries taken from its front, gap_pending kept, or both cleared (R233 (c)). -/
theorem effect_rx {s : State} (w : s.Inv) (i : Instr) (n : Chan) :
    (∃ k, (effectOf i s).1.rxContents n = (s.rxContents n).drop k ∧
      ((effectOf i s).1.chan n).rx.gapPending = (s.chan n).rx.gapPending ∧
      (k = 0 ∨ (∃ m, i = .fifoGet n m) ∨ (i = .process ∧ s.mode ≠ .idle))) ∨
    ((effectOf i s).1.rxContents n = [] ∧ ((effectOf i s).1.chan n).rx.gapPending = false ∧
      ((∃ q, i = .fifoFlush q) ∨ ∃ m, i = .modeSet m)) := by
  rw [effect_rxContents_eq]
  obtain h | ⟨_, -, h⟩ | ⟨_, _, -, h, -⟩ | ⟨m, k, _, hi, h, hr, -⟩ | ⟨q, hi, -, h⟩ | ⟨_, -, -, h⟩ | ⟨m, hi, -, h⟩ |
    ⟨hi, hm, k, _, _, _, _, h, hr, -⟩ | ⟨hi, hm, k, _, h, hr, -⟩ | ⟨_, -, h⟩ := effect_chan w i n <;> rw [h]
  · exact .inl ⟨0, rfl, rfl, .inl rfl⟩
  · exact .inl ⟨0, rfl, rfl, .inl rfl⟩
  · exact .inl ⟨0, rfl, rfl, .inl rfl⟩
  · exact .inl ⟨k, hr, rfl, .inr (.inl ⟨m, hi⟩)⟩
  · exact .inr ⟨rfl, rfl, .inl ⟨q, hi⟩⟩
  · exact .inl ⟨0, rfl, rfl, .inl rfl⟩
  · exact .inr ⟨rfl, rfl, .inr ⟨m, hi⟩⟩
  · exact .inl ⟨k, hr, rfl, .inr (.inr ⟨hi, by simp [hm]⟩)⟩
  · exact .inl ⟨k, hr, rfl, .inr (.inr ⟨hi, by simp [hm]⟩)⟩
  · exact .inl ⟨0, rfl, rfl, .inl rfl⟩

/-- A command clears TXIEn only by MODE.SET's pause of channel n or a write of IRQEN with its bit clear (R228). -/
theorem effect_txie_cleared {s : State} (w : s.Inv) (i : Instr) (n : Chan) :
    (s.chan n).txie = true → ((effectOf i s).1.chan n).txie = false →
    (∃ m, i = .modeSet m ∧ bracketed s.mode (effectOf i s).1.mode n) ∨
    ∃ v, i = .regWrite 0x01#8 v ∧ v.getLsbD (match n with | .ch0 => 1 | .ch1 => 3) = false := by
  intro hset hclear
  obtain h | ⟨_, -, h⟩ | ⟨_, _, -, h, -⟩ | ⟨_, _, _, -, h, -⟩ | ⟨_, -, -, h⟩ | ⟨_, -, -, h⟩ | ⟨m, hi, hb, -⟩ |
    ⟨-, -, _, _, _, _, _, h, -⟩ | ⟨-, -, _, _, h, -⟩ | ⟨v, hi, h⟩ := effect_chan w i n
  · simp [h, hset] at hclear
  · simp [h, hset] at hclear
  · simp [h, hset] at hclear
  · simp [h, hset] at hclear
  · simp [h, hset] at hclear
  · simp [h, hset] at hclear
  · exact .inl ⟨m, hi, hb⟩
  · simp [h, hset] at hclear
  · simp [h, hset] at hclear
  · rw [h] at hclear
    exact .inr ⟨v, hi, hclear⟩

/-! ## What a step can do to a channel -/

/-- What a step that answers a next state does to channel n, by the agent that took it: nothing; a command's effect; a
byte received; bytes sent; RESET (R329). -/
theorem step_chan {s t : State} (h : step s = .next t) (n : Chan) :
    t.chan n = s.chan n ∨
    (∃ i u, s.takes = some i ∧ s.SameUnits u ∧ (effectOf i u).1.SameUnits t) ∨
    (∃ b rest, s.inputs = .urx n b :: rest ∧ t.chan n = (s.chan n).receive (rxCap s.params n) b) ∨
    (∃ k j rest, s.inputs = .utx n k j :: rest ∧ (s.chan n).transmit (txCap s.params n) k j = some (t.chan n)) ∨
    ∃ rest, s.inputs = .reset :: rest ∧ t.chan n = (s.chan n).reset := by
  have other : ∀ (rest : List Input) (m : Chan) (c : Channel), n ≠ m →
      (({ s with inputs := rest } : State).setChan m c).chan n = s.chan n := fun rest m c hne =>
    (State.chan_setChan_ne _ hne c).trans (State.chan_withInputs s rest n)
  obtain ⟨-, rfl⟩ | ⟨o, rest, hin, hstep⟩ := step_cases h
  · exact .inl rfl
  obtain ⟨rfl, -⟩ | ⟨_, now, i, -, -, -, hi, rfl⟩ | ⟨_, _, -, -, -, rfl⟩ | ⟨m, b, rfl, -, -, -, rfl⟩ |
    ⟨m, k, j, c, rfl, -, -, -, -, hc, rfl⟩ | ⟨_, _, _, -, -, -, -, -, -, rfl⟩ | ⟨rfl, -, rfl⟩ := hstep
  · exact .inl (State.chan_withInputs s rest n)
  · exact .inr (.inl ⟨i, { s with inputs := rest, now := now }, hi, .own s _ _ _ _ _, .own _ _ _ _ _ _⟩)
  · exact .inl ((State.SameUnits.own s _ _ _ _ _).chan n)
  · by_cases hn : n = m
    · subst hn
      exact .inr (.inr (.inl ⟨b, rest, hin, State.chan_setChan_self _ _ _⟩))
    · exact .inl (other rest m _ hn)
  · by_cases hn : n = m
    · subst hn
      exact .inr (.inr (.inr (.inl ⟨k, j, rest, hin, by rw [State.chan_setChan_self, hc]⟩)))
    · exact .inl (other rest m _ hn)
  · exact .inl ((State.SameUnits.own s _ _ _ _ _).chan n)
  · exact .inr (.inr (.inr (.inr ⟨rest, hin, by cases n <;> rfl⟩)))

/-! ## The order of bytes (R233) -/

/-- A byte received leaves the TX side of its channel (R226). -/
theorem Channel.receive_tx (cap : Nat) (b : Byte) (c : Channel) :
    (c.receive cap b).tx = c.tx ∧ (c.receive cap b).wire = c.wire ∧ (c.receive cap b).txie = c.txie := by
  unfold Channel.receive
  split <;> exact ⟨rfl, rfl, rfl⟩

/-- A transmit event leaves the RX side of its channel (R227). -/
theorem Channel.transmit_rx {cap k j : Nat} {c d : Channel} (h : c.transmit cap k j = some d) : d.rx = c.rx := by
  simp only [Channel.transmit, Option.map_eq_some_iff] at h
  obtain ⟨q, -, rfl⟩ := h
  rfl

/-- A transmit event moves bytes from the queue's front to the wire's end, and clears TXIE only with none left (R227). -/
theorem Channel.transmit_tx {a b k j : Nat} {c d : Channel} (w : c.Wf a b) (h : c.transmit b k j = some d) :
    d.wire ++ d.tx.ring.contents b = c.wire ++ c.tx.ring.contents b ∧
    (c.txie = true → d.txie = false → d.tx.ring.contents b = []) := by
  obtain ⟨r, hr, hc, -, -⟩ := Channel.transmit_spec w (Channel.transmit_bound h)
  obtain rfl := Option.some.inj (hr.symm.trans h)
  refine ⟨by rw [hc, List.append_assoc, List.take_append_drop], fun hset hclear => ?_⟩
  have hnone : r.count = 0 := by simpa [hset] using hclear
  exact List.length_eq_zero_iff.1 ((RingBuffer.length_contents b r).trans hnone)

/-- Settles O28, by the kinds of step: what has left and what waits is extended at its end, or the queue is emptied. -/
theorem txBytesLeaveInPushOrder : Obligations.TxBytesLeaveInPushOrder := by
  intro s t n w h
  obtain e | ⟨i, u, hi, hu, e⟩ | ⟨b, rest, -, e⟩ | ⟨k, j, rest, -, e⟩ | ⟨rest, hin, e⟩ := step_chan h n
  · exact .inl (exists_append_nil (by rw [e, State.txContents_of_chan (step_params h) e]))
  · rw [e.chan, e.txContents, ← hu.chan, ← hu.txContents, ← hu.mode]
    obtain ⟨hwire, ⟨pushed, hq, hpushed⟩ | ⟨hq, hflush⟩⟩ := effect_tx (hu.inv w) i n
    · refine .inl ⟨pushed, by rw [hwire, hq, List.append_assoc], fun hne => ?_⟩
      obtain rfl | ⟨rfl, hm⟩ := hpushed hne
      · exact .inl hi
      · exact .inr ⟨hi, hm⟩
    · refine .inr ⟨hq, hwire, ?_⟩
      obtain ⟨q, rfl⟩ | ⟨m, rfl⟩ := hflush
      · exact .inl ⟨q, hi⟩
      · exact .inr (.inl ⟨m, hi⟩)
  · obtain ⟨htx, hwire, -⟩ := Channel.receive_tx (rxCap s.params n) b (s.chan n)
    exact .inl (exists_append_nil (by rw [State.txContents, State.txContents, step_params h, e, htx, hwire]))
  · exact .inl (exists_append_nil (by rw [State.txContents, step_params h]; exact (Channel.transmit_tx (w.chan n) e).1))
  · exact .inr ⟨by rw [State.txContents, e]; rfl, by rw [e]; rfl, .inr (.inr ⟨rest, hin⟩)⟩

/-- Settles O29, by the kinds of step: only a byte received adds an entry, and what else changes the queue takes from its
front or empties it. -/
theorem rxBytesTakenInArrivalOrder : Obligations.RxBytesTakenInArrivalOrder := by
  intro s t n w h
  have hp := step_params h
  obtain e | ⟨i, u, hi, hu, e⟩ | ⟨b, rest, hin, e⟩ | ⟨k, j, rest, -, e⟩ | ⟨rest, hin, e⟩ := step_chan h n
  · exact .inr (.inl ⟨0, State.rxContents_of_chan hp e, by rw [e], .inl rfl⟩)
  · right
    rw [e.chan, e.rxContents, ← hu.chan, ← hu.rxContents, ← hu.mode]
    obtain ⟨k, hq, hgap, hk⟩ | ⟨hq, hgap, hflush⟩ := effect_rx (hu.inv w) i n
    · refine .inl ⟨k, hq, hgap, ?_⟩
      obtain hk | ⟨m, rfl⟩ | ⟨rfl, hm⟩ := hk
      · exact .inl hk
      · exact .inr (.inl ⟨m, hi⟩)
      · exact .inr (.inr ⟨hi, hm⟩)
    · refine .inr ⟨hq, hgap, ?_⟩
      obtain ⟨q, rfl⟩ | ⟨m, rfl⟩ := hflush
      · exact .inl ⟨q, hi⟩
      · exact .inr (.inl ⟨m, hi⟩)
  · refine .inl ⟨b, rest, hin, ?_⟩
    rw [State.length_rxContents, State.rxContents, hp, e]
    obtain hroom | hfull := Nat.lt_or_eq_of_le (w.chan n).rx.count
    · obtain ⟨r, hr, hc⟩ := Channel.receive_of_room (w.chan n).rx hroom b
      rw [hr]
      exact .inl ⟨hc, rfl⟩
    · rw [Channel.receive_of_full hfull]
      exact .inr ⟨rfl, hfull, rfl, rfl⟩
  · have hrx := Channel.transmit_rx e
    exact .inr (.inl ⟨0, by rw [State.rxContents, hp, hrx]; rfl, by rw [hrx], .inl rfl⟩)
  · exact .inr (.inr ⟨by rw [State.rxContents, e]; rfl, by rw [e]; rfl, .inr (.inr ⟨rest, hin⟩)⟩)

/-- Settles O30, by the kinds of step: an agent clears TXIEn by sending the last byte or by RESET. -/
theorem txEnableStaysWhileBytesWait : Obligations.TxEnableStaysWhileBytesWait := by
  intro s t n w h _ hset hclear
  obtain e | ⟨i, u, hi, hu, e⟩ | ⟨b, rest, -, e⟩ | ⟨k, j, rest, hin, e⟩ | ⟨rest, hin, -⟩ := step_chan h n
  · simp [e, hset] at hclear
  · rw [← hu.chan] at hset
    rw [e.chan] at hclear
    rw [e.mode, ← hu.mode]
    obtain ⟨m, rfl, hb⟩ | ⟨v, rfl, hv⟩ := effect_txie_cleared (hu.inv w) i n hset hclear
    · exact .inr (.inl ⟨m, hi, hb⟩)
    · exact .inr (.inr (.inl ⟨v, hi, hv⟩))
  · obtain ⟨-, -, htxie⟩ := Channel.receive_tx (rxCap s.params n) b (s.chan n)
    simp [e, htxie, hset] at hclear
  · obtain ⟨-, hempty⟩ := Channel.transmit_tx (w.chan n) e
    refine .inl ⟨?_, k, j, rest, hin⟩
    rw [State.txContents, step_params h]
    exact hempty hset hclear
  · exact .inr (.inr (.inr ⟨rest, hin⟩))

end Sys2Proof.Machine
end

section
/-! PROOFS. Words of the control unit's commands (30_encoding.md R125, R126), and values as numbers: the bits of a
register word, and the payload of REG.WRITE. -/

namespace Sys2Proof

/-- A row whose operand bits in IMM are the low k takes the IMM fields below 2^k (R125). -/
theorem OpRow.immLegal_of_lowBits {r : OpRow} (k : Nat) (hfree : r.immFree = BitVec.ofNat 16 (2 ^ k - 1))
    (hfixed : r.immFixed = 0#16) (imm : Half) : r.immLegal imm = true ↔ imm.toNat < 2 ^ k := by
  rw [OpRow.immLegal_iff, hfree, hfixed, outsideZero_iff]

/-- A row whose operand bits in SEL are all eight takes every SEL (R125). -/
theorem OpRow.selLegal_of_allOperand {r : OpRow} (h : r.selFree = 0xFF#8) (sel : Byte) : r.selLegal sel = true :=
  (OpRow.selLegal_of_lowBits 8 h sel).2 sel.isLt

/-- IMM[1:0] as the low two bits of IMM (R126). -/
theorem modeOfImm_eq_setWidth (imm : Half) : modeOfImm imm = imm.setWidth 2 := by
  apply BitVec.eq_of_toNat_eq
  rw [modeOfImm, BitVec.extractLsb'_toNat, Nat.shiftRight_zero, BitVec.toNat_setWidth]

/-- Bits below k and a value moved up by k are their sum. -/
theorem toNat_or_shiftLeft {k : Nat} {x y : Word} (hx : x.toNat < 2 ^ k) (hy : 2 ^ k * y.toNat < 2 ^ 32) :
    (x ||| y <<< k).toNat = x.toNat + 2 ^ k * y.toNat := by
  rw [BitVec.toNat_or, BitVec.toNat_shiftLeft, Nat.shiftLeft_eq, Nat.mul_comm, Nat.mod_eq_of_lt hy, Nat.or_comm,
    ← Nat.two_pow_add_eq_or_of_lt hx, Nat.add_comm]

/-- No bit of a word is at k or above exactly where it is below 2^k. -/
theorem ushiftRight_eq_zero_iff {v : Word} (k : Nat) : v >>> k = 0#32 ↔ v.toNat < 2 ^ k := by
  rw [← BitVec.toNat_inj, BitVec.toNat_ushiftRight, Nat.shiftRight_eq_div_pow, BitVec.toNat_ofNat, Nat.zero_mod,
    Nat.div_eq_zero_iff_lt (Nat.two_pow_pos k)]

/-- A byte put below a value. -/
theorem toNat_append_byte {n : Nat} (x : BitVec n) (b : Byte) : (x ++ b).toNat = 2 ^ 8 * x.toNat + b.toNat := by
  rw [BitVec.toNat_append, Nat.shiftLeft_eq, Nat.mul_comm, ← Nat.two_pow_add_eq_or_of_lt b.isLt]

/-- REG.WRITE's four payload bytes as a number, low byte first (R83). -/
theorem valueOfPayload_eq_ofNat {p : List Byte} (h : p.length = 4) :
    valueOfPayload p = BitVec.ofNat 32 ((p.getD 0 0#8).toNat + 2 ^ 8 * (p.getD 1 0#8).toNat +
      2 ^ 16 * (p.getD 2 0#8).toNat + 2 ^ 24 * (p.getD 3 0#8).toNat) := by
  match p, h with
  | [b0, b1, b2, b3], _ =>
    have hnat : (wordOfBytes b0 b1 b2 b3).toNat =
        b0.toNat + 2 ^ 8 * b1.toNat + 2 ^ 16 * b2.toNat + 2 ^ 24 * b3.toNat := by
      rw [wordOfBytes, toNat_append_byte, toNat_append_byte, toNat_append_byte]
      omega
    calc valueOfPayload [b0, b1, b2, b3]
      _ = BitVec.ofNat 32 (wordOfBytes b0 b1 b2 b3).toNat := by
        rw [BitVec.ofNat_toNat, BitVec.setWidth_eq, valueOfPayload]
      _ = _ := congrArg (BitVec.ofNat 32) hnat

end Sys2Proof

namespace Sys2Proof.Machine

/-- MODE.SET's words: the mode in IMM[1:0], the reserved value 3 included (R262, R128). -/
theorem modeSet_commandWord :
    CommandWord 0x50#8 noPayload (fun sel imm => sel = 0#8 ∧ imm.toNat < 4)
      (fun _ imm _ => .modeSet (imm.setWidth 2)) := by
  refine commandWord_of_op .modeSet (Op.plen_of_noPayload rfl) (fun sel imm => ?_) fun _ imm _ _ =>
    congrArg Instr.modeSet (modeOfImm_eq_setWidth imm)
  rw [OpRow.selLegal_of_noOperand rfl, OpRow.immLegal_of_lowBits 2 rfl rfl]
  rfl

/-- REG.READ's words: the index in SEL, any of them (R268, R128). -/
theorem regRead_commandWord :
    CommandWord 0x60#8 noPayload (fun _ imm => imm = 0#16) (fun sel _ _ => .regRead sel) := by
  refine commandWord_of_op .regRead (Op.plen_of_noPayload rfl) (fun sel imm => ?_) fun _ _ _ _ => rfl
  rw [and_iff_right (OpRow.selLegal_of_allOperand rfl sel), OpRow.immLegal_of_noOperand rfl]
  rfl

/-- REG.WRITE's words: the index in SEL, IMM 4 for the four payload bytes, which are the value (R269, R83). -/
theorem regWrite_commandWord :
    CommandWord 0x61#8 (fun _ => 4) (fun _ imm => imm = 0x0004#16)
      (fun sel _ p => .regWrite sel (BitVec.ofNat 32 ((p.getD 0 0#8).toNat + 2 ^ 8 * (p.getD 1 0#8).toNat +
        2 ^ 16 * (p.getD 2 0#8).toNat + 2 ^ 24 * (p.getD 3 0#8).toNat))) := by
  refine commandWord_of_row (o := .regWrite) rfl (fun _ => rfl) (fun sel imm => ?_) fun sel _ _ hp _ =>
    congrArg (Instr.regWrite sel) (valueOfPayload_eq_ofNat hp).symm
  rw [and_iff_right (OpRow.selLegal_of_allOperand rfl sel), OpRow.immLegal_of_noOperand rfl]
  rfl

end Sys2Proof.Machine
end

section
/-! PROOFS. Family 43_control.md: NOP, MODE.SET's bracket, PROCESS by mode, and the control registers. -/

namespace Sys2Proof.Machine

/-- Settles O31: the row's words, and the command's effect, which is none. -/
theorem nopOnlyAnswers : Obligations.NopOnlyAnswers :=
  ⟨commandWord_of_noOperand .nop rfl fun _ _ _ => rfl, fun _ hf => exec_live hf .nop⟩

/-! ## MODE.SET (R262, R263) -/

/-- The affected set chans(old) ∪ chans(new), channel by channel (R261, R262). -/
theorem affected_iff_bracketed {old new : Mode} {n : Chan} : affected old new n = true ↔ bracketed old new n := by
  cases old <;> cases new <;> cases n <;> simp [affected, drives, bracketed]

/-- MODE's value of a mode (R33). -/
theorem modeWord_eq (m : Mode) :
    modeWord m = match m with | .idle => 0#32 | .bypass => 1#32 | .inventory => 2#32 := by
  cases m <;> rfl

/-- The bracket pauses, empties and resumes an affected channel, and keeps any other (R262). -/
theorem setMode_chan (new : Mode) (s : State) (n : Chan) :
    (setMode new s).chan n = if affected s.mode new n then (s.chan n).pause.flushBoth.resume else s.chan n := by
  rw [setMode_eq]
  cases n <;> rfl

@[simp] theorem setMode_mode (new : Mode) (s : State) : (setMode new s).mode = new := by rw [setMode_eq]
@[simp] theorem setMode_params (new : Mode) (s : State) : (setMode new s).params = s.params := by rw [setMode_eq]
@[simp] theorem setMode_crc (new : Mode) (s : State) : (setMode new s).crc = s.crc := by rw [setMode_eq]
@[simp] theorem setMode_fault (new : Mode) (s : State) : (setMode new s).fault = s.fault := by rw [setMode_eq]
@[simp] theorem setMode_cmdIndex (new : Mode) (s : State) : (setMode new s).cmdIndex = s.cmdIndex := by rw [setMode_eq]
@[simp] theorem setMode_now (new : Mode) (s : State) : (setMode new s).now = s.now := by rw [setMode_eq]
@[simp] theorem setMode_inputs (new : Mode) (s : State) : (setMode new s).inputs = s.inputs := by rw [setMode_eq]
@[simp] theorem setMode_sync (new : Mode) (s : State) :
    (setMode new s).sync = if s.mode = .inventory ∨ new = .inventory then s.sync.reset else s.sync := by
  rw [setMode_eq]
@[simp] theorem setMode_flt (new : Mode) (s : State) :
    (setMode new s).flt = if new = .inventory then s.flt.clear else s.flt := by rw [setMode_eq]

/-- MODE.SET of a mode runs the bracket; the value is the old mode (R262). -/
theorem exec_modeSet {s : State} {m : BitVec 2} {new : Mode} (hf : s.fault = none) (h : modeOfBits m = some new) :
    exec (.modeSet m) s = .next ((setMode new s).returns (Reply.ok (modeWord s.mode))) := by
  rw [exec_live hf, effectOf, h]

/-- Settles O32: the row's words, the refusal of m = 3, and the bracket unit by unit. -/
theorem modeSetBracket : Obligations.ModeSetBracket := by
  refine ⟨modeSet_commandWord, fun s hf => ⟨exec_live hf (.modeSet 3#2), fun m new hm => ?_⟩⟩
  have hbits : modeOfBits m = some new := by
    obtain ⟨rfl, rfl⟩ | ⟨rfl, rfl⟩ | ⟨rfl, rfl⟩ := hm <;> rfl
  refine ⟨_, exec_modeSet hf hbits, setMode_mode new s, (setMode_fault new s).trans hf,
    congrArg (fun v => some (Reply.ok v)) (modeWord_eq s.mode), congrArg (· + 1) (setMode_cmdIndex new s),
    fun n hn => ?_, fun n hn => ?_, fun hi => ?_, fun ho hn => ?_, fun hn => ?_, fun hn => ?_,
    setMode_crc new s, setMode_params new s, setMode_now new s, setMode_inputs new s⟩
  · have hchan : ((setMode new s).returns (Reply.ok (modeWord s.mode))).chan n =
        (s.chan n).pause.flushBoth.resume := by
      rw [State.chan_returns, setMode_chan, if_pos (affected_iff_bracketed.2 hn)]
    rw [State.rxContents, State.txContents, hchan]
    exact ⟨rfl, RingBuffer.contents_flush _ _, RingBuffer.contents_flush _ _⟩
  · rw [State.chan_returns, setMode_chan, if_neg (mt affected_iff_bracketed.1 hn)]
  · rw [State.returns_sync, setMode_sync, if_pos hi, Sync.reset]
  · rw [State.returns_sync, setMode_sync, if_neg (not_or_intro ho hn)]
  · rw [State.returns_flt, setMode_flt, if_pos hn, TagFilter.clear]
  · rw [State.returns_flt, setMode_flt, if_neg hn]

/-! ## PROCESS (R264-R267) -/

/-- PROCESS in Idle has no effect (R265). -/
theorem effectOf_process_idle {s : State} (hm : s.mode = .idle) : effectOf .process s = (s, Reply.ok 0#32) := by
  rw [effectOf, hm]

/-- PROCESS in Bypass forwards (R266). -/
theorem effectOf_process_bypass {s : State} (hm : s.mode = .bypass) : effectOf .process s = processBypass s := by
  rw [effectOf, hm]

/-- PROCESS in Inventory drains RX0 (R267). -/
theorem effectOf_process_inventory {s : State} (hm : s.mode = .inventory) :
    effectOf .process s = processInventory s := by
  rw [effectOf, hm]

/-- Settles O33: the row's words, and that the effect in Idle is none. -/
theorem processInIdleOnlyAnswers : Obligations.ProcessInIdleOnlyAnswers := by
  refine ⟨commandWord_of_noOperand .process rfl fun _ _ _ => rfl, fun s hf hm => ?_⟩
  rw [exec_live hf, effectOf_process_idle hm]
  rfl

/-- Settles O34: the two directions as `processBypass_spec` has them. -/
theorem processInBypassForwards : Obligations.ProcessInBypassForwards := by
  intro s w hf hm
  obtain ⟨rx0, rx1, tx0, tx1, heffect, hcontents, -⟩ := processBypass_spec w
  refine ⟨rx0, rx1, tx0, tx1, ?_, hcontents⟩
  rw [exec_live hf, effectOf_process_bypass hm, heffect]
  rfl

/-- Settles O35: RX0 popped whole is its content, and its drain is `Sync.drain_eq`. -/
theorem processInInventoryDrains : Obligations.ProcessInInventoryDrains := by
  intro s w hf hm
  obtain ⟨htaken, hleft⟩ := RingBuffer.popMany_all (w.chan .ch0).rx
  refine ⟨_, ?_, hleft⟩
  rw [exec_live hf, effectOf_process_inventory hm, processInventory]
  simp only [State.chan_ch0] at htaken
  rw [htaken, Sync.drain_eq]
  rfl

/-! ## The control registers (R32-R43, R268, R269) -/

/-- A one-bit field is the bit moved to its place. -/
theorem bitAt_eq_shiftLeft (k : Nat) (b : Bool) : bitAt k b = BitVec.ofNat 32 b.toNat <<< k := by
  cases b <;> simp [bitAt]

theorem toNat_modeWord (m : Mode) :
    (modeWord m).toNat = match m with | .idle => 0 | .bypass => 1 | .inventory => 2 := by
  cases m <;> rfl

theorem toNat_irqenWord (s : State) : (irqenWord s).toNat =
    s.ch0.rxie.toNat + 2 * s.ch0.txie.toNat + 4 * s.ch1.rxie.toNat + 8 * s.ch1.txie.toNat := by
  have hbits : ∀ a b c d : Bool, (bitAt 0 a ||| bitAt 1 b ||| bitAt 2 c ||| bitAt 3 d).toNat =
      a.toNat + 2 * b.toNat + 4 * c.toNat + 8 * d.toNat := by decide
  exact hbits _ _ _ _

theorem toNat_syncstWord (y : Sync) : (syncstWord y).toNat =
    (if y.state = .waitBody then 1 else 0) + 2 ^ 8 * y.expected.toNat + 2 ^ 16 * y.received.toNat := by
  have hexp := y.expected.isLt
  have hrec := y.received.isLt
  have hwide : ∀ b : Byte, (b.setWidth 32).toNat = b.toNat := fun _ => BitVec.toNat_setWidth_of_le (by omega)
  have hstate : (bitAt 0 (y.state == .waitBody)).toNat = if y.state = .waitBody then 1 else 0 := by
    cases y.state <;> rfl
  have hbit : (if y.state = .waitBody then 1 else 0) < 2 := by split <;> omega
  have hlow : (bitAt 0 (y.state == .waitBody) ||| y.expected.setWidth 32 <<< 8).toNat =
      (if y.state = .waitBody then 1 else 0) + 2 ^ 8 * y.expected.toNat := by
    rw [toNat_or_shiftLeft (by omega) (by rw [hwide]; omega), hstate, hwide]
  rw [syncstWord, toNat_or_shiftLeft (by omega) (by rw [hwide]; omega), hlow, hwide]

theorem toNat_qstatWord {count : Nat} (h : count < 2 ^ 16) (gap : Bool) :
    (qstatWord count gap).toNat = count + 2 ^ 16 * gap.toNat := by
  have hc : ((BitVec.ofNat 16 count).setWidth 32).toNat = count := by
    rw [BitVec.toNat_setWidth, BitVec.toNat_ofNat]; omega
  have hg : (BitVec.ofNat 32 gap.toNat).toNat = gap.toNat := by cases gap <;> rfl
  have hle := gap.toNat_le
  rw [qstatWord, bitAt_eq_shiftLeft, toNat_or_shiftLeft (by omega) (by omega), hc, hg]

theorem toNat_qcapWord {cap : Nat} (h : cap < 2 ^ 16) : (qcapWord cap).toNat = cap := by
  rw [qcapWord, BitVec.toNat_setWidth, BitVec.toNat_ofNat]; omega

/-- FLT_MAX_CAP fits eight bits (R6). -/
theorem Params.Valid.fltMaxCap_le {p : Params} (v : p.Valid) : p.fltMaxCap ≤ 255 := by
  obtain ⟨-, -, -, -, -, ⟨-, h⟩, -⟩ := v
  exact h

theorem toNat_sizeWord {n : Nat} (h : n < 2 ^ 8) : (sizeWord n).toNat = n := by
  rw [sizeWord, BitVec.toNat_setWidth, BitVec.toNat_ofNat]; omega

/-- The register file is the value of each register of the map, in index order (R32). -/
theorem registerFile_eq {s : State} (w : s.Inv) : registerFile s = regMap.map fun g => (readReg s g).toNat := by
  have hfltmax := Params.Valid.fltMaxCap_le w.params
  have hfltcap := w.flt.capMax
  have hfltcount := w.flt.count
  have hcaps : ∀ n, rxCap s.params n < 2 ^ 16 ∧ txCap s.params n < 2 ^ 16 := fun n => by
    have := Params.Valid.caps_le w.params n; omega
  have hcounts : ∀ n, (s.chan n).rx.ring.count < 2 ^ 16 ∧ (s.chan n).tx.ring.count < 2 ^ 16 := fun n =>
    ⟨lt_of_le_of_lt (w.chan n).rx.count (hcaps n).1, lt_of_le_of_lt (w.chan n).tx.count (hcaps n).2⟩
  have hcrc : (s.crc.setWidth 32).toNat = s.crc.toNat := BitVec.toNat_setWidth_of_le (by omega)
  simp only [registerFile, State.length_rxContents, State.length_txContents, regMap, List.map_cons, List.map_nil,
    readReg, readQstat, queueCap, queueChan, queueIsRx, if_true, Bool.false_eq_true, if_false, toNat_modeWord,
    toNat_irqenWord, toNat_syncstWord, hcrc, toNat_sizeWord (n := s.flt.cap) (by omega),
    toNat_sizeWord (n := s.flt.count) (by omega), fun n gap => toNat_qstatWord (hcounts n).1 gap,
    fun n gap => toNat_qstatWord (hcounts n).2 gap, fun n => toNat_qcapWord (hcaps n).1,
    fun n => toNat_qcapWord (hcaps n).2, Bool.toNat_false, Nat.mul_zero, Nat.add_zero]
  rfl

/-- No index from 0x1A on names a register (R32, R44). -/
theorem regOfIndex_reserved {r : Byte} (h : 0x1A ≤ r.toNat) : regOfIndex r = none := List.getElem?_eq_none h

/-- Settles O36: the row's words; the register file is the register map read, so an index in it names its register. -/
theorem regReadAnswersRegisterFile : Obligations.RegReadAnswersRegisterFile := by
  refine ⟨regRead_commandWord, fun s r w hf => ⟨fun v hv => ?_, fun hr => ?_⟩⟩
  · rw [registerFile_eq w, List.getElem?_map, Option.map_eq_some_iff] at hv
    obtain ⟨g, hg, rfl⟩ := hv
    refine ⟨?_, (readReg s g).isLt⟩
    rw [exec_live hf, effectOf, regOfIndex, hg, BitVec.ofNat_toNat, BitVec.setWidth_eq]
    rfl
  · rw [exec_live hf, effectOf, regOfIndex_reserved hr]
    rfl

/-- REG.WRITE of a legal value to a writable register writes it (R269). -/
theorem exec_regWrite {s t : State} {r : Byte} {v : Word} (hf : s.fault = none)
    (h : (regOfIndex r).bind (writeReg s v) = some t) :
    exec (.regWrite r v) s = .next (t.returns (Reply.ok 0#32)) := by
  rw [exec_live hf, effectOf, h]

/-- Any other REG.WRITE answers InvalidParam and writes nothing (R269). -/
theorem exec_regWrite_refused {s : State} {r : Byte} {v : Word} (hf : s.fault = none)
    (h : (regOfIndex r).bind (writeReg s v) = none) :
    exec (.regWrite r v) s = .next (s.returns (Reply.error .invalidParam)) := by
  rw [exec_live hf, effectOf, h]

/-- IRQEN takes a value with no reserved bit (R34, R269). -/
theorem writeReg_irqen {v : Word} (h : v.toNat < 16) (s : State) : writeReg s v .irqen = some (writeIrqen s v) :=
  if_pos ((ushiftRight_eq_zero_iff 4).2 h)

/-- FLTCAP takes 1 to FLT_MAX_CAP, which fits its eight bits (R39, R295). -/
theorem writeReg_fltcap {s : State} {v : Word} (hp : s.params.Valid) (h1 : 1 ≤ v.toNat)
    (hmax : v.toNat ≤ s.params.fltMaxCap) :
    writeReg s v .fltcap = some { s with flt := TagFilter.clear { s.flt with cap := v.toNat } } := by
  have hbits : v >>> 8 = 0#32 := (ushiftRight_eq_zero_iff 8).2 (by have := Params.Valid.fltMaxCap_le hp; omega)
  refine if_neg ?_
  rintro (h | h | h)
  · omega
  · omega
  · exact h hbits

/-- What REG.WRITE refuses: a register that is not writable, a reserved bit of IRQEN, an illegal capacity (R269). -/
theorem writeReg_refused {s : State} {r : Byte} {v : Word}
    (h : (r ≠ 0x01#8 ∧ r ≠ 0x05#8 ∧ r ≠ 0x06#8) ∨ (r = 0x01#8 ∧ 16 ≤ v.toNat) ∨
      (r = 0x06#8 ∧ (v.toNat = 0 ∨ s.params.fltMaxCap < v.toNat))) :
    (regOfIndex r).bind (writeReg s v) = none := by
  obtain ⟨h1, h5, h6⟩ | ⟨rfl, hv⟩ | ⟨rfl, hv⟩ := h
  · exact writeReg_readOnly r h1 h5 h6 s v
  · exact if_neg fun h => absurd ((ushiftRight_eq_zero_iff 4).1 h) (Nat.not_lt.2 hv)
  · exact if_pos (hv.imp Nat.lt_one_iff.2 Or.inl)

/-- Settles O37: the row's words, a write of each of the three registers, and the refusal of any other. -/
theorem regWriteWritesThreeRegisters : Obligations.RegWriteWritesThreeRegisters := by
  refine ⟨regWrite_commandWord, fun s r v w hf => ⟨fun hv => ?_, ?_, fun h1 hmax => ?_, fun hbad => ?_⟩⟩
  · exact exec_regWrite (r := 0x01#8) hf (writeReg_irqen hv s)
  · exact exec_regWrite (r := 0x05#8) hf rfl
  · exact exec_regWrite (r := 0x06#8) hf (writeReg_fltcap w.params h1 hmax)
  · exact exec_regWrite_refused hf (writeReg_refused hbad)

end Sys2Proof.Machine
end

section
/-! PROOFS. Family 44_filter.md: what the filter holds, the verdict of a check, the debounce window and eviction. The
filter's content is read off its view: the EPC and the time stamp of each valid slot. -/

namespace Sys2Proof.Machine

/-! ## What the filter holds -/

/-- Slot i is valid and holds the EPC E, last seen at sample ts (R52, R290). -/
def TagFilter.Shows (f : TagFilter) (i : Nat) (E : List Byte) (ts : Word) : Prop :=
  f.view.entry[i]? = some (some (E, ts))

/-- A slot shows what it holds, where it is valid. -/
theorem TagFilter.shows_iff {f : TagFilter} {i : Nat} {E : List Byte} {ts : Word} :
    f.Shows i E ts ↔ ∃ x, f.entry[i]? = some x ∧ x.valid = true ∧ x.key = E ∧ x.ts = ts := by
  simp [Shows, view, Slot.view]

/-- An EPC is in a slot exactly where some index shows it. -/
theorem TagFilter.held_iff_shows {f : TagFilter} {E : List Byte} :
    (∃ x ∈ f.entry, x.valid = true ∧ x.key = E) ↔ ∃ i ts, f.Shows i E ts := by
  simp only [shows_iff, List.mem_iff_getElem?]
  constructor
  · rintro ⟨x, ⟨i, hi⟩, hv, hk⟩
    exact ⟨i, x.ts, x, hi, hv, hk, rfl⟩
  · rintro ⟨i, _, x, hi, hv, hk, -⟩
    exact ⟨x, ⟨i, hi⟩, hv, hk⟩

section
variable {p : Params} {f : TagFilter} (w : f.Wf p) {E : List Byte}
include w

/-- A lookup finds nothing exactly where no slot shows the EPC (R292). -/
theorem TagFilter.lookup_eq_none_iff_shows : f.lookup E = none ↔ ∀ i ts, ¬ f.Shows i E ts := by
  simp only [Option.eq_none_iff_forall_ne_some, ne_eq, lookup_iff_view w, not_exists]
  rfl

/-- A filter that counts no slot shows no EPC (R53). -/
theorem TagFilter.not_shows_of_count_zero (h : f.count = 0) (i : Nat) (ts : Word) : ¬ f.Shows i E ts := by
  rw [shows_iff]
  rintro ⟨x, hx, hv, -⟩
  exact absurd ((w.valid i x hx).1 hv) (by omega)

/-- An empty filter inserts at slot 0 (R291, R296). -/
theorem TagFilter.next_of_count_zero (h : f.count = 0) : f.next = 0 :=
  (w.filling (by have := w.capPos; omega)).trans h

/-- The next slot is one of the filter's (R53). -/
theorem TagFilter.next_lt_length : f.next < f.entry.length := by
  rw [w.length]
  exact w.next.trans_le w.capMax

/-- After an insertion the next slot shows the EPC inserted, and every other slot what it showed (R292). -/
theorem TagFilter.shows_insert (hE : E.length ≤ 255) {t ts : Word} {i : Nat} {e : List Byte} :
    (f.insert E t).Shows i e ts ↔ if i = f.next then e = E ∧ ts = t else f.Shows i e ts := by
  have hnext := next_lt_length w
  rw [Shows, view_insert f hE, List.getElem?_modify]
  by_cases hi : i = f.next
  · subst hi
    simp [view, hnext, eq_comm]
  · simp [Shows, hi, show ¬ f.view.next = i from fun h => hi h.symm]

end

/-- A refresh of the slot that shows an EPC shows it with the new time stamp (R292). -/
theorem TagFilter.Shows.refresh {f : TagFilter} {i : Nat} {E : List Byte} {ts : Word} (h : f.Shows i E ts) (t : Word) :
    (f.refresh i t).Shows i E t := by
  rw [Shows, view_refresh, List.getElem?_modify, show f.view.entry[i]? = _ from h]
  simp

/-! ## FLT.CHECK (R292) -/

/-- What a check of the EPC e needs: a sound block that is not FAULTED, and an EPC of 1 to EPC_MAX bytes. -/
structure State.CanCheck (s : State) (e : List Byte) : Prop where
  inv : s.Inv
  live : s.fault = none
  nonempty : e ≠ []
  fits : e.length ≤ s.params.epcMax

section
variable {s t : State} {e : List Byte}

/-- A filter slot holds any EPC that may be checked: its length fits eight bits (R6). -/
theorem State.CanCheck.length_le (c : s.CanCheck e) : e.length ≤ 255 :=
  c.fits.trans (Params.Valid.epcMax_le c.inv.params)

/-- The time sample is no part of what a check needs. -/
theorem State.CanCheck.atSample (c : s.CanCheck e) (now : Word) : ({ s with now := now } : State).CanCheck e :=
  ⟨(State.SameUnits.own s _ _ _ _ _).inv c.inv, c.live, c.nonempty, c.fits⟩

/-- A command that leaves the block not FAULTED leaves what a check needs. -/
theorem State.CanCheck.after (c : s.CanCheck e) {i : Instr} (h : exec i s = .next t) (hf : t.fault = none) :
    t.CanCheck e := by
  obtain ⟨-, ht⟩ := exec_next h
  have hp : t.params = s.params := by rw [ht]; exact (effect_frame i s).1
  refine ⟨?_, hf, c.nonempty, hp ▸ c.fits⟩
  rw [ht]
  exact (State.SameUnits.own _ _ _ _ _ _).inv (effect_inv c.inv i)

/-- A check of an EPC of no byte or over EPC_MAX is InvalidParam (R292). -/
theorem exec_fltCheck_refused (hf : s.fault = none) (h : e = [] ∨ s.params.epcMax < e.length) :
    exec (.fltCheck e) s = .next (s.returns (Reply.error .invalidParam)) := by
  rw [exec_live hf, effectOf, if_pos (h.imp_left List.length_eq_zero_iff.2)]

/-- A check answers its verdict and leaves the filter it makes (R292). -/
theorem State.CanCheck.exec_eq_check (c : s.CanCheck e) : exec (.fltCheck e) s = .next
    (({ s with flt := (s.flt.check e s.now).1 } : State).returns
      (Reply.ok (if (s.flt.check e s.now).2 then 1#32 else 0#32))) := by
  rw [exec_live c.live, effectOf, if_neg]
  exact not_or.2 ⟨fun h => c.nonempty (List.length_eq_zero_iff.1 h), Nat.not_lt.2 c.fits⟩

/-- The lookup of an EPC that a slot shows, and its time stamp (R290, R292). -/
theorem State.CanCheck.lookup_of_shows (c : s.CanCheck e) {i : Nat} {ts : Word} (h : s.flt.Shows i e ts) :
    s.flt.lookup e = some i ∧ s.flt.tsAt i = ts :=
  ⟨(TagFilter.lookup_iff_view c.inv.flt).2 ⟨ts, h⟩, TagFilter.tsAt_of_view h⟩

/-- A held EPC within its window is rejected, and its time stamp kept (R292). -/
theorem State.CanCheck.exec_rejects (c : s.CanCheck e) {i : Nat} {ts : Word} (h : s.flt.Shows i e ts)
    (hw : (s.now - ts).toNat < s.flt.win.toNat) : exec (.fltCheck e) s = .next
    (({ s with flt := { s.flt with tagsup := s.flt.tagsup + 1#32 } } : State).returns (Reply.ok 0#32)) := by
  obtain ⟨hl, rfl⟩ := c.lookup_of_shows h
  rw [c.exec_eq_check, TagFilter.check, hl]
  simp only [if_pos hw]
  rfl

/-- A held EPC past its window is accepted, and its time stamp refreshed in place (R292). -/
theorem State.CanCheck.exec_refreshes (c : s.CanCheck e) {i : Nat} {ts : Word} (h : s.flt.Shows i e ts)
    (hw : s.flt.win.toNat ≤ (s.now - ts).toNat) : exec (.fltCheck e) s = .next
    (({ s with flt := s.flt.refresh i s.now } : State).returns (Reply.ok 1#32)) := by
  obtain ⟨hl, rfl⟩ := c.lookup_of_shows h
  rw [c.exec_eq_check, TagFilter.check, hl]
  simp only [if_neg (Nat.not_lt.2 hw)]
  rfl

/-- An EPC not held is accepted, and inserted at the next slot (R292). -/
theorem State.CanCheck.exec_inserts (c : s.CanCheck e) (h : ∀ i ts, ¬ s.flt.Shows i e ts) :
    exec (.fltCheck e) s = .next (({ s with flt := s.flt.insert e s.now } : State).returns (Reply.ok 1#32)) := by
  rw [c.exec_eq_check, TagFilter.check, (TagFilter.lookup_eq_none_iff_shows c.inv.flt).2 h]
  rfl

end

/-- Settles O41: the row's words; the verdict by whether a slot shows the EPC and whether its window has passed. -/
theorem fltCheckVerdict : Obligations.FltCheckVerdict := by
  refine ⟨commandWord_of_payload .fltCheck rfl fun _ _ _ => rfl, fun s e w hf =>
    ⟨exec_fltCheck_refused hf, fun hne hlen => ?_⟩⟩
  have c : s.CanCheck e := ⟨w, hf, hne, hlen⟩
  refine ⟨fun i x hx hv hk => ?_, fun hnone => ?_⟩
  · have hshows : s.flt.Shows i e x.ts := TagFilter.shows_iff.2 ⟨x, hx, hv, hk, rfl⟩
    refine ⟨c.exec_rejects hshows, fun hw => (c.exec_refreshes hshows hw).trans ?_⟩
    rw [TagFilter.refresh, List.modify_eq_set_getElem?, hx]
    rfl
  · have hshows : ∀ i ts, ¬ s.flt.Shows i e ts := by
      intro i ts h
      obtain ⟨x, hx, hv, hk, -⟩ := TagFilter.shows_iff.1 h
      exact hnone i x hx hv hk
    have hnext := TagFilter.next_lt_length w.flt
    obtain ⟨hv, hl, hk, ht⟩ := Slot.fill_spec e s.now s.flt.entry[s.flt.next] c.length_le
    refine ⟨_, hv, hl, hk, ht, (c.exec_inserts hshows).trans ?_⟩
    rw [TagFilter.insert, List.modify_eq_set_get _ hnext]
    rfl

/-- Settles O42: the row's words, and the command's effect, filter_clear(). -/
theorem fltClearEmptiesFilter : Obligations.FltClearEmptiesFilter :=
  ⟨commandWord_of_noOperand .fltClear rfl fun _ _ _ => rfl, fun _ hf => exec_live hf .fltClear⟩

/-! ## The debounce window (R294) -/

/-- The EPC e may be checked, and a slot shows that it was last accepted at sample ts. -/
structure State.AcceptedAt (s : State) (e : List Byte) (ts : Word) : Prop where
  can : s.CanCheck e
  shown : ∃ i, s.flt.Shows i e ts

/-- A check that answers 1 can be made, and leaves the EPC accepted at its sample (R292). -/
theorem acceptedAt_of_accepts {s t : State} {e : List Byte} (w : s.Inv) (h : exec (.fltCheck e) s = .next t)
    (hr : t.reply = some (Reply.ok 1#32)) : t.AcceptedAt e s.now := by
  have hf := (exec_next h).1
  have hanswer : ∀ u, exec (.fltCheck e) s = .next u → u = t := fun u hu => Host.Outcome.next.inj (hu.symm.trans h)
  by_cases hbad : e = [] ∨ s.params.epcMax < e.length
  · obtain rfl := hanswer _ (exec_fltCheck_refused hf hbad)
    cases hr
  obtain ⟨hne, hlen⟩ := not_or.1 hbad
  have c : s.CanCheck e := ⟨w, hf, hne, Nat.not_lt.1 hlen⟩
  by_cases hshown : ∃ i ts, s.flt.Shows i e ts
  · obtain ⟨i, ts, hi⟩ := hshown
    by_cases hw : (s.now - ts).toNat < s.flt.win.toNat
    · obtain rfl := hanswer _ (c.exec_rejects hi hw)
      cases hr
    · obtain rfl := hanswer _ (c.exec_refreshes hi (Nat.not_lt.1 hw))
      exact ⟨c.after h hf, i, hi.refresh s.now⟩
  · obtain rfl := hanswer _ (c.exec_inserts fun i ts hi => hshown ⟨i, ts, hi⟩)
    exact ⟨c.after h hf, s.flt.next, (TagFilter.shows_insert w.flt c.length_le).2 (by simp)⟩

/-- A check within the window of an accept is rejected, and the accept stays the last one (R292, R294). -/
theorem State.AcceptedAt.exec_within {s : State} {e : List Byte} {ts : Word} (a : s.AcceptedAt e ts)
    (hw : (s.now - ts).toNat < s.flt.win.toNat) :
    ∃ t, exec (.fltCheck e) s = .next t ∧ t.reply = some (Reply.ok 0#32) ∧ t.flt.win = s.flt.win ∧
      t.AcceptedAt e ts := by
  obtain ⟨c, i, hi⟩ := a
  have he := c.exec_rejects hi hw
  exact ⟨_, he, rfl, rfl, c.after he c.live, i, hi⟩

/-- A check at any sample answers by the accept's window (R292, R294). -/
theorem State.AcceptedAt.exec_reply {s : State} {e : List Byte} {ts : Word} (a : s.AcceptedAt e ts) :
    ∃ t, exec (.fltCheck e) s = .next t ∧
      t.reply = some (Reply.ok (if (s.now - ts).toNat < s.flt.win.toNat then 0#32 else 1#32)) := by
  obtain ⟨c, i, hi⟩ := a
  split
  · exact ⟨_, c.exec_rejects hi ‹_›, rfl⟩
  · exact ⟨_, c.exec_refreshes hi (Nat.not_lt.1 ‹_›), rfl⟩

/-- Checks of e at the given samples, one after another from o, stopping at the first that answers no next state. -/
def checkedAt (e : List Byte) (samples : List Word) (o : Host.Outcome State Fault Refusal) :
    Host.Outcome State Fault Refusal :=
  samples.foldl (fun o w => match o with
    | .next x => exec (.fltCheck e) { x with now := w }
    | .fault r => .fault r
    | .refused r => .refused r) o

/-- Any number of checks within the window leaves the accept the last one: a reject does not prolong it (R294). -/
theorem State.AcceptedAt.checkedAt_within {e : List Byte} {ts : Word} (samples : List Word) {s : State}
    (a : s.AcceptedAt e ts) (hw : ∀ w ∈ samples, (w - ts).toNat < s.flt.win.toNat) :
    ∃ u, checkedAt e samples (.next s) = .next u ∧ u.flt.win = s.flt.win ∧ u.AcceptedAt e ts := by
  induction samples generalizing s with
  | nil => exact ⟨s, rfl, rfl, a⟩
  | cons w samples ih =>
    obtain ⟨hfirst, hrest⟩ := List.forall_mem_cons.1 hw
    obtain ⟨t, ht, -, hwin, aw⟩ :=
      State.AcceptedAt.exec_within (s := { s with now := w }) ⟨a.can.atSample w, a.shown⟩ hfirst
    obtain ⟨u, hu, huwin, au⟩ := ih aw (hwin ▸ hrest)
    refine ⟨u, ?_, huwin.trans hwin, au⟩
    rw [← hu, ← ht]
    rfl

/-- Settles O43: checks within the window keep the accept the last one, which decides the check after them. -/
theorem acceptedTagIsSuppressedForWindow : Obligations.AcceptedTagIsSuppressedForWindow := by
  intro s t e later last w _ h hr hw
  obtain ⟨u, hu, hwin, a⟩ := (acceptedAt_of_accepts w h hr).checkedAt_within later hw
  obtain ⟨v, hv, hreply⟩ := State.AcceptedAt.exec_reply (s := { u with now := last }) ⟨a.can.atSample last, a.shown⟩
  exact ⟨u, v, hu, hv, hwin ▸ hreply⟩

/-! ## Two EPCs (R296 (c), (d)) -/

section
variable {p : Params} {f : TagFilter} {e1 e2 : List Byte} {t1 t2 ts : Word} {i : Nat}

/-- An empty filter shows after an insertion the EPC inserted, at slot 0, and no other. -/
theorem TagFilter.shows_insert_of_count_zero (w : f.Wf p) (h : f.count = 0) (h1 : e1.length ≤ 255) {e : List Byte} :
    (f.insert e1 t1).Shows i e ts ↔ i = 0 ∧ e = e1 ∧ ts = t1 := by
  rw [shows_insert w h1, next_of_count_zero w h]
  split <;> simp [*, not_shows_of_count_zero w h]

/-- After a second insertion slot 0 still shows the first EPC exactly where the capacity is at least 2 (R296). -/
theorem TagFilter.shows_insert_insert_of_count_zero (w : f.Wf p) (h : f.count = 0) (w1 : (f.insert e1 t1).Wf p)
    (h1 : e1.length ≤ 255) (h2 : e2.length ≤ 255) (hne : e1 ≠ e2) :
    ((f.insert e1 t1).insert e2 t2).Shows i e1 ts ↔ 2 ≤ f.cap ∧ i = 0 ∧ ts = t1 := by
  have hnext : (f.insert e1 t1).next = 1 % f.cap := congrArg (fun n => (n + 1) % f.cap) (next_of_count_zero w h)
  rw [shows_insert w1 h2, shows_insert_of_count_zero w h h1, hnext]
  have hcap := w.capPos
  by_cases hone : f.cap = 1
  · by_cases hi : i = 0 <;> simp [hone, hi, hne]
  · have htwo : 2 ≤ f.cap := by omega
    rw [Nat.mod_eq_of_lt htwo]
    by_cases hi : i = 1 <;> simp [hi, htwo, hne]

end

/-- Settles O44: both EPCs are inserted, and the last check answers by whether e1 is still shown. -/
theorem interleavedTagsAreIndependent : Obligations.InterleavedTagsAreIndependent := by
  intro s e1 e2 t1 t2 w hf hcount hne h1 h2 hl1 hl2
  have c1 : s.CanCheck e1 := ⟨w, hf, h1, hl1⟩
  have c2 : s.CanCheck e2 := ⟨w, hf, h2, hl2⟩
  have ha := c1.exec_inserts fun _ _ => TagFilter.not_shows_of_count_zero w.flt hcount _ _
  have ca1 := c1.after ha hf
  have hb := ((c2.after ha hf).atSample t1).exec_inserts fun i ts h =>
    hne ((TagFilter.shows_insert_of_count_zero w.flt hcount c1.length_le).1 h).2.1.symm
  have cb1 := ((ca1.atSample t1).after hb hf).atSample t2
  have hshows := fun i ts => TagFilter.shows_insert_insert_of_count_zero (i := i) (ts := ts) (t2 := t1) w.flt hcount
    ca1.inv.flt c1.length_le c2.length_le hne
  by_cases hcap : 2 ≤ s.flt.cap
  · obtain ⟨c, hc, hreply⟩ := State.AcceptedAt.exec_reply ⟨cb1, 0, (hshows 0 s.now).2 ⟨hcap, rfl, rfl⟩⟩
    refine ⟨_, _, c, ha, rfl, hb, rfl, hc, hreply.trans ?_⟩
    simp only [hcap, true_and]
    rfl
  · refine ⟨_, _, _, ha, rfl, hb, rfl, cb1.exec_inserts fun i ts h => hcap ((hshows i ts).1 h).1, ?_⟩
    rw [if_neg fun h => hcap h.1]
    rfl

/-! ## Eviction (R296 (b)) -/

/-- The filter holds the last cap of the EPCs es, number k in slot k modulo cap, and inserts the next one there. -/
structure TagFilter.HoldsLast (f : TagFilter) (es : List (List Byte)) : Prop where
  next : f.next = es.length % f.cap
  shows : ∀ i E, (∃ ts, f.Shows i E ts) ↔ ∃ k, es[k]? = some E ∧ es.length ≤ k + f.cap ∧ k % f.cap = i

/-- An empty filter holds the last of no EPCs. -/
theorem TagFilter.holdsLast_nil {p : Params} {f : TagFilter} (w : f.Wf p) (h : f.count = 0) : f.HoldsLast [] where
  next := by rw [next_of_count_zero w h]; exact (Nat.zero_mod _).symm
  shows i E := by simp [not_shows_of_count_zero w h]

/-- An EPC is held exactly where it is among the last cap. -/
theorem TagFilter.HoldsLast.held_iff {f : TagFilter} {es : List (List Byte)} (h : f.HoldsLast es) {E : List Byte} :
    (∃ x ∈ f.entry, x.valid = true ∧ x.key = E) ↔ E ∈ es.drop (es.length - f.cap) := by
  rw [held_iff_shows]
  simp only [h.shows, List.mem_iff_getElem?, List.getElem?_drop]
  constructor
  · rintro ⟨i, k, hk, hlast, -⟩
    exact ⟨k - (es.length - f.cap), by rwa [show es.length - f.cap + (k - (es.length - f.cap)) = k by omega]⟩
  · rintro ⟨j, hj⟩
    exact ⟨_, _, hj, by omega, rfl⟩

/-- Two numbers less than m apart are equal where they are modulo m. -/
theorem eq_of_mod_eq_of_lt_add {m k n : Nat} (hle : k ≤ n) (hlt : n < k + m) (h : k % m = n % m) : k = n := by
  have hdvd : m ∣ n - k := (Nat.modEq_iff_dvd' hle).1 h
  have := Nat.eq_zero_of_dvd_of_lt hdvd (by omega)
  omega

/-- An insertion evicts the EPC inserted longest ago: the filter then holds the last cap of one EPC more (R296 (b)). -/
theorem TagFilter.HoldsLast.insert {p : Params} {f : TagFilter} {es : List (List Byte)} (h : f.HoldsLast es)
    (w : f.Wf p) {E : List Byte} (hE : E.length ≤ 255) (t : Word) : (f.insert E t).HoldsLast (es ++ [E]) where
  next := by
    show (f.next + 1) % f.cap = (es ++ [E]).length % f.cap
    rw [h.next, Nat.mod_add_mod, List.length_append, List.length_singleton]
  shows i e := by
    show _ ↔ ∃ k, _ ∧ _ ≤ k + f.cap ∧ k % f.cap = i
    simp only [shows_insert w hE, h.next, List.length_append, List.length_singleton]
    by_cases hi : i = es.length % f.cap
    · simp only [if_pos hi, exists_and_left, exists_eq, and_true]
      constructor
      · rintro rfl
        exact ⟨es.length, by simp, by have := w.capPos; omega, hi.symm⟩
      · rintro ⟨k, hk, hlast, hslot⟩
        have hlt : k < es.length + 1 := by simpa using (List.getElem?_eq_some_iff.1 hk).1
        obtain rfl : k = es.length := eq_of_mod_eq_of_lt_add (by omega) (by omega) (hslot.trans hi)
        simpa [eq_comm] using hk
    · simp only [if_neg hi, h.shows]
      constructor
      · rintro ⟨k, hk, hlast, rfl⟩
        have hlt : k < es.length := (List.getElem?_eq_some_iff.1 hk).1
        have hne : es.length ≠ k + f.cap := fun he => hi (by rw [he, Nat.add_mod_right])
        exact ⟨k, by rwa [List.getElem?_append_left hlt], by omega, rfl⟩
      · rintro ⟨k, hk, hlast, rfl⟩
        have hlt : k < es.length + 1 := by simpa using (List.getElem?_eq_some_iff.1 hk).1
        have hne : k ≠ es.length := fun he => hi (by rw [he])
        rw [List.getElem?_append_left (by omega)] at hk
        exact ⟨k, hk, by omega, rfl⟩

/-- Checks of different EPCs, none of them held, insert each in turn. -/
theorem execAll_fltCheck_holdsLast {done : List (List Byte)} (es : List (List Byte)) {s : State} (w : s.Inv)
    (hf : s.fault = none) (hd : (done ++ es).Nodup) (hes : ∀ e ∈ es, e ≠ [] ∧ e.length ≤ s.params.epcMax)
    (h : s.flt.HoldsLast done) :
    ∃ t, execAll (es.map Instr.fltCheck) s = .next t ∧ t.flt.cap = s.flt.cap ∧ t.flt.HoldsLast (done ++ es) := by
  induction es generalizing done s with
  | nil => exact ⟨s, rfl, rfl, by simpa using h⟩
  | cons e es ih =>
    obtain ⟨⟨hne, hlen⟩, hrest⟩ := List.forall_mem_cons.1 hes
    have c : s.CanCheck e := ⟨w, hf, hne, hlen⟩
    have hnew : e ∉ done := fun hmem => (List.nodup_append.1 hd).2.2 e hmem e (by simp) rfl
    have hnone : ∀ i ts, ¬ s.flt.Shows i e ts := by
      intro i ts hi
      obtain ⟨k, hk, -⟩ := (h.shows i e).1 ⟨ts, hi⟩
      exact hnew (List.mem_of_getElem? hk)
    have hexec := c.exec_inserts hnone
    rw [List.append_cons] at hd ⊢
    obtain ⟨t, ht, hcap, hlast⟩ := ih (c.after hexec hf).inv hf hd hrest (h.insert w.flt c.length_le s.now)
    exact ⟨t, (execAll_cons hexec _).trans ht, hcap, hlast⟩

/-- Settles O45: each check inserts, and the filter holds the last cap of what was inserted. -/
theorem filterEvictsOldestInsertion : Obligations.FilterEvictsOldestInsertion := by
  intro es s w hf hcount hd hes
  have hempty := TagFilter.holdsLast_nil w.flt hcount
  obtain ⟨t, ht, hcap, h⟩ := execAll_fltCheck_holdsLast (done := []) es w hf hd hes hempty
  exact ⟨t, ht, fun e => hcap ▸ h.held_iff⟩

end Sys2Proof.Machine
end

section
/-! PROOFS. Family 60_exceptions.md: the FAULTED condition, what leads in and out of it, and the result codes. -/

namespace Sys2Proof.Machine

/-! ## What a step can do to the fault condition (R324) -/

/-- All that a step can do to the fault condition: keep it; end it, by RESET; enter it by a FIFO.FLUSH of a live queue,
or by a transmit-ready event past its claim (R231, R324, U3). -/
theorem step_fault_cases {s t : State} (h : step s = .next t) :
    t.fault = s.fault ∨
    (t.fault = none ∧ ∃ rest, s.inputs = .reset :: rest) ∨
    (t.fault = some .hazardFlushLive ∧ ∃ q, s.takes = some (.fifoFlush q) ∧ queueLive s q = true) ∨
    (t.fault = some .commitBeyondClaim ∧ ∃ n k j rest,
      s.inputs = .utx n k j :: rest ∧ (s.chan n).txie = true ∧ min k (s.chan n).tx.ring.count < j) := by
  obtain ⟨-, rfl⟩ | ⟨o, rest, hin, hstep⟩ := step_cases h
  · exact .inl rfl
  obtain ⟨rfl, -⟩ | ⟨_, now, i, -, -, -, htakes, rfl⟩ | ⟨_, _, -, -, -, rfl⟩ | ⟨_, _, -, -, -, -, rfl⟩ |
    ⟨_, _, _, _, -, -, -, -, -, -, rfl⟩ | ⟨n, k, j, rfl, -, htx, -, -, hj, rfl⟩ | ⟨rfl, -, rfl⟩ := hstep
  · exact .inl rfl
  · obtain hsame | ⟨q, rfl, hlive, hfault⟩ := effect_fault i { s with inputs := rest, now := now }
    · exact .inl hsame
    · have hq : queueLive s q = true := by cases q <;> exact hlive
      exact .inr (.inr (.inl ⟨hfault, q, htakes, hq⟩))
  · exact .inl rfl
  · exact .inl (State.setChan_fault _ _ _)
  · exact .inl (State.setChan_fault _ _ _)
  · exact .inr (.inr (.inr ⟨rfl, n, k, j, rest, hin, htx, hj⟩))
  · exact .inr (.inl ⟨rfl, rest, hin⟩)

/-! ## Out of the FAULTED condition (R324, U2) -/

/-- A FAULTED block withdraws every offer but RESET, of whatever kind (R324, log 5). -/
theorem step_withdraws_of_faulted {s : State} {o : Input} {rest : List Input} (hf : s.fault ≠ none)
    (hin : s.inputs = o :: rest) (ho : o ≠ .reset) : step s = .next { s with inputs := rest } := by
  cases o with
  | command bytes now =>
    rw [step_cons hin, offered, hostStep, if_pos]
    exact Option.isSome_iff_ne_none.2 hf
  | urx n b => exact step_urx_withdrawn hin (.inl hf)
  | utx n k j => exact step_utx_withdrawn hin (.inl hf)
  | reset => exact absurd rfl ho

/-- Settles O8: exec stops, each kind of offer but RESET is withdrawn, and only RESET's step ends the condition. -/
theorem faultedBlockTakesOnlyReset : Obligations.FaultedBlockTakesOnlyReset := by
  intro s hf
  refine ⟨exec_of_faulted hf, fun o rest => step_withdraws_of_faulted hf, fun t h ht => ?_⟩
  obtain hsame | ⟨-, hreset⟩ | ⟨hfault, -⟩ | ⟨hfault, -⟩ := step_fault_cases h
  · exact absurd (hsame.symm.trans ht) hf
  · exact hreset
  · simp [hfault] at ht
  · simp [hfault] at ht

/-! ## Into the FAULTED condition (R231, R324, U3) -/

/-- A queue whose interrupt-side agent is live is the RX queue of a channel with RXIEn = 1, or the TX queue of one with
TXIEn = 1 (R231). -/
theorem queueLive_cases {s : State} {q : QueueSel} (h : queueLive s q = true) :
    ∃ n, ((s.chan n).rxie = true ∧ q = rxQueueOf n) ∨ ((s.chan n).txie = true ∧ q = txQueueOf n) := by
  cases q with
  | rx0 => exact ⟨.ch0, .inl ⟨h, rfl⟩⟩
  | tx0 => exact ⟨.ch0, .inr ⟨h, rfl⟩⟩
  | rx1 => exact ⟨.ch1, .inl ⟨h, rfl⟩⟩
  | tx1 => exact ⟨.ch1, .inr ⟨h, rfl⟩⟩

/-- Settles O52: of what a step can do to the fault condition, only the two hazards enter it. -/
theorem onlyHazardsEnterFaulted : Obligations.OnlyHazardsEnterFaulted := by
  intro s t h hs ht
  obtain hsame | ⟨hnone, -⟩ | ⟨hfault, q, htakes, hlive⟩ | hcommit := step_fault_cases h
  · exact absurd (hsame.trans hs) ht
  · exact absurd hnone ht
  · obtain ⟨n, hq⟩ := queueLive_cases hlive
    refine .inl ⟨hfault, n, hq.imp ?_ ?_⟩
    · rintro ⟨hrx, rfl⟩
      exact ⟨hrx, htakes⟩
    · rintro ⟨htx, rfl⟩
      exact ⟨htx, htakes⟩
  · exact .inr hcommit

/-! ## Result codes (R320-R322) -/

@[simp] theorem Reply.error_code (c : Code) : (Reply.error c).code = c := rfl
@[simp] theorem Reply.error_value (c : Code) : (Reply.error c).value = 0#32 := rfl
@[simp] theorem Reply.error_data (c : Code) : (Reply.error c).data = [] := rfl
@[simp] theorem Reply.error_tags (c : Code) : (Reply.error c).tags = [] := rfl
@[simp] theorem Reply.error_frames (c : Code) : (Reply.error c).frames = [] := rfl

/-- OK is among the codes of every command (R321). -/
theorem ok_mem_codesOf (i : Instr) : Code.ok ∈ codesOf i := by
  cases i <;> exact List.mem_cons_self

/-- TX(n)'s free room, by its content (R225, R49). -/
theorem State.txRoom_eq (s : State) (n : Chan) :
    (s.chan n).tx.ring.free (txCap s.params n) = txCap s.params n - (s.txContents n).length := by
  rw [State.length_txContents, RingBuffer.free]

/-- All that a command's effect can answer (R321): OK; one of its codes InvalidParam and WrongMode, with the state as it
was; BufferOverflow, by FIFO.PUT, with TXERRch counted; or the hazard of FIFO.FLUSH. -/
theorem effect_answers (i : Instr) (s : State) :
    (effectOf i s).2.code = .ok ∨
    (∃ c ∈ codesOf i, (c = .invalidParam ∨ c = .wrongMode) ∧ effectOf i s = (s, Reply.error c)) ∨
    (∃ ch p, i = .fifoPut ch p ∧ effectOf i s =
      (s.setChan ch { s.chan ch with txerr := (s.chan ch).txerr + 1#32 },
       { Reply.error .bufferOverflow with value := natValue (txCap s.params ch - (s.txContents ch).length) })) ∨
    (∃ q, i = .fifoFlush q ∧ effectOf i s = raiseFault .hazardFlushLive s) := by
  cases i
  case fifoPut ch p =>
    simp only [effectOf]
    split
    · exact .inr (.inl ⟨.wrongMode, by simp [codesOf], .inr rfl, rfl⟩)
    · split
      · exact .inr (.inr (.inl ⟨ch, p, rfl, by rw [State.txRoom_eq]⟩))
      · exact .inl rfl
  case fifoFlush q =>
    simp only [effectOf]
    split
    · exact .inr (.inr (.inr ⟨q, rfl, rfl⟩))
    · exact .inl rfl
  case fifoGet | syncFeed =>
    simp only [effectOf]
    split
    · exact .inr (.inl ⟨.wrongMode, by simp [codesOf], .inr rfl, rfl⟩)
    · exact .inl rfl
  case crcSeal | fltCheck | modeSet | regRead | regWrite =>
    simp only [effectOf]
    split
    · exact .inr (.inl ⟨.invalidParam, by simp [codesOf], .inl rfl, rfl⟩)
    · exact .inl rfl
  case process =>
    simp only [effectOf]
    split <;> exact .inl rfl
  all_goals exact .inl rfl

/-- Settles O46, by what the command's effect answers. -/
theorem errorResultsChangeNothing : Obligations.ErrorResultsChangeNothing := by
  intro i s t h
  obtain ⟨-, rfl⟩ := exec_next h
  refine ⟨(effectOf i s).2, rfl, ?_⟩
  obtain hok | ⟨c, hmem, hc, heffect⟩ | ⟨ch, p, rfl, heffect⟩ | ⟨q, rfl, heffect⟩ := effect_answers i s
  · simp [hok, ok_mem_codesOf]
  · rw [heffect]
    obtain rfl | rfl := hc <;> simp [hmem, State.returns_eq]
  · rw [heffect, State.returns_setChan]
    simp [codesOf, natValue]
  · rw [heffect]
    simp [codesOf, raiseFault, State.returns_eq, State.enterFaulted]

end Sys2Proof.Machine
end

section
/-! PROOFS. Family 70_reset_and_hazards.md: RESET and the state a model starts in have R57's values. -/

namespace Sys2Proof.Machine

/-! ## Channels -/

/-- RESET brings any channel to R57's values (R350). -/
theorem Channel.isReset_reset (c : Channel) : c.reset.IsReset where
  paused := ⟨rfl, rfl⟩
  rx := ⟨rfl, rfl, rfl, rfl⟩
  tx := ⟨rfl, rfl, rfl, rfl⟩
  counters := ⟨rfl, rfl, rfl⟩

theorem Channel.isReset_fresh (capRx capTx : Nat) : (Channel.fresh capRx capTx).IsReset where
  paused := ⟨rfl, rfl⟩
  rx := ⟨rfl, rfl, rfl, rfl⟩
  tx := ⟨rfl, rfl, rfl, rfl⟩
  counters := ⟨rfl, rfl, rfl⟩

/-! ## The filter's slots -/

theorem TagFilter.invalid_of_mem_clear {f : TagFilter} {x : Slot} (h : x ∈ f.clear.entry) : x.valid = false := by
  rw [TagFilter.clear_entry, List.mem_map] at h
  obtain ⟨_, -, rfl⟩ := h
  rfl

theorem TagFilter.invalid_of_mem_fresh {p : Params} {x : Slot} (h : x ∈ (TagFilter.fresh p).entry) : x.valid = false := by
  rw [List.eq_of_mem_replicate h]

/-! ## The block -/

theorem State.isReset_resetWith (p : Params) : (State.resetWith p).IsReset where
  mode := rfl
  crc := rfl
  ch0 := Channel.isReset_fresh _ _
  ch1 := Channel.isReset_fresh _ _
  sync := ⟨rfl, rfl, rfl, rfl⟩
  syncCounters := ⟨rfl, rfl⟩
  slots := fun _ => TagFilter.invalid_of_mem_fresh
  flt := ⟨rfl, rfl, rfl, rfl⟩
  fltCounters := ⟨rfl, rfl⟩
  fault := rfl
  cmdIndex := rfl

/-- RESET brings a block in any state, FAULTED or not, to R57's values (R350). -/
theorem resetBlock_isReset (s : State) : (resetBlock s).IsReset where
  mode := resetBlock_mode s
  crc := resetBlock_crc s
  ch0 := Channel.isReset_reset s.ch0
  ch1 := Channel.isReset_reset s.ch1
  sync := ⟨rfl, rfl, rfl, rfl⟩
  syncCounters := ⟨rfl, rfl⟩
  slots := fun _ => TagFilter.invalid_of_mem_clear (f := s.flt)
  flt := ⟨rfl, rfl, rfl, rfl⟩
  fltCounters := ⟨rfl, rfl⟩
  fault := resetBlock_fault s
  cmdIndex := resetBlock_cmdIndex s

@[simp] theorem resetBlock_chan (s : State) (n : Chan) : (resetBlock s).chan n = (s.chan n).reset := by cases n <;> rfl

/-- RESET is always enabled: its step is `resetBlock`, with the offer taken (R350). -/
theorem step_reset {s : State} {rest : List Input} (h : s.inputs = .reset :: rest) :
    step s = .next (resetBlock { s with inputs := rest }) := step_cons h

/-! ## Obligations -/

/-- Settles O48: the start state has R57's values, and so has what RESET's step leaves, in any state. -/
theorem resetRestoresResetState : Obligations.ResetRestoresResetState := by
  refine ⟨fun p => ⟨State.isReset_resetWith p, rfl⟩, fun s rest h => ?_⟩
  refine ⟨_, step_reset h, resetBlock_isReset _, resetBlock_params _, resetBlock_inputs _, fun n => ?_⟩
  rw [resetBlock_chan, Channel.reset_wire]
  cases n <;> rfl

end Sys2Proof.Machine
end
